-- ==== Sys2Proof/Word.lean ====
section
/-! DEFINITION. The machine's bit-vector types: bytes, halfwords, words and the 5-bit register numbers
(spec/00_scope.md rules R4 and R6). Everything a test could show wrong (extension, byte order, bit fields)
stands in Decode.lean and Machine/, not here. -/

namespace Sys2Proof

/-- An 8-bit byte (R4, R50). -/
abbrev Byte := BitVec 8

/-- A 16-bit halfword (R4, R50). -/
abbrev Half := BitVec 16

/-- A 32-bit word: a general register, an address, an instruction word (R4, R80). -/
abbrev Word := BitVec 32

/-- The content of a 5-bit register field: the number of a general register or of a coprocessor 0 control
register. All 32 numbers name a register (R21, R33). -/
abbrev RegNum := BitVec 5

/-- The 16-bit immediate field of the Immediate format (R82). -/
abbrev Imm := BitVec 16

/-- The 26-bit target field of the Jump format (R83). -/
abbrev Target := BitVec 26

end Sys2Proof
end

