-- ==== Sys2Proof/Machine/Operands.lean ====
section
/-! DEFINITION. How operands and results are formed from register contents and fields: extension, effective and target
addresses, alignment, shifts, and the bytes of a word (spec/00_scope.md R6, spec/20_memory.md, spec/30_encoding.md R85
to R87, spec/41_data_transfer.md R130, R133, R137, R140, R142, spec/43_shift.md, spec/44_branch.md R220, spec/45_jump.md
R253). -/

namespace Sys2Proof.Machine

/-! ## Extension (R6) -/

/-- `sext_32` of an immediate. -/
def signExtendImm (imm : Imm) : Word := imm.signExtend 32

/-- `zext_32` of an immediate. -/
def zeroExtendImm (imm : Imm) : Word := imm.setWidth 32

/-- `sext_32` of a byte. -/
def signExtendByte (b : Byte) : Word := b.signExtend 32

/-- `zext_32` of a byte. -/
def zeroExtendByte (b : Byte) : Word := b.setWidth 32

/-- `sext_32` of a halfword. -/
def signExtendHalf (h : Half) : Word := h.signExtend 32

/-- `zext_32` of a halfword. -/
def zeroExtendHalf (h : Half) : Word := h.setWidth 32

/-- `imm :: 0^16`, the operand of `lui` (R85, R143). -/
def upperImm (imm : Imm) : Word := imm ++ 0#16

/-- `0` or `1` in a general register, the result of a comparison (R32). -/
def truthWord (c : Bool) : Word := if c then 1#32 else 0#32

/-! ## Addresses -/

/-- `npc`, the incremented program counter (R26); it wraps modulo `2^32` (R29). -/
def incremented (pc : Word) : Word := pc + 4#32

/-- The effective address of a load or store: base register plus sign-extended displacement, modulo `2^32` (R130). -/
def effectiveAddress (base : Word) (imm : Imm) : Word := base + signExtendImm imm

/-- The target of a conditional branch at `pc`: the offset in words counted from `npc`, modulo `2^32` (R220). -/
def branchTarget (pc : Word) (offset : Imm) : Word := incremented pc + (signExtendImm offset <<< 2)

/-- The target of `j` and `jal` at `pc`: `npc[31:28] :: target :: 00` (R253). -/
def jumpTarget (pc : Word) (target : Target) : Word :=
  (incremented pc).extractLsb' 28 4 ++ target ++ 0#2

/-! ## Alignment (R56, R57) -/

/-- The address is odd: it breaks halfword alignment. -/
def oddAddress (a : Word) : Bool := a.extractLsb' 0 1 != 0#1

/-- The address is no multiple of 4: it breaks word alignment. -/
def notWordAddress (a : Word) : Bool := a.extractLsb' 0 2 != 0#2

/-- The start of the aligned word `pc` lies in. -/
def wordStart (pc : Word) : Word := pc.extractLsb' 2 30 ++ 0#2

/-! ## Bytes of a word (R51 to R53) -/

/-- A halfword from its two bytes, lowest address first (R52). -/
def halfOfBytes (b0 b1 : Byte) : Half := b1 ++ b0

/-- Byte `k` of a word, `v[8k+7 : 8k]` (R53). -/
def byteOfWord (v : Word) (k : Nat) : Byte := v.extractLsb' (8 * k) 8

/-- What `MemWrite(a, 1, v)` writes (R53). -/
def byteStores (a v : Word) : List (Word × Byte) := [(a, byteOfWord v 0)]

/-- What `MemWrite(a, 2, v)` writes: little-endian (R53). -/
def halfStores (a v : Word) : List (Word × Byte) := [(a, byteOfWord v 0), (a + 1#32, byteOfWord v 1)]

/-- What `MemWrite(a, 4, v)` writes: little-endian (R53). -/
def wordStores (a v : Word) : List (Word × Byte) :=
  [(a, byteOfWord v 0), (a + 1#32, byteOfWord v 1), (a + 2#32, byteOfWord v 2), (a + 3#32, byteOfWord v 3)]

/-! ## Unaligned accesses: `lwl`, `lwr`, `swl`, `swr` -/

/-- `n = EA[1:0]`, the byte's place in its aligned word (R130). -/
def byteInWord (ea : Word) : Nat := (ea.extractLsb' 0 2).toNat

/-- The addresses `EA, EA-1, …` down to the first byte of the word, in that order (R133, R140). -/
def leftAddresses (ea : Word) : List Word :=
  (List.range (byteInWord ea + 1)).map (fun k => ea - BitVec.ofNat 32 k)

/-- The addresses `EA, EA+1, …` up to the last byte of the word, in that order (R137, R142). -/
def rightAddresses (ea : Word) : List Word :=
  (List.range (4 - byteInWord ea)).map (fun k => ea + BitVec.ofNat 32 k)

/-- `lwl`: the bytes read, from the effective address downward, fill the register from the top; the low bytes not loaded
keep their old value (R133). -/
def mergeLeft (old : Word) : List Byte → Word
  | [t] => t ++ old.extractLsb' 0 24
  | [t, u] => t ++ u ++ old.extractLsb' 0 16
  | [t, u, v] => t ++ u ++ v ++ old.extractLsb' 0 8
  | [t, u, v, w] => t ++ u ++ v ++ w
  | _ => old

/-- `lwr`: the bytes read, from the effective address upward, fill the register from the bottom; the high bytes not loaded
keep their old value (R137). -/
def mergeRight (old : Word) : List Byte → Word
  | [t] => old.extractLsb' 8 24 ++ t
  | [t, u] => old.extractLsb' 16 16 ++ u ++ t
  | [t, u, v] => old.extractLsb' 24 8 ++ v ++ u ++ t
  | [t, u, v, w] => w ++ v ++ u ++ t
  | _ => old

/-- What `swl` writes: the most significant byte at the effective address and the following ones downward (R140). -/
def leftStores (ea v : Word) : List (Word × Byte) :=
  (List.range (byteInWord ea + 1)).map (fun k => (ea - BitVec.ofNat 32 k, byteOfWord v (3 - k)))

/-- What `swr` writes: the least significant byte at the effective address and the following ones upward (R142). -/
def rightStores (ea v : Word) : List (Word × Byte) :=
  (List.range (4 - byteInWord ea)).map (fun k => (ea + BitVec.ofNat 32 k, byteOfWord v k))

/-! ## Shifts (spec/43_shift.md) -/

/-- The amount of a variable shift: "the low-order five bits of Rs" (R87, R203). -/
def shiftAmount (v : Word) : Nat := (v.extractLsb' 0 5).toNat

/-- `v << n`, zero-filled (R200). -/
def shiftLeft (v : Word) (n : Nat) : Word := v <<< n

/-- `v >> n`, zero-filled (R201). -/
def shiftRightZero (v : Word) (n : Nat) : Word := v >>> n

/-- `v >>a n`, sign-filled (R202). -/
def shiftRightSign (v : Word) (n : Nat) : Word := v.sshiftRight n

end Sys2Proof.Machine
end

