-- ==== Sys2Proof/Machine/Flags.lean ====
section
/-! DEFINITION. The machine has no flags (spec/10_state.md R32). This file holds the conditions other machines keep in flags:
the overflow tests that decide a trap (spec/40_arithmetic.md R120) and the comparisons that write a register or steer a
branch (spec/42_logical.md, spec/44_branch.md). -/

namespace Sys2Proof.Machine

/-- Bit 31, the sign of a two's-complement word (R6). -/
def signBit (v : Word) : Bool := v.getLsbD 31

/-- Signed overflow of `a + b`: the operands have the same sign bit and the 32-bit sum has the other (R120). -/
def addOverflows (a b : Word) : Bool := signBit a == signBit b && signBit (a + b) != signBit a

/-- Signed overflow of `a - b`: the operands have different sign bits and the difference's sign bit is not that of `a`
(R120). -/
def subOverflows (a b : Word) : Bool := signBit a != signBit b && signBit (a - b) != signBit a

/-- `signed(a) < signed(b)`: an exact comparison, not a wrapping subtraction (R174). -/
def lessSigned (a b : Word) : Bool := decide (a.toInt < b.toInt)

/-- `unsigned(a) < unsigned(b)` (R175). -/
def lessUnsigned (a b : Word) : Bool := decide (a.toNat < b.toNat)

/-- `signed(a) < 0` (R220 (f)). -/
def negative (a : Word) : Bool := decide (a.toInt < 0)

/-- `signed(a) > 0` (R220 (f)). -/
def positive (a : Word) : Bool := decide (0 < a.toInt)

end Sys2Proof.Machine
end

