-- ==== Sys2Proof/Syntax.lean ====
section
/-! DEFINITION. The 59 machine instructions of spec/30_encoding.md rule R88, one constructor per row of
spec/opcode_table.json, in the table's order. The operands stand in the order of the assembler syntax, which R95 makes
normative: the destination first, and `Imm(Rs)` as the immediate followed by the base register. -/

namespace Sys2Proof

/-- A machine instruction. Register operands are 5-bit field contents; a shift amount is a count (R87, checked by
`Instr.wellFormed`); immediates and jump targets are the field as it stands in the word. -/
inductive Instr where
  -- Group A, arithmetic (R110 to R119)
  | add (rd rs rt : RegNum)
  | addu (rd rs rt : RegNum)
  | sub (rd rs rt : RegNum)
  | subu (rd rs rt : RegNum)
  | mult (rs rt : RegNum)
  | multu (rs rt : RegNum)
  | div (rs rt : RegNum)
  | divu (rs rt : RegNum)
  | addi (rt rs : RegNum) (imm : Imm)
  | addiu (rt rs : RegNum) (imm : Imm)
  -- Group B, data transfer (R131 to R149)
  | lb (rt : RegNum) (imm : Imm) (rs : RegNum)
  | lh (rt : RegNum) (imm : Imm) (rs : RegNum)
  | lwl (rt : RegNum) (imm : Imm) (rs : RegNum)
  | lw (rt : RegNum) (imm : Imm) (rs : RegNum)
  | lbu (rt : RegNum) (imm : Imm) (rs : RegNum)
  | lhu (rt : RegNum) (imm : Imm) (rs : RegNum)
  | lwr (rt : RegNum) (imm : Imm) (rs : RegNum)
  | sb (rt : RegNum) (imm : Imm) (rs : RegNum)
  | sh (rt : RegNum) (imm : Imm) (rs : RegNum)
  | swl (rt : RegNum) (imm : Imm) (rs : RegNum)
  | sw (rt : RegNum) (imm : Imm) (rs : RegNum)
  | swr (rt : RegNum) (imm : Imm) (rs : RegNum)
  | lui (rt : RegNum) (imm : Imm)
  | mfhi (rd : RegNum)
  | mthi (rs : RegNum)
  | mflo (rd : RegNum)
  | mtlo (rs : RegNum)
  | mfc0 (rt cd : RegNum)
  | mtc0 (rt cd : RegNum)
  -- Group C, logical and comparison (R170 to R180)
  | and (rd rs rt : RegNum)
  | or (rd rs rt : RegNum)
  | xor (rd rs rt : RegNum)
  | nor (rd rs rt : RegNum)
  | slt (rd rs rt : RegNum)
  | sltu (rd rs rt : RegNum)
  | slti (rt rs : RegNum) (imm : Imm)
  | sltiu (rt rs : RegNum) (imm : Imm)
  | andi (rt rs : RegNum) (imm : Imm)
  | ori (rt rs : RegNum) (imm : Imm)
  | xori (rt rs : RegNum) (imm : Imm)
  -- Group D, shift (R200 to R205)
  | sll (rd rt : RegNum) (amount : Nat)
  | srl (rd rt : RegNum) (amount : Nat)
  | sra (rd rt : RegNum) (amount : Nat)
  | sllv (rd rt rs : RegNum)
  | srlv (rd rt rs : RegNum)
  | srav (rd rt rs : RegNum)
  -- Group E, conditional branch (R221 to R228)
  | beq (rs rt : RegNum) (offset : Imm)
  | bne (rs rt : RegNum) (offset : Imm)
  | blez (rs : RegNum) (offset : Imm)
  | bgtz (rs : RegNum) (offset : Imm)
  | bltz (rs : RegNum) (offset : Imm)
  | bgez (rs : RegNum) (offset : Imm)
  | bltzal (rs : RegNum) (offset : Imm)
  | bgezal (rs : RegNum) (offset : Imm)
  -- Group F, unconditional jump (R250 to R255)
  | jr (rs : RegNum)
  | jalr (rd rs : RegNum)
  | syscall
  | j (target : Target)
  | jal (target : Target)
  deriving DecidableEq, Repr

end Sys2Proof
end

