-- ==== Sys2Proof/WellFormed.lean ====
section
/-! DEFINITION. When an instruction is one a word can encode. Register numbers, immediates and targets fit their fields by
their type; the one thing left to check is the constant shift amount, `0 <= i <= 31` (spec/30_encoding.md rule R87). -/

namespace Sys2Proof

/-- The instruction fits its encoding: a constant shift amount is at most 31 (R87: "no larger amount can be encoded",
spec/43_shift.md). -/
def Instr.wellFormed : Instr → Bool
  | .add _ _ _ => true
  | .addu _ _ _ => true
  | .sub _ _ _ => true
  | .subu _ _ _ => true
  | .mult _ _ => true
  | .multu _ _ => true
  | .div _ _ => true
  | .divu _ _ => true
  | .addi _ _ _ => true
  | .addiu _ _ _ => true
  | .lb _ _ _ => true
  | .lh _ _ _ => true
  | .lwl _ _ _ => true
  | .lw _ _ _ => true
  | .lbu _ _ _ => true
  | .lhu _ _ _ => true
  | .lwr _ _ _ => true
  | .sb _ _ _ => true
  | .sh _ _ _ => true
  | .swl _ _ _ => true
  | .sw _ _ _ => true
  | .swr _ _ _ => true
  | .lui _ _ => true
  | .mfhi _ => true
  | .mthi _ => true
  | .mflo _ => true
  | .mtlo _ => true
  | .mfc0 _ _ => true
  | .mtc0 _ _ => true
  | .and _ _ _ => true
  | .or _ _ _ => true
  | .xor _ _ _ => true
  | .nor _ _ _ => true
  | .slt _ _ _ => true
  | .sltu _ _ _ => true
  | .slti _ _ _ => true
  | .sltiu _ _ _ => true
  | .andi _ _ _ => true
  | .ori _ _ _ => true
  | .xori _ _ _ => true
  | .sll _ _ amount => decide (amount < 32)
  | .srl _ _ amount => decide (amount < 32)
  | .sra _ _ amount => decide (amount < 32)
  | .sllv _ _ _ => true
  | .srlv _ _ _ => true
  | .srav _ _ _ => true
  | .beq _ _ _ => true
  | .bne _ _ _ => true
  | .blez _ _ => true
  | .bgtz _ _ => true
  | .bltz _ _ => true
  | .bgez _ _ => true
  | .bltzal _ _ => true
  | .bgezal _ _ => true
  | .jr _ => true
  | .jalr _ _ => true
  | .syscall => true
  | .j _ => true
  | .jal _ => true

end Sys2Proof
end

