-- ==== Sys2Proof/Decode.lean ====
section
/-! DEFINITION. Decoding and encoding (spec/30_encoding.md). The decoder is rule R88's table: a word is the instruction of
the one row with `w & mask = match` (R84), and a word that matches no row is reserved (R93). The encoder is written from the
three format pictures (R81, R82, R83) and the patterns of R88, independently of the masks. -/

namespace Sys2Proof

/-! ## Fields of an instruction word (R81, R82, R83, R87) -/

/-- The op-code, bits 31:26. -/
def fieldOp (w : Word) : BitVec 6 := w.extractLsb' 26 6

/-- `rs`, bits 25:21. -/
def fieldRs (w : Word) : RegNum := w.extractLsb' 21 5

/-- `rt`, bits 20:16. -/
def fieldRt (w : Word) : RegNum := w.extractLsb' 16 5

/-- `rd`, bits 15:11. -/
def fieldRd (w : Word) : RegNum := w.extractLsb' 11 5

/-- `shamt`, bits 10:6, as an unsigned 5-bit number (R87). -/
def fieldShamt (w : Word) : Nat := (w.extractLsb' 6 5).toNat

/-- The function code, bits 5:0. -/
def fieldFunct (w : Word) : BitVec 6 := w.extractLsb' 0 6

/-- `imm`, bits 15:0 (R85: never split or permuted). -/
def fieldImm (w : Word) : Imm := w.extractLsb' 0 16

/-- `target`, bits 25:0. -/
def fieldTarget (w : Word) : Target := w.extractLsb' 0 26

/-! ## The decode table (R88) -/

/-- One row of rule R88: a word `w` is the instruction iff `w & mask = pattern`, and `build` reads its operands. -/
structure Row where
  mnemonic : String
  pattern : Word
  mask : Word
  build : Word → Instr

/-- The row matches the word: every fixed bit is as drawn (R88, R89). -/
def Row.hits (r : Row) (w : Word) : Bool := w &&& r.mask == r.pattern

/-- Group A, arithmetic (R110 to R119). -/
def arithmeticRows : List Row := [
  ⟨"add", 0x00000020, 0xFC0007FF, fun w => .add (fieldRd w) (fieldRs w) (fieldRt w)⟩,
  ⟨"addu", 0x00000021, 0xFC0007FF, fun w => .addu (fieldRd w) (fieldRs w) (fieldRt w)⟩,
  ⟨"sub", 0x00000022, 0xFC0007FF, fun w => .sub (fieldRd w) (fieldRs w) (fieldRt w)⟩,
  ⟨"subu", 0x00000023, 0xFC0007FF, fun w => .subu (fieldRd w) (fieldRs w) (fieldRt w)⟩,
  ⟨"mult", 0x00000018, 0xFC00FFFF, fun w => .mult (fieldRs w) (fieldRt w)⟩,
  ⟨"multu", 0x00000019, 0xFC00FFFF, fun w => .multu (fieldRs w) (fieldRt w)⟩,
  ⟨"div", 0x0000001A, 0xFC00FFFF, fun w => .div (fieldRs w) (fieldRt w)⟩,
  ⟨"divu", 0x0000001B, 0xFC00FFFF, fun w => .divu (fieldRs w) (fieldRt w)⟩,
  ⟨"addi", 0x20000000, 0xFC000000, fun w => .addi (fieldRt w) (fieldRs w) (fieldImm w)⟩,
  ⟨"addiu", 0x24000000, 0xFC000000, fun w => .addiu (fieldRt w) (fieldRs w) (fieldImm w)⟩]

/-- Group B, data transfer (R131 to R149). -/
def dataTransferRows : List Row := [
  ⟨"lb", 0x80000000, 0xFC000000, fun w => .lb (fieldRt w) (fieldImm w) (fieldRs w)⟩,
  ⟨"lh", 0x84000000, 0xFC000000, fun w => .lh (fieldRt w) (fieldImm w) (fieldRs w)⟩,
  ⟨"lwl", 0x88000000, 0xFC000000, fun w => .lwl (fieldRt w) (fieldImm w) (fieldRs w)⟩,
  ⟨"lw", 0x8C000000, 0xFC000000, fun w => .lw (fieldRt w) (fieldImm w) (fieldRs w)⟩,
  ⟨"lbu", 0x90000000, 0xFC000000, fun w => .lbu (fieldRt w) (fieldImm w) (fieldRs w)⟩,
  ⟨"lhu", 0x94000000, 0xFC000000, fun w => .lhu (fieldRt w) (fieldImm w) (fieldRs w)⟩,
  ⟨"lwr", 0x98000000, 0xFC000000, fun w => .lwr (fieldRt w) (fieldImm w) (fieldRs w)⟩,
  ⟨"sb", 0xA0000000, 0xFC000000, fun w => .sb (fieldRt w) (fieldImm w) (fieldRs w)⟩,
  ⟨"sh", 0xA4000000, 0xFC000000, fun w => .sh (fieldRt w) (fieldImm w) (fieldRs w)⟩,
  ⟨"swl", 0xA8000000, 0xFC000000, fun w => .swl (fieldRt w) (fieldImm w) (fieldRs w)⟩,
  ⟨"sw", 0xAC000000, 0xFC000000, fun w => .sw (fieldRt w) (fieldImm w) (fieldRs w)⟩,
  ⟨"swr", 0xB8000000, 0xFC000000, fun w => .swr (fieldRt w) (fieldImm w) (fieldRs w)⟩,
  ⟨"lui", 0x3C000000, 0xFFE00000, fun w => .lui (fieldRt w) (fieldImm w)⟩,
  ⟨"mfhi", 0x00000010, 0xFFFF07FF, fun w => .mfhi (fieldRd w)⟩,
  ⟨"mthi", 0x00000011, 0xFC1FFFFF, fun w => .mthi (fieldRs w)⟩,
  ⟨"mflo", 0x00000012, 0xFFFF07FF, fun w => .mflo (fieldRd w)⟩,
  ⟨"mtlo", 0x00000013, 0xFC1FFFFF, fun w => .mtlo (fieldRs w)⟩,
  ⟨"mfc0", 0x40000000, 0xFFE007FF, fun w => .mfc0 (fieldRt w) (fieldRd w)⟩,
  ⟨"mtc0", 0x40800000, 0xFFE007FF, fun w => .mtc0 (fieldRt w) (fieldRd w)⟩]

/-- Group C, logical and comparison (R170 to R180). -/
def logicalRows : List Row := [
  ⟨"and", 0x00000024, 0xFC0007FF, fun w => .and (fieldRd w) (fieldRs w) (fieldRt w)⟩,
  ⟨"or", 0x00000025, 0xFC0007FF, fun w => .or (fieldRd w) (fieldRs w) (fieldRt w)⟩,
  ⟨"xor", 0x00000026, 0xFC0007FF, fun w => .xor (fieldRd w) (fieldRs w) (fieldRt w)⟩,
  ⟨"nor", 0x00000027, 0xFC0007FF, fun w => .nor (fieldRd w) (fieldRs w) (fieldRt w)⟩,
  ⟨"slt", 0x0000002A, 0xFC0007FF, fun w => .slt (fieldRd w) (fieldRs w) (fieldRt w)⟩,
  ⟨"sltu", 0x0000002B, 0xFC0007FF, fun w => .sltu (fieldRd w) (fieldRs w) (fieldRt w)⟩,
  ⟨"slti", 0x28000000, 0xFC000000, fun w => .slti (fieldRt w) (fieldRs w) (fieldImm w)⟩,
  ⟨"sltiu", 0x2C000000, 0xFC000000, fun w => .sltiu (fieldRt w) (fieldRs w) (fieldImm w)⟩,
  ⟨"andi", 0x30000000, 0xFC000000, fun w => .andi (fieldRt w) (fieldRs w) (fieldImm w)⟩,
  ⟨"ori", 0x34000000, 0xFC000000, fun w => .ori (fieldRt w) (fieldRs w) (fieldImm w)⟩,
  ⟨"xori", 0x38000000, 0xFC000000, fun w => .xori (fieldRt w) (fieldRs w) (fieldImm w)⟩]

/-- Group D, shift (R200 to R205). -/
def shiftRows : List Row := [
  ⟨"sll", 0x00000000, 0xFFE0003F, fun w => .sll (fieldRd w) (fieldRt w) (fieldShamt w)⟩,
  ⟨"srl", 0x00000002, 0xFFE0003F, fun w => .srl (fieldRd w) (fieldRt w) (fieldShamt w)⟩,
  ⟨"sra", 0x00000003, 0xFFE0003F, fun w => .sra (fieldRd w) (fieldRt w) (fieldShamt w)⟩,
  ⟨"sllv", 0x00000004, 0xFC0007FF, fun w => .sllv (fieldRd w) (fieldRt w) (fieldRs w)⟩,
  ⟨"srlv", 0x00000006, 0xFC0007FF, fun w => .srlv (fieldRd w) (fieldRt w) (fieldRs w)⟩,
  ⟨"srav", 0x00000007, 0xFC0007FF, fun w => .srav (fieldRd w) (fieldRt w) (fieldRs w)⟩]

/-- Group E, conditional branch (R221 to R228). -/
def branchRows : List Row := [
  ⟨"beq", 0x10000000, 0xFC000000, fun w => .beq (fieldRs w) (fieldRt w) (fieldImm w)⟩,
  ⟨"bne", 0x14000000, 0xFC000000, fun w => .bne (fieldRs w) (fieldRt w) (fieldImm w)⟩,
  ⟨"blez", 0x18000000, 0xFC1F0000, fun w => .blez (fieldRs w) (fieldImm w)⟩,
  ⟨"bgtz", 0x1C000000, 0xFC1F0000, fun w => .bgtz (fieldRs w) (fieldImm w)⟩,
  ⟨"bltz", 0x04000000, 0xFC1F0000, fun w => .bltz (fieldRs w) (fieldImm w)⟩,
  ⟨"bgez", 0x04010000, 0xFC1F0000, fun w => .bgez (fieldRs w) (fieldImm w)⟩,
  ⟨"bltzal", 0x04100000, 0xFC1F0000, fun w => .bltzal (fieldRs w) (fieldImm w)⟩,
  ⟨"bgezal", 0x04110000, 0xFC1F0000, fun w => .bgezal (fieldRs w) (fieldImm w)⟩]

/-- Group F, unconditional jump (R250 to R255). -/
def jumpRows : List Row := [
  ⟨"jr", 0x00000008, 0xFC1FFFFF, fun w => .jr (fieldRs w)⟩,
  ⟨"jalr", 0x00000009, 0xFC1F07FF, fun w => .jalr (fieldRd w) (fieldRs w)⟩,
  ⟨"syscall", 0x0000000C, 0xFFFFFFFF, fun _ => .syscall⟩,
  ⟨"j", 0x08000000, 0xFC000000, fun w => .j (fieldTarget w)⟩,
  ⟨"jal", 0x0C000000, 0xFC000000, fun w => .jal (fieldTarget w)⟩]
/-- The 59 rows of rule R88, in the source's order. -/
def opcodeRows : List Row :=
  arithmeticRows ++ dataTransferRows ++ logicalRows ++ shiftRows ++ branchRows ++ jumpRows

/-! ## Rejection by name (R93, R272) -/

/-- Why a byte sequence is no instruction. The machine treats every reserved word alike
(`ReservedInstruction`); the name says which line of R93 it falls under. -/
inductive DecodeError where
  /-- Fewer than four bytes: an instruction is one 32-bit word (R80). -/
  | truncated
  /-- R93, first line: an op-code the source does not list. -/
  | unlistedOpcode (op : BitVec 6)
  /-- R93, second line: a function code the source does not list under op-code `000000`. -/
  | unlistedFunction (funct : BitVec 6)
  /-- R93, third line: an `rt` selector the source does not list under op-code `000001`. -/
  | unlistedBranchSelector (rt : RegNum)
  /-- R93, fourth line: an `rs` selector other than `00000` and `00100` under op-code `010000`. -/
  | unlistedCop0Selector (rs : RegNum)
  /-- R93, last line: a listed instruction with a nonzero bit in a field the source draws as zeros (R89). -/
  | fixedFieldNotZero
  deriving DecidableEq, Repr

/-- The op-codes the source lists (R93). -/
def listedOpcodes : List (BitVec 6) :=
  [0b000000, 0b000001, 0b000010, 0b000011, 0b000100, 0b000101, 0b000110, 0b000111,
   0b001000, 0b001001, 0b001010, 0b001011, 0b001100, 0b001101, 0b001110, 0b001111, 0b010000,
   0b100000, 0b100001, 0b100010, 0b100011, 0b100100, 0b100101, 0b100110,
   0b101000, 0b101001, 0b101010, 0b101011, 0b101110]

/-- The function codes the source lists under op-code `000000` (R93). -/
def listedFunctions : List (BitVec 6) :=
  [0b000000, 0b000010, 0b000011, 0b000100, 0b000110, 0b000111, 0b001000, 0b001001, 0b001100,
   0b010000, 0b010001, 0b010010, 0b010011, 0b011000, 0b011001, 0b011010, 0b011011,
   0b100000, 0b100001, 0b100010, 0b100011, 0b100100, 0b100101, 0b100110, 0b100111,
   0b101010, 0b101011]

/-- The `rt` selectors the source lists under op-code `000001` (R93). -/
def listedBranchSelectors : List RegNum := [0b00000, 0b00001, 0b10000, 0b10001]

/-- The `rs` selectors the source lists under op-code `010000` (R93). -/
def listedCop0Selectors : List RegNum := [0b00000, 0b00100]

/-- Under which line of R93 a word that matches no row falls, the first that applies. -/
def reservedReason (w : Word) : DecodeError :=
  if !listedOpcodes.contains (fieldOp w) then .unlistedOpcode (fieldOp w)
  else if fieldOp w == 0b000000 && !listedFunctions.contains (fieldFunct w) then .unlistedFunction (fieldFunct w)
  else if fieldOp w == 0b000001 && !listedBranchSelectors.contains (fieldRt w) then .unlistedBranchSelector (fieldRt w)
  else if fieldOp w == 0b010000 && !listedCop0Selectors.contains (fieldRs w) then .unlistedCop0Selector (fieldRs w)
  else .fixedFieldNotZero

/-! ## The decoder -/

/-- The instruction a 32-bit word is, or why it is none (R84, R93). -/
def decodeWord (w : Word) : Except DecodeError Instr :=
  match opcodeRows.find? (fun r => r.hits w) with
  | some r => .ok (r.build w)
  | none => .error (reservedReason w)

/-- A word from its four bytes, lowest address first: the byte at the lowest address is the least significant
(R51, R54). -/
def wordOfBytes (b0 b1 b2 b3 : Byte) : Word := b3 ++ b2 ++ b1 ++ b0

/-- Decodes the instruction at the front of a byte sequence, lowest address first, and returns the bytes after it. Every
instruction is one 32-bit word (R80). -/
def decode : List Byte → Except DecodeError (Instr × List Byte)
  | b0 :: b1 :: b2 :: b3 :: rest => (decodeWord (wordOfBytes b0 b1 b2 b3)).map (fun i => (i, rest))
  | _ => .error .truncated

/-- The four bytes of a word as memory holds them, lowest address first (R53, R54). -/
def bytesOfWord (w : Word) : List Byte :=
  [w.extractLsb' 0 8, w.extractLsb' 8 8, w.extractLsb' 16 8, w.extractLsb' 24 8]

/-- The instruction whose low `nbits` bits are those of `w`, every higher bit zero, as a 32-bit word. -/
def tableWord (nbits w : Nat) : Word := BitVec.ofNat 32 (w % 2 ^ nbits)

/-- The instruction the decoder reads from a word of the opcode table laid out in memory's byte order. -/
def decodeTableWord (nbits w : Nat) : Option Instr :=
  match decode (bytesOfWord (tableWord nbits w)) with
  | .ok (i, _) => some i
  | .error _ => none

/-! ## The encoder (R81, R82, R83, R88) -/

/-- The Register format: op-code, Rs, Rt, Rd, `shamt`, function code (R81). -/
def registerWord (op : BitVec 6) (rs rt rd shamt : BitVec 5) (funct : BitVec 6) : Word :=
  op ++ rs ++ rt ++ rd ++ shamt ++ funct

/-- The Immediate format: op-code, Rs, Rt, Immediate (R82). -/
def immediateWord (op : BitVec 6) (rs rt : BitVec 5) (imm : Imm) : Word := op ++ rs ++ rt ++ imm

/-- The Jump format: op-code, Target (R83). -/
def jumpWord (op : BitVec 6) (target : Target) : Word := op ++ target

/-- The word of an instruction, field by field from the patterns of rule R88. -/
def encode : Instr → Word
  | .add rd rs rt => registerWord 0b000000 rs rt rd 0 0b100000
  | .addu rd rs rt => registerWord 0b000000 rs rt rd 0 0b100001
  | .sub rd rs rt => registerWord 0b000000 rs rt rd 0 0b100010
  | .subu rd rs rt => registerWord 0b000000 rs rt rd 0 0b100011
  | .mult rs rt => registerWord 0b000000 rs rt 0 0 0b011000
  | .multu rs rt => registerWord 0b000000 rs rt 0 0 0b011001
  | .div rs rt => registerWord 0b000000 rs rt 0 0 0b011010
  | .divu rs rt => registerWord 0b000000 rs rt 0 0 0b011011
  | .addi rt rs imm => immediateWord 0b001000 rs rt imm
  | .addiu rt rs imm => immediateWord 0b001001 rs rt imm
  | .lb rt imm rs => immediateWord 0b100000 rs rt imm
  | .lh rt imm rs => immediateWord 0b100001 rs rt imm
  | .lwl rt imm rs => immediateWord 0b100010 rs rt imm
  | .lw rt imm rs => immediateWord 0b100011 rs rt imm
  | .lbu rt imm rs => immediateWord 0b100100 rs rt imm
  | .lhu rt imm rs => immediateWord 0b100101 rs rt imm
  | .lwr rt imm rs => immediateWord 0b100110 rs rt imm
  | .sb rt imm rs => immediateWord 0b101000 rs rt imm
  | .sh rt imm rs => immediateWord 0b101001 rs rt imm
  | .swl rt imm rs => immediateWord 0b101010 rs rt imm
  | .sw rt imm rs => immediateWord 0b101011 rs rt imm
  | .swr rt imm rs => immediateWord 0b101110 rs rt imm
  | .lui rt imm => immediateWord 0b001111 0 rt imm
  | .mfhi rd => registerWord 0b000000 0 0 rd 0 0b010000
  | .mthi rs => registerWord 0b000000 rs 0 0 0 0b010001
  | .mflo rd => registerWord 0b000000 0 0 rd 0 0b010010
  | .mtlo rs => registerWord 0b000000 rs 0 0 0 0b010011
  | .mfc0 rt cd => registerWord 0b010000 0 rt cd 0 0b000000
  | .mtc0 rt cd => registerWord 0b010000 0b00100 rt cd 0 0b000000
  | .and rd rs rt => registerWord 0b000000 rs rt rd 0 0b100100
  | .or rd rs rt => registerWord 0b000000 rs rt rd 0 0b100101
  | .xor rd rs rt => registerWord 0b000000 rs rt rd 0 0b100110
  | .nor rd rs rt => registerWord 0b000000 rs rt rd 0 0b100111
  | .slt rd rs rt => registerWord 0b000000 rs rt rd 0 0b101010
  | .sltu rd rs rt => registerWord 0b000000 rs rt rd 0 0b101011
  | .slti rt rs imm => immediateWord 0b001010 rs rt imm
  | .sltiu rt rs imm => immediateWord 0b001011 rs rt imm
  | .andi rt rs imm => immediateWord 0b001100 rs rt imm
  | .ori rt rs imm => immediateWord 0b001101 rs rt imm
  | .xori rt rs imm => immediateWord 0b001110 rs rt imm
  | .sll rd rt amount => registerWord 0b000000 0 rt rd (BitVec.ofNat 5 amount) 0b000000
  | .srl rd rt amount => registerWord 0b000000 0 rt rd (BitVec.ofNat 5 amount) 0b000010
  | .sra rd rt amount => registerWord 0b000000 0 rt rd (BitVec.ofNat 5 amount) 0b000011
  | .sllv rd rt rs => registerWord 0b000000 rs rt rd 0 0b000100
  | .srlv rd rt rs => registerWord 0b000000 rs rt rd 0 0b000110
  | .srav rd rt rs => registerWord 0b000000 rs rt rd 0 0b000111
  | .beq rs rt offset => immediateWord 0b000100 rs rt offset
  | .bne rs rt offset => immediateWord 0b000101 rs rt offset
  | .blez rs offset => immediateWord 0b000110 rs 0 offset
  | .bgtz rs offset => immediateWord 0b000111 rs 0 offset
  | .bltz rs offset => immediateWord 0b000001 rs 0 offset
  | .bgez rs offset => immediateWord 0b000001 rs 0b00001 offset
  | .bltzal rs offset => immediateWord 0b000001 rs 0b10000 offset
  | .bgezal rs offset => immediateWord 0b000001 rs 0b10001 offset
  | .jr rs => registerWord 0b000000 rs 0 0 0 0b001000
  | .jalr rd rs => registerWord 0b000000 rs 0 rd 0 0b001001
  | .syscall => registerWord 0b000000 0 0 0 0 0b001100
  | .j target => jumpWord 0b000010 target
  | .jal target => jumpWord 0b000011 target

end Sys2Proof
end

