-- ==== Sys2Proof/Config.lean ====
section
/-! DEFINITION. What is fixed for one machine: the implementation parameters of spec/00_scope.md rule R4 that the step
reads (`Params`), the values `State.reset` takes where the spec leaves them open, and the free values, which are
constants with no body. -/

namespace Sys2Proof.Config

/-- `CP0_MODEL` (R4, R33): whether `mfc0` and `mtc0` reach 32 words of plain storage or are refused. -/
inductive Cp0Model where
  | storage
  | refuse
  deriving DecidableEq, Repr

/-- `SLTIU_IMM_EXT` (R4, R177): how `sltiu` widens its immediate. -/
inductive ImmExt where
  | zero
  | sign
  deriving DecidableEq, Repr

/-- `DIV_OVF` (R4, R122): what `div` gives for `0x80000000 / 0xFFFFFFFF`. `value lo hi` is the decided pair, `draw` the
cautious setting that takes two draws of `any_32()` (spec/92_eei_decisions.md D15). -/
inductive DivOvf where
  | value (lo hi : Word)
  | draw
  deriving DecidableEq, Repr

/-- The parameters an instruction's meaning depends on. They are arguments of the model, held in the state as constants so
that every statement about all states holds for every setting (R37; notes/assumptions/5.md). -/
structure Params where
  cp0Model : Cp0Model
  sltiuImmExt : ImmExt
  divOvf : DivOvf
  deriving DecidableEq, Repr

/-- The settings rule R4 gives as the decided values and defaults. -/
def Params.standard : Params where
  cp0Model := .storage
  sltiuImmExt := .zero
  divOvf := .value 0x80000000 0x00000000

/-- A range of populated byte addresses, `lo ≤ a < hi`: one piece of the parameter `Populated` (R60). -/
structure Region where
  lo : Nat
  hi : Nat
  deriving DecidableEq, Repr

/-- The size of the address space in bytes: an address is 32 bits and names one byte (R34). -/
def addressSpace : Nat := 2 ^ 32

/-- What a populated byte that the memory does not list holds: the value of `InitialImage` there. The spec leaves
`InitialImage` open (R60). DESIGN CHOICE, unsafe: notes/assumptions/2.md. -/
def unlistedByte : Byte := 0

/-- `Populated` in `State.reset`: the whole address space. The spec leaves it open (R60). DESIGN CHOICE, unsafe:
notes/assumptions/3.md. -/
def resetPopulated : List Region := [{ lo := 0, hi := addressSpace }]

/-- `ENTRY_PC` in `State.reset`: the entry the spec's own programs use (spec/95_test_vectors.md section 3). The spec leaves
it open (R300). DESIGN CHOICE, unsafe: notes/assumptions/4.md. -/
def entryPc : Word := 0x00001000

/-- `x[1]` to `x[31]` in `State.reset`: "unspecified" in R36, and never to be taken as zero. DESIGN CHOICE, unsafe:
notes/assumptions/1.md. -/
def resetGpr : Word := 0xDEADBEEF

/-- `hi` in `State.reset`: "unspecified" in R36. DESIGN CHOICE, unsafe: notes/assumptions/1.md. -/
def resetHi : Word := 0xAAAAAAAA

/-- `lo` in `State.reset`: "unspecified" in R36. DESIGN CHOICE, unsafe: notes/assumptions/1.md. -/
def resetLo : Word := 0x55555555

/-- Every `cp0[i]` in `State.reset`: "unspecified" in R36. DESIGN CHOICE, unsafe: notes/assumptions/1.md. -/
def resetCp0 : Word := 0xC0C0C0C0

/-- `any_32()` (R7): the `n`-th draw of a run. It has no body, so nothing can be proved of its value and a claim holds for
every sequence of draws (R37, R122; notes/assumptions/6.md). -/
opaque any32 : Nat → Word

/-- The six exceptions by name alone, without what they record (R270). -/
inductive ExceptionName where
  | integerOverflow
  | reservedInstruction
  | addressErrorLoad
  | addressErrorStore
  | addressErrorFetch
  | systemCall
  deriving DecidableEq, Repr

/-- `ExcCode` (R278): the numeric code of an exception, an open parameter that the spec leaves uninterpreted. No rule
depends on it. -/
opaque excCode : ExceptionName → Nat

end Sys2Proof.Config
end

