-- ==== Sys2Proof/Machine/State.lean ====
section
/-! DEFINITION. The machine's state as plain data (spec/10_state.md), the exceptions (spec/60_exceptions.md section 1), the
ways a step stops, and the state after reset. -/

namespace Sys2Proof.Machine

open Sys2Proof.Config (Params Region ExceptionName)

/-! ## Exceptions (R270) -/

/-- A synchronous exception with the value it records (R270). -/
inductive Exception where
  /-- "trap if overflow": `add`, `sub`, `addi` (R271). Records nothing. -/
  | integerOverflow
  /-- The fetched word matches no row of the opcode table (R272). Records the word. -/
  | reservedInstruction (w : Word)
  /-- A misaligned `lh`, `lhu` or `lw` (R273). Records the effective address. -/
  | addressErrorLoad (ea : Word)
  /-- A misaligned `sh` or `sw` (R273). Records the effective address. -/
  | addressErrorStore (ea : Word)
  /-- A fetch from a `pc` that is no multiple of 4 (R273). Records that `pc`. -/
  | addressErrorFetch (pc : Word)
  /-- `syscall` (R274). Records nothing. -/
  | systemCall
  deriving DecidableEq, Repr

/-- A trap as it is handed over: the exception and `epc`, the address of the instruction that raised it (R270, R275). -/
structure Trap where
  cause : Exception
  epc : Word
  deriving DecidableEq, Repr

/-! ## Ways a step stops -/

/-- A step that has no next state. The first two are the ends of a run that a trap brings, the third is the model's own
fault; in each the state is the one the step started from (R276). -/
inductive Fault where
  /-- The run's good end, `Exit(state)` of R276: the pending trap is `SystemCall` and `EnvTrap` ends the run. Raised when a
  trap is handed over. Safe: nothing is claimed of what the operating system does afterwards. -/
  | exit (epc : Word)
  /-- A bad end, `Fault(E, epc, info, state)` of R276: the pending trap is any other exception. Raised when a trap is handed
  over. Safe: a run that might go on on the chip ends here (spec/92_eei_decisions.md D9). -/
  | badTrap (t : Trap)
  /-- `MemoryFault(a)` (R62): a load, store or fetch touched byte `a`, which is not populated. Safe: a fault never yields a
  value (spec/92_eei_decisions.md D13). -/
  | memoryFault (a : Word)
  deriving DecidableEq, Repr

/-- The spec gives the run no meaning from here (R276, R279). -/
inductive Refusal where
  /-- A fetch of byte `a`, which the program has stored since reset (R69). Raised by the fetch. Safe. -/
  | storedFetch (a : Word)
  /-- `mfc0` or `mtc0` while the parameter `CP0_MODEL` is `refuse` (R33). Raised by those two. Safe. -/
  | cp0Refused
  /-- The instruction named has no meaning in the model yet. Raised by `exec` alone. Safe. -/
  | notModelled (mnemonic : String)
  deriving DecidableEq, Repr

/-! ## Memory -/

/-- `mem`, the partial map from byte addresses to bytes (R50): defined on the addresses of `populated`; there a byte is the
one `cells` lists, else `Config.unlistedByte`. -/
structure Memory where
  populated : List Region
  cells : List Host.Cell
  deriving DecidableEq, Repr

/-! ## What the environment does at a system call (R276) -/

/-- One write of the operating system to the machine's state while it serves a system call. -/
inductive EnvWrite where
  | reg (r : RegNum) (v : Word)
  | hi (v : Word)
  | lo (v : Word)
  | cp0 (c : RegNum) (v : Word)
  | byte (a : Word) (b : Byte)
  deriving DecidableEq, Repr

/-- `Resume State'` of R276, as what `State'` differs in: what the operating system wrote, in order, and where the program
goes on. The address space is finite, so some list of writes leads to any given content of the registers and of the populated
bytes. -/
structure EnvReply where
  writes : List EnvWrite
  pc : Word
  deriving DecidableEq, Repr

/-- Where the answers of `EnvTrap` come from (R276; notes/assumptions/9.md). -/
inductive Environment where
  /-- The answers to the coming system calls, fixed in advance; when none is left the run ends, so that `scripted []` is the
  default `EnvTrap`. -/
  | scripted (replies : List EnvReply)
  /-- The open parameter `Config.envTrap`, whose answer depends on the trap and on the state. -/
  | supplied
  deriving DecidableEq, Repr

/-! ## State -/

/-- The whole state. The first seven fields are the machine's (R20) with the store marks of R69; the last four are the
model's own: the trap being handed over, the environment's coming answers, the count of free values drawn, and the
parameters (INVENTORY.md, State). -/
structure State where
  /-- The general registers. Slot 0 is never read and never written: register 0 is hardwired (R21). -/
  x : Vector Word 32
  /-- The program counter: the address of the instruction being executed (R25). -/
  pc : Word
  /-- The special register Hi (R30). -/
  hi : Word
  /-- The special register Lo (R30). -/
  lo : Word
  /-- The coprocessor 0 control registers (R33). -/
  cp0 : Vector Word 32
  /-- The memory (R34, R50). -/
  mem : Memory
  /-- The addresses of the bytes the program has stored since reset, strictly rising (R69, R300). -/
  stored : List Nat
  /-- The trap that has been taken and is to be handed to `EnvTrap` by the next step (R275; notes/assumptions/7.md). -/
  trap : Option Trap
  /-- The environment the run is in (R276; notes/assumptions/9.md). -/
  env : Environment
  /-- How many draws of `any_32()` have been taken (R37; notes/assumptions/6.md). -/
  draws : Nat
  /-- The parameters the step reads (R4, R37; notes/assumptions/5.md). -/
  params : Params
  deriving DecidableEq, Repr

/-- What a step or a meaning answers. -/
abbrev Result := Host.Outcome State Fault Refusal

/-- The reset state of R300 for given parameters: `ENTRY_PC`, the memory (`InitialImage` on `Populated`), the step's
parameters and the environment. -/
def State.resetWith (entryPc : Word) (mem : Memory) (params : Params) (env : Environment) : State where
  x := (Vector.replicate 32 Config.resetGpr).set 0 0
  pc := entryPc
  hi := Config.resetHi
  lo := Config.resetLo
  cp0 := Vector.replicate 32 Config.resetCp0
  mem := mem
  stored := []
  trap := none
  env := env
  draws := 0
  params := params

/-- The machine right after reset, with the open parameters of R300 at the values notes/assumptions/2.md to 5.md name: no
program is in it. -/
def State.reset : State :=
  State.resetWith Config.entryPc { populated := Config.resetPopulated, cells := [] } Params.standard (.scripted [])

/-- `EnvTrap : Trap x State -> (End | Resume State')` of R276; none is `End`. -/
abbrev EnvTrap := Trap → State → Option EnvReply

end Sys2Proof.Machine

namespace Sys2Proof.Config

/-- `EnvTrap` (R4, R276) as an open parameter: it has no body, so a claim about a run in `Environment.supplied` holds for every
environment, and a claim about one environment takes it as a hypothesis (notes/assumptions/9.md). -/
opaque envTrap : Machine.EnvTrap

end Sys2Proof.Config
end

