-- ==== Sys2Proof/Machine/Ops.lean ====
section
/-! DEFINITION. The named operations over registers and memory, taking an exception, and handing a trap to the environment.
Every meaning is a line or two over these. -/

namespace Sys2Proof.Machine

open Sys2Proof.Config (Region)

/-! ## General registers (R21) -/

/-- `x[r]`: register 0 reads as zero. -/
def State.readReg (s : State) (r : RegNum) : Word := if r = 0#5 then 0#32 else s.x[r.toNat]'r.isLt

/-- `x[r] <- v`: a write to register 0 is discarded. -/
def State.writeReg (s : State) (r : RegNum) (v : Word) : State :=
  if r = 0#5 then s else { s with x := s.x.set r.toNat v r.isLt }

/-- The register the source calls `$ra` (R22). -/
def linkReg : RegNum := 31#5

/-! ## Special and control registers (R30, R33) -/

/-- `hi <- h; lo <- l`. -/
def State.writeHiLo (s : State) (h l : Word) : State := { s with hi := h, lo := l }

/-- `cp0[c]`: plain storage. -/
def State.readCp0 (s : State) (c : RegNum) : Word := s.cp0[c.toNat]'c.isLt

/-- `cp0[c] <- v`: no side effect. -/
def State.writeCp0 (s : State) (c : RegNum) (v : Word) : State := { s with cp0 := s.cp0.set c.toNat v c.isLt }

/-! ## Program counter -/

/-- `pc <- npc`: how every instruction ends that does not assign `pc` (R27). -/
def State.advance (s : State) : State := { s with pc := incremented s.pc }

/-- `pc <- t`. -/
def State.jumpTo (s : State) (t : Word) : State := { s with pc := t }

/-! ## Free values -/

/-- `hi` and `lo` each take a draw of `any_32()`, `lo` the first (R116, R122). -/
def State.drawHiLo (s : State) : State :=
  { s with lo := Config.any32 s.draws, hi := Config.any32 (s.draws + 1), draws := s.draws + 2 }

/-! ## The memory map (R50, R60) -/

/-- Some region holds the address. -/
def inRegions (rs : List Region) (a : Nat) : Bool := rs.any (fun r => decide (r.lo ≤ a) && decide (a < r.hi))

/-- `Populated(a)`. -/
def Memory.isPopulated (m : Memory) (a : Word) : Bool := inRegions m.populated a.toNat

/-- The byte a cell list gives an address: the listed one, else `Config.unlistedByte`. -/
def cellByte : List Host.Cell → Nat → Byte
  | [], _ => Config.unlistedByte
  | (k, b) :: rest, a => if k = a then b else cellByte rest a

/-- A cell list with the byte at one address set: strictly rising addresses stay so, and a byte equal to what an unlisted
address reads as is not listed. -/
def setCell : List Host.Cell → Nat → Byte → List Host.Cell
  | [], a, b => if b = Config.unlistedByte then [] else [(a, b)]
  | (k, c) :: rest, a, b =>
    if a < k then (if b = Config.unlistedByte then (k, c) :: rest else (a, b) :: (k, c) :: rest)
    else if a = k then (if b = Config.unlistedByte then rest else (a, b) :: rest)
    else (k, c) :: setCell rest a b

/-- `mem[a]`, none where the map is not defined (R50). -/
def Memory.read (m : Memory) (a : Word) : Option Byte :=
  if m.isPopulated a then some (cellByte m.cells a.toNat) else none

/-- `mem[a] <- b` at a populated address; elsewhere there is no byte to write and nothing changes. -/
def Memory.write (m : Memory) (a : Word) (b : Byte) : Memory :=
  if m.isPopulated a then { m with cells := setCell m.cells a.toNat b } else m

/-- The regions with `lo ≤ a < hi` populated too, kept rising, disjoint and not adjacent. -/
def addRegion : List Region → Nat → Nat → List Region
  | [], lo, hi => [{ lo := lo, hi := hi }]
  | r :: rest, lo, hi =>
    if hi < r.lo then { lo := lo, hi := hi } :: r :: rest
    else if r.hi < lo then r :: addRegion rest lo hi
    else addRegion rest (min lo r.lo) (max hi r.hi)

/-- The memory with one byte placed from outside: its address is populated if it was not. -/
def Memory.place (m : Memory) (a : Word) (b : Byte) : Memory :=
  let m' : Memory :=
    if m.isPopulated a then m else { m with populated := addRegion m.populated a.toNat (a.toNat + 1) }
  m'.write a b

/-- The regions are nonempty, lie in the address space from `least` on, rise, and do not touch. -/
def regionsFrom (least : Nat) : List Region → Bool
  | [] => true
  | r :: rest =>
    decide (least ≤ r.lo) && decide (r.lo < r.hi) && decide (r.hi ≤ Config.addressSpace) && regionsFrom (r.hi + 1) rest

/-- The cells' addresses rise strictly from `least` on, each in a region, and no cell holds what an unlisted address reads
as. -/
def cellsFrom (rs : List Region) (least : Nat) : List Host.Cell → Bool
  | [] => true
  | (a, b) :: rest =>
    decide (least ≤ a) && inRegions rs a && decide (b ≠ Config.unlistedByte) && cellsFrom rs (a + 1) rest

/-- The marks rise strictly from `least` on, each in a region. -/
def marksFrom (rs : List Region) (least : Nat) : List Nat → Bool
  | [] => true
  | a :: rest => decide (least ≤ a) && inRegions rs a && marksFrom rs (a + 1) rest

/-- The memory is in its one canonical form, so that equal memories are equal data. -/
def Memory.wf (m : Memory) : Bool := regionsFrom 0 m.populated && cellsFrom m.populated 0 m.cells

/-! ## Data accesses (R52, R53, R58, R62) -/

/-- `MemRead(a, 1)`; on the left, the address of the unpopulated byte. -/
def State.readByte (s : State) (a : Word) : Except Word Byte :=
  match s.mem.read a with
  | some b => .ok b
  | none => .error a

/-- The bytes at several addresses, read in the order given; the first unpopulated one is the fault's address. -/
def State.readBytes (s : State) : List Word → Except Word (List Byte)
  | [] => .ok []
  | a :: rest => do
    let b ← s.readByte a
    let bs ← s.readBytes rest
    return b :: bs

/-- `MemRead(a, 2)` (R52). -/
def State.readHalf (s : State) (a : Word) : Except Word Half := do
  let b0 ← s.readByte a
  let b1 ← s.readByte (a + 1#32)
  return halfOfBytes b0 b1

/-- `MemRead(a, 4)` (R52). -/
def State.readWord (s : State) (a : Word) : Except Word Word := do
  let b0 ← s.readByte a
  let b1 ← s.readByte (a + 1#32)
  let b2 ← s.readByte (a + 2#32)
  let b3 ← s.readByte (a + 3#32)
  return wordOfBytes b0 b1 b2 b3

/-- The marks with one more byte marked, kept rising and without repeats (R69). -/
def addMark : List Nat → Nat → List Nat
  | [], a => [a]
  | k :: rest, a => if a < k then a :: k :: rest else if a = k then k :: rest else k :: addMark rest a

/-- The program stores one byte: the memory holds it, and the byte is marked as stored by the program (R53, R69). -/
def State.storeByte (s : State) (a : Word) (b : Byte) : State :=
  { s with mem := s.mem.write a b, stored := addMark s.stored a.toNat }

/-- The program stores several bytes, in the order given. -/
def State.storeBytes (s : State) : List (Word × Byte) → State
  | [] => s
  | (a, b) :: rest => (s.storeByte a b).storeBytes rest

/-- The first address of an access that is not populated. -/
def Memory.firstAbsent (m : Memory) (as : List Word) : Option Word := as.find? (fun a => !m.isPopulated a)

/-! ## Taking an exception, and what comes after (R275, R276) -/

/-- `raise E(info)` (R275): nothing is written and `pc` is not advanced; the trap records the exception and `epc`, the
address of the instruction, and is handed over by the next step. No register saves anything and no mode changes, because
the spec gives the machine neither (R275, R277, R285). -/
def State.raise (s : State) (e : Exception) : Result := .next { s with trap := some { cause := e, epc := s.pc } }

/-- One write of the operating system. Register 0 discards it, as it does the program's (R21); it is no store of the
program, so it marks nothing (R69); a byte no memory holds cannot be written (R50). -/
def State.envWrite (s : State) : EnvWrite → State
  | .reg r v => s.writeReg r v
  | .hi v => { s with hi := v }
  | .lo v => { s with lo := v }
  | .cp0 c v => s.writeCp0 c v
  | .byte a b => { s with mem := s.mem.write a b }

/-- All writes of one answer, in order. -/
def State.envWrites (s : State) : List EnvWrite → State
  | [] => s
  | w :: rest => (s.envWrite w).envWrites rest

/-- The environment once it has answered: an answer fixed in advance is used up. -/
def Environment.afterReply : Environment → Environment
  | .scripted replies => .scripted replies.tail
  | .supplied => .supplied

/-- The run goes on after a system call as the environment's answer says (R276: `Resume State'`): there is no
return-from-exception instruction, and nothing is restored but what the answer says (R282). -/
def State.resume (s : State) (r : EnvReply) : State :=
  { s.envWrites r.writes with pc := r.pc, trap := none, env := s.env.afterReply }

/-- The `EnvTrap` of the environment a state is in. -/
def State.answer : EnvTrap := fun t s =>
  match s.env with
  | .scripted replies => replies.head?
  | .supplied => Config.envTrap t s

/-- A trap is handed to a given `EnvTrap` (R275 step 3, R276): after `SystemCall` the run goes on if it answers `Resume` and
else ends well; after any other trap the run ends badly, and `EnvTrap` is not asked. -/
def State.handOver (s : State) (envTrap : EnvTrap) (t : Trap) : Result :=
  match t.cause with
  | .systemCall =>
    match envTrap t s with
    | some r => .next (s.resume r)
    | none => .fault (.exit t.epc)
  | _ => .fault (.badTrap t)

/-- The value an exception records, `info` (R270). -/
def Exception.info : Exception → Option Word
  | .integerOverflow => none
  | .reservedInstruction w => some w
  | .addressErrorLoad ea => some ea
  | .addressErrorStore ea => some ea
  | .addressErrorFetch pc => some pc
  | .systemCall => none

/-- An exception's name without what it records (R270). -/
def Exception.name : Exception → Config.ExceptionName
  | .integerOverflow => .integerOverflow
  | .reservedInstruction _ => .reservedInstruction
  | .addressErrorLoad _ => .addressErrorLoad
  | .addressErrorStore _ => .addressErrorStore
  | .addressErrorFetch _ => .addressErrorFetch
  | .systemCall => .systemCall

/-- The numeric code of a trap, which the spec leaves uninterpreted (R278). -/
def Trap.code (t : Trap) : Nat := Config.excCode t.cause.name

/-! ## How meanings end -/

/-- `x[rd] <- v`, then `pc <- npc`. -/
def State.result (s : State) (rd : RegNum) (v : Word) : Result := .next (s.writeReg rd v).advance

/-- A load's end: the value read goes to `x[rt]`; an unpopulated byte is a `MemoryFault`, and nothing is written (R62). -/
def State.load (s : State) (rt : RegNum) (value : Except Word Word) : Result :=
  match value with
  | .ok v => s.result rt v
  | .error a => .fault (.memoryFault a)

/-- A store's end: if a byte is not populated none is written and the access is a `MemoryFault` (R53, R62); else all are
written. -/
def State.store (s : State) (bytes : List (Word × Byte)) : Result :=
  match s.mem.firstAbsent (bytes.map Prod.fst) with
  | some a => .fault (.memoryFault a)
  | none => .next (s.storeBytes bytes).advance

/-- A conditional branch's end: `pc <- btarget` if the condition holds, else `pc <- npc` (R220). -/
def State.branch (s : State) (taken : Bool) (offset : Imm) : State :=
  if taken then s.jumpTo (branchTarget s.pc offset) else s.advance

/-- The link of `bltzal`, `bgezal`, `jal` and `jalr`: `npc` is saved in a register (R26, R227, R251). -/
def State.link (s : State) (r : RegNum) : State := s.writeReg r (incremented s.pc)

end Sys2Proof.Machine
end

