-- ==== Sys2Proof/Machine/Arithmetic.lean ====
section
/-! DEFINITION. The arithmetic instructions (spec/40_arithmetic.md). -/

namespace Sys2Proof.Machine

/-- `add` and `addi` after their operands are read: the sum to `x[d]`, or `IntegerOverflow` with nothing written (R110, R118,
R120). -/
def State.addTrapping (s : State) (d : RegNum) (a b : Word) : Result :=
  if addOverflows a b then s.raise .integerOverflow else s.result d (a + b)

/-- R110. -/
def execAdd (rd rs rt : RegNum) (s : State) : Result := s.addTrapping rd (s.readReg rs) (s.readReg rt)

/-- R111. -/
def execAddu (rd rs rt : RegNum) (s : State) : Result := s.result rd (s.readReg rs + s.readReg rt)

/-- R112. -/
def execSub (rd rs rt : RegNum) (s : State) : Result :=
  if subOverflows (s.readReg rs) (s.readReg rt) then s.raise .integerOverflow
  else s.result rd (s.readReg rs - s.readReg rt)

/-- R113. -/
def execSubu (rd rs rt : RegNum) (s : State) : Result := s.result rd (s.readReg rs - s.readReg rt)

/-- A 64-bit product goes to the pair: `hi` is its upper half, `lo` its lower half (R30, R121). -/
def State.product (s : State) (p : BitVec 64) : Result :=
  .next (s.writeHiLo (p.extractLsb' 32 32) (p.extractLsb' 0 32)).advance

/-- R114. -/
def execMult (rs rt : RegNum) (s : State) : Result :=
  s.product (BitVec.ofInt 64 ((s.readReg rs).toInt * (s.readReg rt).toInt))

/-- R115. -/
def execMultu (rs rt : RegNum) (s : State) : Result :=
  s.product (BitVec.ofNat 64 ((s.readReg rs).toNat * (s.readReg rt).toNat))

/-- What `div` gives for `-2^31 / -1`: the parameter `DIV_OVF` (R122). -/
def State.divOverflow (s : State) : State :=
  match s.params.divOvf with
  | .value lo hi => s.writeHiLo hi lo
  | .draw => s.drawHiLo

/-- R116: a zero divisor draws both registers, `-2^31 / -1` takes `DIV_OVF`, and else the quotient rounds toward zero and the
remainder is what is left (R122). Nothing traps. -/
def execDiv (rs rt : RegNum) (s : State) : Result :=
  let n := (s.readReg rs).toInt
  let d := (s.readReg rt).toInt
  if d = 0 then .next s.drawHiLo.advance
  else if n = -2 ^ 31 ∧ d = -1 then .next s.divOverflow.advance
  else .next (s.writeHiLo (BitVec.ofInt 32 (n - n.tdiv d * d)) (BitVec.ofInt 32 (n.tdiv d))).advance

/-- R117: a zero divisor draws both registers; else floor quotient and remainder. -/
def execDivu (rs rt : RegNum) (s : State) : Result :=
  let n := (s.readReg rs).toNat
  let d := (s.readReg rt).toNat
  if d = 0 then .next s.drawHiLo.advance
  else .next (s.writeHiLo (BitVec.ofNat 32 (n - n / d * d)) (BitVec.ofNat 32 (n / d))).advance

/-- R118. -/
def execAddi (rt rs : RegNum) (imm : Imm) (s : State) : Result :=
  s.addTrapping rt (s.readReg rs) (signExtendImm imm)

/-- R119: the immediate is sign-extended in spite of "unsigned". -/
def execAddiu (rt rs : RegNum) (imm : Imm) (s : State) : Result :=
  s.result rt (s.readReg rs + signExtendImm imm)

end Sys2Proof.Machine
end

