-- ==== Sys2Proof/Machine/Branch.lean ====
section
/-! DEFINITION. The conditional branches (spec/44_branch.md). No delay slot (R220 (d)); no branch traps. -/

namespace Sys2Proof.Machine

/-- R221. -/
def execBeq (rs rt : RegNum) (offset : Imm) (s : State) : Result :=
  .next (s.branch (s.readReg rs == s.readReg rt) offset)

/-- R222. -/
def execBne (rs rt : RegNum) (offset : Imm) (s : State) : Result :=
  .next (s.branch (s.readReg rs != s.readReg rt) offset)

/-- R223. -/
def execBlez (rs : RegNum) (offset : Imm) (s : State) : Result := .next (s.branch (!positive (s.readReg rs)) offset)

/-- R224. -/
def execBgtz (rs : RegNum) (offset : Imm) (s : State) : Result := .next (s.branch (positive (s.readReg rs)) offset)

/-- R225. -/
def execBltz (rs : RegNum) (offset : Imm) (s : State) : Result := .next (s.branch (negative (s.readReg rs)) offset)

/-- R226. -/
def execBgez (rs : RegNum) (offset : Imm) (s : State) : Result := .next (s.branch (!negative (s.readReg rs)) offset)

/-- R227: the condition is read before the link is written, and the link is written whether or not the branch is taken. -/
def execBltzal (rs : RegNum) (offset : Imm) (s : State) : Result :=
  .next ((s.link linkReg).branch (negative (s.readReg rs)) offset)

/-- R228: as R227. -/
def execBgezal (rs : RegNum) (offset : Imm) (s : State) : Result :=
  .next ((s.link linkReg).branch (!negative (s.readReg rs)) offset)

end Sys2Proof.Machine
end

