-- ==== Sys2Proof/Machine/DataTransfer.lean ====
section
/-! DEFINITION. The data transfer instructions (spec/41_data_transfer.md). -/

namespace Sys2Proof.Machine

/-- The effective address of `Imm(Rs)` (R130). -/
def State.address (s : State) (imm : Imm) (rs : RegNum) : Word := effectiveAddress (s.readReg rs) imm

/-! ## Loads -/

/-- R131. -/
def execLb (rt : RegNum) (imm : Imm) (rs : RegNum) (s : State) : Result :=
  s.load rt ((s.readByte (s.address imm rs)).map signExtendByte)

/-- R132. -/
def execLh (rt : RegNum) (imm : Imm) (rs : RegNum) (s : State) : Result :=
  if oddAddress (s.address imm rs) then s.raise (.addressErrorLoad (s.address imm rs))
  else s.load rt ((s.readHalf (s.address imm rs)).map signExtendHalf)

/-- R133. -/
def execLwl (rt : RegNum) (imm : Imm) (rs : RegNum) (s : State) : Result :=
  s.load rt ((s.readBytes (leftAddresses (s.address imm rs))).map (mergeLeft (s.readReg rt)))

/-- R134. -/
def execLw (rt : RegNum) (imm : Imm) (rs : RegNum) (s : State) : Result :=
  if notWordAddress (s.address imm rs) then s.raise (.addressErrorLoad (s.address imm rs))
  else s.load rt (s.readWord (s.address imm rs))

/-- R135. -/
def execLbu (rt : RegNum) (imm : Imm) (rs : RegNum) (s : State) : Result :=
  s.load rt ((s.readByte (s.address imm rs)).map zeroExtendByte)

/-- R136. -/
def execLhu (rt : RegNum) (imm : Imm) (rs : RegNum) (s : State) : Result :=
  if oddAddress (s.address imm rs) then s.raise (.addressErrorLoad (s.address imm rs))
  else s.load rt ((s.readHalf (s.address imm rs)).map zeroExtendHalf)

/-- R137. -/
def execLwr (rt : RegNum) (imm : Imm) (rs : RegNum) (s : State) : Result :=
  s.load rt ((s.readBytes (rightAddresses (s.address imm rs))).map (mergeRight (s.readReg rt)))

/-! ## Stores -/

/-- R138. -/
def execSb (rt : RegNum) (imm : Imm) (rs : RegNum) (s : State) : Result :=
  s.store (byteStores (s.address imm rs) (s.readReg rt))

/-- R139. -/
def execSh (rt : RegNum) (imm : Imm) (rs : RegNum) (s : State) : Result :=
  if oddAddress (s.address imm rs) then s.raise (.addressErrorStore (s.address imm rs))
  else s.store (halfStores (s.address imm rs) (s.readReg rt))

/-- R140: all the bytes written are checked for population before any is written. -/
def execSwl (rt : RegNum) (imm : Imm) (rs : RegNum) (s : State) : Result :=
  s.store (leftStores (s.address imm rs) (s.readReg rt))

/-- R141. -/
def execSw (rt : RegNum) (imm : Imm) (rs : RegNum) (s : State) : Result :=
  if notWordAddress (s.address imm rs) then s.raise (.addressErrorStore (s.address imm rs))
  else s.store (wordStores (s.address imm rs) (s.readReg rt))

/-- R142. -/
def execSwr (rt : RegNum) (imm : Imm) (rs : RegNum) (s : State) : Result :=
  s.store (rightStores (s.address imm rs) (s.readReg rt))

/-! ## Constants, special and control registers -/

/-- R143. -/
def execLui (rt : RegNum) (imm : Imm) (s : State) : Result := s.result rt (upperImm imm)

/-- R144. -/
def execMfhi (rd : RegNum) (s : State) : Result := s.result rd s.hi

/-- R145. -/
def execMthi (rs : RegNum) (s : State) : Result := .next (s.writeHiLo (s.readReg rs) s.lo).advance

/-- R146. -/
def execMflo (rd : RegNum) (s : State) : Result := s.result rd s.lo

/-- R147. -/
def execMtlo (rs : RegNum) (s : State) : Result := .next (s.writeHiLo s.hi (s.readReg rs)).advance

/-- An access to a control register under `CP0_MODEL`: done with `storage`, refused with `refuse` (R33). There is no
privilege check (R285). -/
def State.cp0Access (s : State) (done : Result) : Result :=
  match s.params.cp0Model with
  | .storage => done
  | .refuse => .refused .cp0Refused

/-- R148. -/
def execMfc0 (rt cd : RegNum) (s : State) : Result := s.cp0Access (s.result rt (s.readCp0 cd))

/-- R149. -/
def execMtc0 (rt cd : RegNum) (s : State) : Result := s.cp0Access (.next (s.writeCp0 cd (s.readReg rt)).advance)

end Sys2Proof.Machine
end

