-- ==== Sys2Proof/Machine/Jump.lean ====
section
/-! DEFINITION. The unconditional jumps and `syscall` (spec/45_jump.md). No delay slot. -/

namespace Sys2Proof.Machine

/-- R250: all 32 bits are used, so the new `pc` may be misaligned; the next fetch traps then (R28). -/
def execJr (rs : RegNum) (s : State) : Result := .next (s.jumpTo (s.readReg rs))

/-- R251: the target is read before the link is written. -/
def execJalr (rd rs : RegNum) (s : State) : Result := .next ((s.link rd).jumpTo (s.readReg rs))

/-- R252. -/
def execSyscall (s : State) : Result := s.raise .systemCall

/-- R254. -/
def execJ (target : Target) (s : State) : Result := .next (s.jumpTo (jumpTarget s.pc target))

/-- R255. -/
def execJal (target : Target) (s : State) : Result := .next ((s.link linkReg).jumpTo (jumpTarget s.pc target))

end Sys2Proof.Machine
end

