-- ==== Sys2Proof/Machine/Logical.lean ====
section
/-! DEFINITION. The logical and comparison instructions (spec/42_logical.md). None can trap. -/

namespace Sys2Proof.Machine

/-- R170. -/
def execAnd (rd rs rt : RegNum) (s : State) : Result := s.result rd (s.readReg rs &&& s.readReg rt)

/-- R171. -/
def execOr (rd rs rt : RegNum) (s : State) : Result := s.result rd (s.readReg rs ||| s.readReg rt)

/-- R172. -/
def execXor (rd rs rt : RegNum) (s : State) : Result := s.result rd (s.readReg rs ^^^ s.readReg rt)

/-- R173. -/
def execNor (rd rs rt : RegNum) (s : State) : Result := s.result rd (~~~(s.readReg rs ||| s.readReg rt))

/-- R174. -/
def execSlt (rd rs rt : RegNum) (s : State) : Result :=
  s.result rd (truthWord (lessSigned (s.readReg rs) (s.readReg rt)))

/-- R175. -/
def execSltu (rd rs rt : RegNum) (s : State) : Result :=
  s.result rd (truthWord (lessUnsigned (s.readReg rs) (s.readReg rt)))

/-- R176. -/
def execSlti (rt rs : RegNum) (imm : Imm) (s : State) : Result :=
  s.result rt (truthWord (lessSigned (s.readReg rs) (signExtendImm imm)))

/-- The immediate of `sltiu` under `SLTIU_IMM_EXT`: zero-extended by default, as the source says (R177). -/
def State.sltiuOperand (s : State) (imm : Imm) : Word :=
  match s.params.sltiuImmExt with
  | .zero => zeroExtendImm imm
  | .sign => signExtendImm imm

/-- R177. -/
def execSltiu (rt rs : RegNum) (imm : Imm) (s : State) : Result :=
  s.result rt (truthWord (lessUnsigned (s.readReg rs) (s.sltiuOperand imm)))

/-- R178. -/
def execAndi (rt rs : RegNum) (imm : Imm) (s : State) : Result := s.result rt (s.readReg rs &&& zeroExtendImm imm)

/-- R179. -/
def execOri (rt rs : RegNum) (imm : Imm) (s : State) : Result := s.result rt (s.readReg rs ||| zeroExtendImm imm)

/-- R180. -/
def execXori (rt rs : RegNum) (imm : Imm) (s : State) : Result := s.result rt (s.readReg rs ^^^ zeroExtendImm imm)

end Sys2Proof.Machine
end

