-- ==== Sys2Proof/Machine/Shift.lean ====
section
/-! DEFINITION. The shift instructions (spec/43_shift.md). The value shifted is `Rt`, never `Rs`. None can trap. -/

namespace Sys2Proof.Machine

/-- R200. -/
def execSll (rd rt : RegNum) (amount : Nat) (s : State) : Result := s.result rd (shiftLeft (s.readReg rt) amount)

/-- R201. -/
def execSrl (rd rt : RegNum) (amount : Nat) (s : State) : Result := s.result rd (shiftRightZero (s.readReg rt) amount)

/-- R202. -/
def execSra (rd rt : RegNum) (amount : Nat) (s : State) : Result := s.result rd (shiftRightSign (s.readReg rt) amount)

/-- R203. -/
def execSllv (rd rt rs : RegNum) (s : State) : Result :=
  s.result rd (shiftLeft (s.readReg rt) (shiftAmount (s.readReg rs)))

/-- R204. -/
def execSrlv (rd rt rs : RegNum) (s : State) : Result :=
  s.result rd (shiftRightZero (s.readReg rt) (shiftAmount (s.readReg rs)))

/-- R205. -/
def execSrav (rd rt rs : RegNum) (s : State) : Result :=
  s.result rd (shiftRightSign (s.readReg rt) (shiftAmount (s.readReg rs)))

end Sys2Proof.Machine
end

