-- ==== Sys2Proof/Machine/Fetch.lean ====
section
/-! DEFINITION. Fetching and decoding the instruction at `pc` (spec/10_state.md R27 steps 1 to 4, spec/20_memory.md R54, R57,
R69, spec/60_exceptions.md R283). -/

namespace Sys2Proof.Machine

/-- The addresses of the four bytes of the instruction at `pc`. -/
def fetchAddresses (pc : Word) : List Word := [pc, pc + 1#32, pc + 2#32, pc + 3#32]

/-- The first of the instruction's bytes that the program has stored (R69). -/
def State.storedInFetch (s : State) : Option Word :=
  (fetchAddresses s.pc).find? (fun a => s.stored.contains a.toNat)

/-- The instruction at `pc`, or what the step answers instead, in the order of R283: alignment of `pc`, population of the
four bytes, the refusal of stored bytes, decoding. -/
def State.fetchInstr (s : State) : Except Result Instr :=
  if notWordAddress s.pc then .error (s.raise (.addressErrorFetch s.pc))
  else
    match s.readWord s.pc with
    | .error a => .error (.fault (.memoryFault a))
    | .ok w =>
      match s.storedInFetch with
      | some a => .error (.refused (.storedFetch a))
      | none =>
        match decodeWord w with
        | .error _ => .error (s.raise (.reservedInstruction w))
        | .ok i => .ok i

end Sys2Proof.Machine
end

