-- ==== Sys2Proof/Machine/Step.lean ====
section
/-! DEFINITION. One step of the execution cycle (spec/10_state.md R27), and the placing of an instruction where the next step
fetches it. -/

namespace Sys2Proof.Machine

/-- One step under a given `EnvTrap`: a pending trap is handed to it (R275 step 3, R276); else the instruction at `pc` is
fetched, decoded and executed (R27). -/
def stepUnder (envTrap : EnvTrap) (s : State) : Host.Outcome State Fault Refusal :=
  match s.trap with
  | some t => s.handOver envTrap t
  | none =>
    match s.fetchInstr with
    | .error o => o
    | .ok i => exec i s

/-- One step of the machine in the environment its state names. -/
def step (s : State) : Host.Outcome State Fault Refusal := stepUnder State.answer s

/-- The state with the instruction of an opcode-table word stored where the next step fetches. A trap that is still pending
is dropped, a misaligned `pc` goes to the start of its word, the four bytes are populated, and they bear no store mark: the
fetch needs all four (notes/assumptions/15.md). -/
def State.withFetchWord (s : State) (nbits w : Nat) : State :=
  let pc := wordStart s.pc
  let v := tableWord nbits w
  { s with
    pc := pc
    trap := none
    mem := (((s.mem.place pc (byteOfWord v 0)).place (pc + 1#32) (byteOfWord v 1)).place (pc + 2#32) (byteOfWord v 2)).place
      (pc + 3#32) (byteOfWord v 3)
    stored := s.stored.filter (fun a => !((fetchAddresses pc).map BitVec.toNat).contains a) }

end Sys2Proof.Machine
end

