-- ==== Sys2Proof/Machine/Pseudo.lean ====
section
/-! DEFINITION. The assembler's side of the spec: the 19 pseudo-instructions (spec/30_encoding.md R97) with the meaning the
source states for each and the conventional expansion, and the fields an assembler stores for a code address (R95). The
processor sees only the expansions: nothing here is read by `step` (notes/assumptions/16.md). -/

namespace Sys2Proof.Machine

/-- The operand forms of `la` (R151). -/
inductive LaOperand where
  | absolute (address : Word)
  | based (imm : Imm) (rs : RegNum)
  deriving DecidableEq, Repr

/-- The 19 pseudo-instructions of R97. A branch carries the offset field of the branch it ends in. -/
inductive Pseudo where
  | li (rd : RegNum) (immed : Word)
  | la (rd : RegNum) (address : LaOperand)
  | move (rd rs : RegNum)
  | neg (rd rs : RegNum)
  | abs (rd rs : RegNum)
  | not (rd rs : RegNum)
  | seq (rd rs rt : RegNum)
  | sge (rd rs rt : RegNum)
  | sgt (rd rs rt : RegNum)
  | sle (rd rs rt : RegNum)
  | sne (rd rs rt : RegNum)
  | ror (rd rs rt : RegNum)
  | rol (rd rs rt : RegNum)
  | beqz (rs : RegNum) (offset : Imm)
  | bge (rs rt : RegNum) (offset : Imm)
  | bgt (rs rt : RegNum) (offset : Imm)
  | ble (rs rt : RegNum) (offset : Imm)
  | blt (rs rt : RegNum) (offset : Imm)
  | bnez (rs : RegNum) (offset : Imm)
  deriving DecidableEq, Repr

/-- `$at`, the assembler's scratch register (R97). -/
def scratchReg : RegNum := 1#5

/-- A 32-bit constant by `lui` and `ori`, the second word in every case (R151). -/
def loadConstant (rd : RegNum) (v : Word) : List Instr :=
  [.lui rd (v.extractLsb' 16 16), .ori rd rd (v.extractLsb' 0 16)]

/-- The expansion of `li`: one word where one suffices (R150). -/
def expandLi (rd : RegNum) (v : Word) : List Instr :=
  if v.toNat ≤ 65535 then [.ori rd 0#5 (v.extractLsb' 0 16)]
  else if -32768 ≤ v.toInt ∧ v.toInt < 0 then [.addiu rd 0#5 (v.extractLsb' 0 16)]
  else if v.extractLsb' 0 16 = 0#16 then [.lui rd (v.extractLsb' 16 16)]
  else loadConstant rd v

/-- The expansion of `la` (R151). -/
def expandLa (rd : RegNum) : LaOperand → List Instr
  | .absolute a => loadConstant rd a
  | .based imm rs => [.addiu rd rs imm]

/-- The conventional expansion of a pseudo-instruction (R150 to R152, R181 to R188, R206, R207, R229 to R234). PRESUMED: the
source gives none. -/
def Pseudo.expand : Pseudo → List Instr
  | .li rd v => expandLi rd v
  | .la rd a => expandLa rd a
  | .move rd rs => [.addu rd 0#5 rs]
  | .neg rd rs => [.sub rd 0#5 rs]
  | .abs rd rs => [.sra scratchReg rs 31, .xor rd scratchReg rs, .subu rd rd scratchReg]
  | .not rd rs => [.nor rd rs 0#5]
  | .seq rd rs rt => [.xor rd rs rt, .sltiu rd rd 1#16]
  | .sge rd rs rt => [.slt rd rs rt, .xori rd rd 1#16]
  | .sgt rd rs rt => [.slt rd rt rs]
  | .sle rd rs rt => [.slt rd rt rs, .xori rd rd 1#16]
  | .sne rd rs rt => [.xor rd rs rt, .sltu rd 0#5 rd]
  | .ror rd rs rt => [.subu scratchReg 0#5 rt, .sllv scratchReg rs scratchReg, .srlv rd rs rt, .or rd rd scratchReg]
  | .rol rd rs rt => [.subu scratchReg 0#5 rt, .srlv scratchReg rs scratchReg, .sllv rd rs rt, .or rd rd scratchReg]
  | .beqz rs offset => [.beq rs 0#5 offset]
  | .bge rs rt offset => [.slt scratchReg rs rt, .beq scratchReg 0#5 offset]
  | .bgt rs rt offset => [.slt scratchReg rt rs, .bne scratchReg 0#5 offset]
  | .ble rs rt offset => [.slt scratchReg rt rs, .beq scratchReg 0#5 offset]
  | .blt rs rt offset => [.slt scratchReg rs rt, .bne scratchReg 0#5 offset]
  | .bnez rs offset => [.bne rs 0#5 offset]

/-- What the source's sentence for a pseudo-instruction says it does: put a value in a register, or branch or not. -/
inductive PseudoEffect where
  | value (rd : RegNum) (v : Word)
  | branch (taken : Bool)
  deriving DecidableEq, Repr

/-- The offset field of the branch that a branch pseudo-instruction ends in; none for the others (R229 to R234). -/
def Pseudo.branchOffset : Pseudo → Option Imm
  | .beqz _ offset | .bge _ _ offset | .bgt _ _ offset | .ble _ _ offset | .blt _ _ offset | .bnez _ offset => some offset
  | .li _ _ | .la _ _ | .move _ _ | .neg _ _ | .abs _ _ | .not _ _ | .seq _ _ _ | .sge _ _ _ | .sgt _ _ _ | .sle _ _ _
  | .sne _ _ _ | .ror _ _ _ | .rol _ _ _ => none

/-- The value `la` denotes (R151). -/
def laValue (s : State) : LaOperand → Word
  | .absolute a => a
  | .based imm rs => effectiveAddress (s.readReg rs) imm

/-- A word rotated right by `n < 32` bits (R206). -/
def rotatedRight (v : Word) (n : Nat) : Word := shiftRightZero v n ||| shiftLeft v ((32 - n) % 32)

/-- A word rotated left by `n < 32` bits (R207). -/
def rotatedLeft (v : Word) (n : Nat) : Word := shiftLeft v n ||| shiftRightZero v ((32 - n) % 32)

/-- The meaning of a pseudo-instruction: the normative sentence of its rule. A comparison not called unsigned is
two's-complement (spec/92_eei_decisions.md D30). -/
def Pseudo.effect (s : State) : Pseudo → PseudoEffect
  | .li rd v => .value rd v
  | .la rd a => .value rd (laValue s a)
  | .move rd rs => .value rd (s.readReg rs)
  | .neg rd rs => .value rd (0#32 - s.readReg rs)
  | .abs rd rs => .value rd (if (s.readReg rs).toInt < 0 then 0#32 - s.readReg rs else s.readReg rs)
  | .not rd rs => .value rd (~~~(s.readReg rs))
  | .seq rd rs rt => .value rd (truthWord (s.readReg rs == s.readReg rt))
  | .sge rd rs rt => .value rd (truthWord (decide ((s.readReg rs).toInt ≥ (s.readReg rt).toInt)))
  | .sgt rd rs rt => .value rd (truthWord (decide ((s.readReg rs).toInt > (s.readReg rt).toInt)))
  | .sle rd rs rt => .value rd (truthWord (decide ((s.readReg rs).toInt ≤ (s.readReg rt).toInt)))
  | .sne rd rs rt => .value rd (truthWord (s.readReg rs != s.readReg rt))
  | .ror rd rs rt => .value rd (rotatedRight (s.readReg rs) (shiftAmount (s.readReg rt)))
  | .rol rd rs rt => .value rd (rotatedLeft (s.readReg rs) (shiftAmount (s.readReg rt)))
  | .beqz rs _ => .branch (s.readReg rs == 0#32)
  | .bge rs rt _ => .branch (decide ((s.readReg rs).toInt ≥ (s.readReg rt).toInt))
  | .bgt rs rt _ => .branch (decide ((s.readReg rs).toInt > (s.readReg rt).toInt))
  | .ble rs rt _ => .branch (decide ((s.readReg rs).toInt ≤ (s.readReg rt).toInt))
  | .blt rs rt _ => .branch (decide ((s.readReg rs).toInt < (s.readReg rt).toInt))
  | .bnez rs _ => .branch (s.readReg rs != 0#32)

/-- The instructions executed one after another, up to the first that traps or stops. -/
def execAll : List Instr → State → Result
  | [], s => .next s
  | i :: rest, s =>
    match exec i s with
    | .next t => if t.trap.isSome then .next t else execAll rest t
    | o => o

/-- No operand the pseudo-instruction reads is `$at`, which an expansion may use as its scratch register (R97). -/
def Pseudo.avoidsScratch : Pseudo → Bool
  | .li _ _ | .la _ (.absolute _) => true
  | .la _ (.based _ rs) | .move _ rs | .neg _ rs | .abs _ rs | .not _ rs | .beqz rs _ | .bnez rs _ => rs != scratchReg
  | .seq _ rs rt | .sge _ rs rt | .sgt _ rs rt | .sle _ rs rt | .sne _ rs rt | .ror _ rs rt | .rol _ rs rt
  | .bge rs rt _ | .bgt rs rt _ | .ble rs rt _ | .blt rs rt _ => rs != scratchReg && rt != scratchReg

/-! ## Code addresses (R95, R220 (e), R253 (d)) -/

/-- The offset field an assembler stores for a branch at `a` to `addr`; none where it must reject the target. -/
def branchField (a addr : Word) : Option Imm :=
  let d := addr - incremented a
  if d.extractLsb' 0 2 = 0#2 ∧ -131072 ≤ d.toInt ∧ d.toInt ≤ 131068 then some (d.extractLsb' 2 16) else none

/-- The target field an assembler stores for a jump at `a` to `addr`; none where it must reject the target. -/
def jumpField (a addr : Word) : Option Target :=
  if addr.extractLsb' 0 2 = 0#2 ∧ addr.extractLsb' 28 4 = (incremented a).extractLsb' 28 4 then some (addr.extractLsb' 2 26)
  else none

end Sys2Proof.Machine
end

