-- ==== Sys2Proof/Safety.lean ====
section
/-! DEFINITION. The terms statements are made in: the outcome of a run (spec/60_exceptions.md R276), what every reachable state
keeps, what a step leaves alone, and the tables of the spec that say which instruction may change what. -/

namespace Sys2Proof.Machine

/-! ## The outcome of a run (R276) -/

/-- The outcomes of R276 with the state in which the run ended, and `running` for a run that has not ended yet. -/
inductive RunOutcome where
  | exit (s : State)
  | fault (t : Trap) (s : State)
  | modelFault (a : Word) (s : State)
  | refused (r : Refusal) (s : State)
  | running (s : State)
  deriving DecidableEq, Repr

/-- How the run from `s` under a given `EnvTrap` stands after at most `n` steps. A run diverges if it is `running` for every
`n`. -/
def runUnder (envTrap : EnvTrap) : Nat → State → RunOutcome
  | 0, s => .running s
  | n + 1, s =>
    match stepUnder envTrap s with
    | .next t => runUnder envTrap n t
    | .fault (.exit _) => .exit s
    | .fault (.badTrap t) => .fault t s
    | .fault (.memoryFault a) => .modelFault a s
    | .refused r => .refused r s

/-- How the machine's own run from `s`, in the environment its state names, stands after at most `n` steps. -/
def runOutcome (n : Nat) (s : State) : RunOutcome := runUnder State.answer n s

/-- The only good end of a run (R276). -/
def RunOutcome.good : RunOutcome → Bool
  | .exit _ => true
  | _ => false

/-! ## What the environment's writes leave (R276) -/

/-- The value the write gives the general register `q`. -/
def EnvWrite.onReg (q : RegNum) : EnvWrite → Option Word
  | .reg r v => if r = q then some v else none
  | _ => none

/-- The value the write gives `hi`. -/
def EnvWrite.onHi : EnvWrite → Option Word
  | .hi v => some v
  | _ => none

/-- The value the write gives `lo`. -/
def EnvWrite.onLo : EnvWrite → Option Word
  | .lo v => some v
  | _ => none

/-- The value the write gives the control register `c`. -/
def EnvWrite.onCp0 (c : RegNum) : EnvWrite → Option Word
  | .cp0 d v => if d = c then some v else none
  | _ => none

/-- The byte the write gives address `a`. -/
def EnvWrite.onByte (a : Word) : EnvWrite → Option Byte
  | .byte k b => if k = a then some b else none
  | _ => none

/-- What a place holds after the writes: the last value one of them gives it, else what it held. -/
def lastOf {α : Type} (onPlace : EnvWrite → Option α) (ws : List EnvWrite) (old : α) : α :=
  ((ws.filterMap onPlace).getLast?).getD old

/-! ## What every reachable state keeps -/

/-- The memory is in its canonical form, the store marks rise and lie on populated bytes, the slot of register 0 is zero
(R21), and a trap that waits to be handed over names the address `pc` still holds (R275). -/
def State.wf (s : State) : Bool :=
  s.mem.wf && marksFrom s.mem.populated 0 s.stored && decide (s.x[0] = 0#32) &&
    (match s.trap with
      | some t => decide (t.epc = s.pc)
      | none => true)

/-! ## What an instruction leaves alone -/

/-- No general register differs. -/
def SameRegs (s t : State) : Prop := ∀ r, t.readReg r = s.readReg r

/-- No general register but `d` differs. -/
def SameRegsBut (d : RegNum) (s t : State) : Prop := ∀ r, r ≠ d → t.readReg r = s.readReg r

/-- `hi` and `lo` do not differ. -/
def SameHiLo (s t : State) : Prop := t.hi = s.hi ∧ t.lo = s.lo

/-- No control register differs. -/
def SameCp0 (s t : State) : Prop := ∀ c, t.readCp0 c = s.readCp0 c

/-- Every address reads as before, populated or not, and no byte's store mark differs. -/
def SameMem (s t : State) : Prop :=
  (∀ a, t.mem.read a = s.mem.read a) ∧ ∀ a : Word, a.toNat ∈ t.stored ↔ a.toNat ∈ s.stored

/-- The pending trap, the environment, the count of draws and the parameters do not differ. -/
def SameRest (s t : State) : Prop :=
  t.trap = s.trap ∧ t.env = s.env ∧ t.draws = s.draws ∧ t.params = s.params

/-- From `s` to `t` the general register `d` has taken `v` (nothing, if it is register 0), `pc` has gone to `p`, and nothing
else differs. -/
def WritesReg (d : RegNum) (v : Word) (p : Word) (s t : State) : Prop :=
  t.pc = p ∧ (∀ r, t.readReg r = if r = d ∧ r ≠ 0#5 then v else s.readReg r) ∧
    SameHiLo s t ∧ SameCp0 s t ∧ SameMem s t ∧ SameRest s t

/-- From `s` to `t` the special registers have taken `h` and `l`, `pc` has advanced, and nothing else differs. -/
def WritesHiLo (h l : Word) (s t : State) : Prop :=
  t.pc = s.pc + 4#32 ∧ t.hi = h ∧ t.lo = l ∧ SameRegs s t ∧ SameCp0 s t ∧ SameMem s t ∧ SameRest s t

/-- From `s` to `t` only `pc` differs, and it is `p`. -/
def WritesPc (p : Word) (s t : State) : Prop :=
  t.pc = p ∧ SameRegs s t ∧ SameHiLo s t ∧ SameCp0 s t ∧ SameMem s t ∧ SameRest s t

/-- From `s` to `t` the bytes `(address, byte)` of the list are stored, each at an address of its own, and marked as stored by
the program; every other address reads as before and keeps its mark; `pc` has advanced, and nothing else differs. -/
def Stores (bytes : List (Word × Byte)) (s t : State) : Prop :=
  t.pc = s.pc + 4#32 ∧ (∀ p ∈ bytes, t.mem.read p.1 = some p.2) ∧
    (∀ a, a ∉ bytes.map Prod.fst → t.mem.read a = s.mem.read a) ∧
    (∀ a : Word, a.toNat ∈ t.stored ↔ a.toNat ∈ s.stored ∨ a ∈ bytes.map Prod.fst) ∧
    SameRegs s t ∧ SameHiLo s t ∧ SameCp0 s t ∧ SameRest s t

/-- An integer a 32-bit two's-complement word can hold (R120). -/
def FitsSigned (n : Int) : Prop := -2 ^ 31 ≤ n ∧ n ≤ 2 ^ 31 - 1

/-- The word decodes to the instruction. -/
def Decodes (w : Word) (i : Instr) : Prop := decodeWord w = .ok i

/-- Executing `i` in `s` answers a next state that `P` relates to `s`. -/
def Completes (i : Instr) (s : State) (P : State → State → Prop) : Prop := ∃ t, exec i s = .next t ∧ P s t

/-- Executing `i` in `s` takes the exception `e` and writes nothing: the next state is `s` but for the trap it records, whose
`epc` is the address of the instruction (R275; that a trap is a next state is notes/assumptions/7.md). -/
def Traps (i : Instr) (s : State) (e : Exception) : Prop :=
  exec i s = .next { s with trap := some { cause := e, epc := s.pc } }

end Sys2Proof.Machine

namespace Sys2Proof

open Sys2Proof.Machine

/-! ## Tables of the spec -/

/-- The general register an instruction may write (R24); none for those that write none. -/
def Instr.destReg : Instr → Option RegNum
  | .add rd _ _ | .addu rd _ _ | .sub rd _ _ | .subu rd _ _ | .and rd _ _ | .or rd _ _ | .xor rd _ _ | .nor rd _ _
  | .slt rd _ _ | .sltu rd _ _ | .sll rd _ _ | .srl rd _ _ | .sra rd _ _ | .sllv rd _ _ | .srlv rd _ _ | .srav rd _ _
  | .mfhi rd | .mflo rd | .jalr rd _ => some rd
  | .addi rt _ _ | .addiu rt _ _ | .slti rt _ _ | .sltiu rt _ _ | .andi rt _ _ | .ori rt _ _ | .xori rt _ _ | .lui rt _
  | .lb rt _ _ | .lh rt _ _ | .lwl rt _ _ | .lw rt _ _ | .lbu rt _ _ | .lhu rt _ _ | .lwr rt _ _ | .mfc0 rt _ => some rt
  | .bltzal _ _ | .bgezal _ _ | .jal _ => some 31#5
  | .mult _ _ | .multu _ _ | .div _ _ | .divu _ _ | .mthi _ | .mtlo _ | .mtc0 _ _ | .sb _ _ _ | .sh _ _ _ | .swl _ _ _
  | .sw _ _ _ | .swr _ _ _ | .beq _ _ _ | .bne _ _ _ | .blez _ _ | .bgtz _ _ | .bltz _ _ | .bgez _ _ | .jr _ | .j _
  | .syscall => none

/-- The instructions that write `hi` or `lo` (R31). -/
def Instr.writesHiLo : Instr → Bool
  | .mult _ _ | .multu _ _ | .div _ _ | .divu _ _ | .mthi _ | .mtlo _ => true
  | _ => false

/-- The instructions that assign `pc` (R27). -/
def Instr.assignsPc : Instr → Bool
  | .beq _ _ _ | .bne _ _ _ | .blez _ _ | .bgtz _ _ | .bltz _ _ | .bgez _ _ | .bltzal _ _ | .bgezal _ _
  | .jr _ | .jalr _ _ | .j _ | .jal _ => true
  | _ => false

/-- The addresses of the bytes an instruction stores in a state (R58). -/
def Instr.storedAddresses (s : State) : Instr → List Word
  | .sb rt imm rs => (byteStores (s.address imm rs) (s.readReg rt)).map Prod.fst
  | .sh rt imm rs => (halfStores (s.address imm rs) (s.readReg rt)).map Prod.fst
  | .swl rt imm rs => (leftStores (s.address imm rs) (s.readReg rt)).map Prod.fst
  | .sw rt imm rs => (wordStores (s.address imm rs) (s.readReg rt)).map Prod.fst
  | .swr rt imm rs => (rightStores (s.address imm rs) (s.readReg rt)).map Prod.fst
  | _ => []

/-- The addresses of the bytes a load reads, in the order it reads them (R58, R133, R137). -/
def Instr.loadedAddresses (s : State) : Instr → List Word
  | .lb _ imm rs | .lbu _ imm rs => [s.address imm rs]
  | .lh _ imm rs | .lhu _ imm rs => [s.address imm rs, s.address imm rs + 1#32]
  | .lw _ imm rs =>
    [s.address imm rs, s.address imm rs + 1#32, s.address imm rs + 2#32, s.address imm rs + 3#32]
  | .lwl _ imm rs => leftAddresses (s.address imm rs)
  | .lwr _ imm rs => rightAddresses (s.address imm rs)
  | _ => []

/-- The addresses of the data bytes an instruction touches (R58). -/
def Instr.touchedAddresses (s : State) (i : Instr) : List Word := i.loadedAddresses s ++ i.storedAddresses s

/-- The instruction passes its alignment check: a halfword access has an even address, a word access a multiple of 4, and
nothing else is checked (R56). -/
def Instr.aligned (s : State) : Instr → Bool
  | .lh _ imm rs | .lhu _ imm rs | .sh _ imm rs => !oddAddress (s.address imm rs)
  | .lw _ imm rs | .sw _ imm rs => !notWordAddress (s.address imm rs)
  | _ => true

/-- The fixed fields of a word that matches a listed instruction in its op-code and selectors hold what the source draws
(R88, R89). -/
def fixedFieldsHold (w : Word) : Prop :=
  (fieldOp w = 0b000000 →
    (fieldFunct w ∈ ([0b000000, 0b000010, 0b000011] : List (BitVec 6)) → fieldRs w = 0#5) ∧
    (fieldFunct w ∉ ([0b000000, 0b000010, 0b000011] : List (BitVec 6)) → fieldShamt w = 0) ∧
    (fieldFunct w ∈ ([0b001000, 0b001001, 0b010001, 0b010011] : List (BitVec 6)) → fieldRt w = 0#5) ∧
    (fieldFunct w ∈ ([0b001000, 0b010001, 0b010011, 0b011000, 0b011001, 0b011010, 0b011011] : List (BitVec 6)) →
      fieldRd w = 0#5) ∧
    (fieldFunct w ∈ ([0b010000, 0b010010] : List (BitVec 6)) → fieldRs w = 0#5 ∧ fieldRt w = 0#5) ∧
    (fieldFunct w = 0b001100 → fieldRs w = 0#5 ∧ fieldRt w = 0#5 ∧ fieldRd w = 0#5)) ∧
  (fieldOp w ∈ ([0b000110, 0b000111] : List (BitVec 6)) → fieldRt w = 0#5) ∧
  (fieldOp w = 0b001111 → fieldRs w = 0#5) ∧
  (fieldOp w = 0b010000 → w.extractLsb' 0 11 = 0#11)

/-- The reserved words as R93 lists them: an unlisted op-code, function code, `rt` selector or `rs` selector, or a fixed field
that does not hold. -/
def ReservedByR93 (w : Word) : Prop :=
  fieldOp w ∉ listedOpcodes ∨
  (fieldOp w = 0b000000 ∧ fieldFunct w ∉ listedFunctions) ∨
  (fieldOp w = 0b000001 ∧ fieldRt w ∉ listedBranchSelectors) ∨
  (fieldOp w = 0b010000 ∧ (fieldRs w ∉ listedCop0Selectors ∨ w.extractLsb' 0 11 ≠ 0#11)) ∨
  ¬ fixedFieldsHold w

end Sys2Proof
end

