-- ==== Sys2Proof/Certificates/Slice0/Obligations.lean ====
section
/-! DEFINITION. The statements for the provers. Each docstring names the rules it rests on and says what it states; the
terms are those of Sys2Proof/Safety.lean. -/

open Sys2Proof
open Sys2Proof.Machine

/-- add, sub and addi write the exact signed result, or take IntegerOverflow when it does not fit (R110, R112, R118).
For all operands and every state: if the exact integer signed(a)+signed(b) (a-b for sub; the sign-extended immediate
as b for addi) lies in -2^31..2^31-1, the instruction completes with it in the destination (nothing, if the
destination is register 0), pc+4, and everything else unchanged; else it takes IntegerOverflow: the next state is the
same state but for the pending trap with epc = pc. The words of the three rules' encodings decode to these
instructions. -/
def Obligations.TrappingAddSubAreSigned : Prop :=
  ∀ (rd rs rt : RegNum) (imm : Imm) (s : State),
    (Decodes (registerWord 0b000000 rs rt rd 0b00000 0b100000) (.add rd rs rt) ∧
      Decodes (registerWord 0b000000 rs rt rd 0b00000 0b100010) (.sub rd rs rt) ∧
      Decodes (immediateWord 0b001000 rs rt imm) (.addi rt rs imm)) ∧
    (FitsSigned ((s.readReg rs).toInt + (s.readReg rt).toInt) →
      Completes (.add rd rs rt) s
        (WritesReg rd (BitVec.ofInt 32 ((s.readReg rs).toInt + (s.readReg rt).toInt)) (s.pc + 4#32))) ∧
    (¬ FitsSigned ((s.readReg rs).toInt + (s.readReg rt).toInt) → Traps (.add rd rs rt) s .integerOverflow) ∧
    (FitsSigned ((s.readReg rs).toInt - (s.readReg rt).toInt) →
      Completes (.sub rd rs rt) s
        (WritesReg rd (BitVec.ofInt 32 ((s.readReg rs).toInt - (s.readReg rt).toInt)) (s.pc + 4#32))) ∧
    (¬ FitsSigned ((s.readReg rs).toInt - (s.readReg rt).toInt) → Traps (.sub rd rs rt) s .integerOverflow) ∧
    (FitsSigned ((s.readReg rs).toInt + imm.toInt) →
      Completes (.addi rt rs imm) s (WritesReg rt (BitVec.ofInt 32 ((s.readReg rs).toInt + imm.toInt)) (s.pc + 4#32))) ∧
    (¬ FitsSigned ((s.readReg rs).toInt + imm.toInt) → Traps (.addi rt rs imm) s .integerOverflow)

/-- The sign-bit overflow tests agree with the exact integer range (R120, R271). For all words a and b: the bit test
for a+b (same sign bits, the 32-bit sum has the other) holds exactly when signed(a)+signed(b) is outside
-2^31..2^31-1, and the bit test for a-b (different sign bits, the difference's sign differs from a's) exactly when
signed(a)-signed(b) is outside it. -/
def Obligations.OverflowBitTestIsExactRange : Prop :=
  ∀ a b : Word,
    (addOverflows a b = true ↔ ¬ FitsSigned (a.toInt + b.toInt)) ∧
    (subOverflows a b = true ↔ ¬ FitsSigned (a.toInt - b.toInt))

/-- addu, subu and addiu write the exact result modulo 2^32 and never trap (R111, R113, R119). For all operands and
every state addu, subu and addiu complete: the destination takes the exact integer sum or difference modulo 2^32
(addiu sign-extends its immediate), pc advances by 4, and nothing else changes. The words of the three rules'
encodings decode to these instructions. -/
def Obligations.WrappingAddSubNeverTrap : Prop :=
  ∀ (rd rs rt : RegNum) (imm : Imm) (s : State),
    (Decodes (registerWord 0b000000 rs rt rd 0b00000 0b100001) (.addu rd rs rt) ∧
      Decodes (registerWord 0b000000 rs rt rd 0b00000 0b100011) (.subu rd rs rt) ∧
      Decodes (immediateWord 0b001001 rs rt imm) (.addiu rt rs imm)) ∧
    Completes (.addu rd rs rt) s
      (WritesReg rd (BitVec.ofInt 32 ((s.readReg rs).toInt + (s.readReg rt).toInt)) (s.pc + 4#32)) ∧
    Completes (.subu rd rs rt) s
      (WritesReg rd (BitVec.ofInt 32 ((s.readReg rs).toInt - (s.readReg rt).toInt)) (s.pc + 4#32)) ∧
    Completes (.addiu rt rs imm) s (WritesReg rt (BitVec.ofInt 32 ((s.readReg rs).toInt + imm.toInt)) (s.pc + 4#32))

/-- mult and multu leave the exact 64-bit product in (Hi, Lo) (R114, R115). For all operands and every state mult and
multu complete; the 64-bit value hi :: lo, read as a signed integer after mult and as an unsigned one after multu, is
the exact product of the operands so read; pc advances by 4 and nothing else changes. The words of the two rules'
encodings decode to these instructions. -/
def Obligations.ProductsAreExact : Prop :=
  ∀ (rs rt : RegNum) (s : State),
    Decodes (registerWord 0b000000 rs rt 0b00000 0b00000 0b011000) (.mult rs rt) ∧
    Decodes (registerWord 0b000000 rs rt 0b00000 0b00000 0b011001) (.multu rs rt) ∧
    Completes (.mult rs rt) s (fun s t => WritesHiLo t.hi t.lo s t ∧
      (t.hi ++ t.lo).toInt = (s.readReg rs).toInt * (s.readReg rt).toInt) ∧
    Completes (.multu rs rt) s (fun s t => WritesHiLo t.hi t.lo s t ∧
      (t.hi ++ t.lo).toNat = (s.readReg rs).toNat * (s.readReg rt).toNat)

/-- div rounds toward zero; -2^31 by -1 takes DIV_OVF; a zero divisor draws hi and lo and changes nothing else (R116,
R122). For all operands and every state div completes. With a nonzero divisor other than the case -2^31 / -1: lo holds
the quotient truncated toward zero and hi the remainder n - q*d, as signed integers. In the case -2^31 / -1: hi and lo
are the pair of the parameter DIV_OVF, or two draws if it is a draw. With a zero divisor: lo and hi are two draws of
any_32(). In every case pc advances by 4 and nothing else changes but the count of draws. The statement holds for
every value of the draws; the count of draws is the model's own (notes/assumptions/6.md). The word of the rule's
encoding decodes to div. -/
def Obligations.SignedDivisionTruncates : Prop :=
  ∀ (rs rt : RegNum) (s : State),
    Decodes (registerWord 0b000000 rs rt 0b00000 0b00000 0b011010) (.div rs rt) ∧
    ((s.readReg rt).toInt ≠ 0 → ¬ ((s.readReg rs).toInt = -2 ^ 31 ∧ (s.readReg rt).toInt = -1) →
      Completes (.div rs rt) s (fun s t => WritesHiLo t.hi t.lo s t ∧
        t.lo.toInt = (s.readReg rs).toInt.tdiv (s.readReg rt).toInt ∧
        t.hi.toInt = (s.readReg rs).toInt - t.lo.toInt * (s.readReg rt).toInt)) ∧
    ((s.readReg rs).toInt = -2 ^ 31 → (s.readReg rt).toInt = -1 →
      (∀ lo hi, s.params.divOvf = .value lo hi → Completes (.div rs rt) s (WritesHiLo hi lo)) ∧
      (s.params.divOvf = .draw →
        exec (.div rs rt) s = .next { s with
          lo := Config.any32 s.draws, hi := Config.any32 (s.draws + 1), draws := s.draws + 2, pc := s.pc + 4#32 })) ∧
    ((s.readReg rt).toInt = 0 →
      exec (.div rs rt) s = .next { s with
        lo := Config.any32 s.draws, hi := Config.any32 (s.draws + 1), draws := s.draws + 2, pc := s.pc + 4#32 })

/-- divu gives floor quotient and remainder; a zero divisor draws hi and lo and changes nothing else (R117, R122). For
all operands and every state divu completes. With a nonzero divisor lo is the floor quotient and hi the remainder
below the divisor, as natural numbers; pc advances by 4 and nothing else changes. With a zero divisor lo and hi are
two draws of any_32(), and nothing else changes but pc and the count of draws; the statement holds for every value of
the draws; the count of draws is the model's own (notes/assumptions/6.md). The word of the rule's encoding decodes to
divu. -/
def Obligations.UnsignedDivisionFloors : Prop :=
  ∀ (rs rt : RegNum) (s : State),
    Decodes (registerWord 0b000000 rs rt 0b00000 0b00000 0b011011) (.divu rs rt) ∧
    ((s.readReg rt).toNat ≠ 0 →
      Completes (.divu rs rt) s (fun s t => WritesHiLo t.hi t.lo s t ∧
        t.lo.toNat = (s.readReg rs).toNat / (s.readReg rt).toNat ∧
        t.hi.toNat = (s.readReg rs).toNat - t.lo.toNat * (s.readReg rt).toNat ∧
        t.hi.toNat < (s.readReg rt).toNat)) ∧
    ((s.readReg rt).toNat = 0 →
      exec (.divu rs rt) s = .next { s with
        lo := Config.any32 s.draws, hi := Config.any32 (s.draws + 1), draws := s.draws + 2, pc := s.pc + 4#32 })

/-- After div or divu with a nonzero divisor, dividend = quotient * divisor + remainder; in the case -2^31 / -1 under
the default DIV_OVF (R122, R116, R117). For all words, with a nonzero divisor. div: unless the operands are -2^31 and
-1, for every setting of DIV_OVF, and in that case too if DIV_OVF is its default (0x80000000, 0), the next state t
satisfies x[rs] = t.lo * x[rt] + t.hi modulo 2^32; outside that case the remainder is zero or has the sign of the
dividend and is smaller in magnitude than the divisor. divu: the next state satisfies the identity exactly, over the
naturals, for every setting. -/
def Obligations.DivisionIdentity : Prop :=
  ∀ (rs rt : RegNum) (s : State), s.readReg rt ≠ 0#32 →
    (s.params.divOvf = .value 0x80000000#32 0#32 ∨ ¬ ((s.readReg rs).toInt = -2 ^ 31 ∧ (s.readReg rt).toInt = -1) →
      ∃ t, exec (.div rs rt) s = .next t ∧ s.readReg rs = t.lo * s.readReg rt + t.hi ∧
        (¬ ((s.readReg rs).toInt = -2 ^ 31 ∧ (s.readReg rt).toInt = -1) →
          t.hi.toInt.natAbs < (s.readReg rt).toInt.natAbs ∧
          (t.hi.toInt = 0 ∨ (t.hi.toInt < 0 ↔ (s.readReg rs).toInt < 0)))) ∧
    ∃ t, exec (.divu rs rt) s = .next t ∧
      (s.readReg rs).toNat = t.lo.toNat * (s.readReg rt).toNat + t.hi.toNat

/-- lb sign-extends and lbu zero-extends the byte at the effective address (R131, R135). For all operands and every
state in which the byte at x[rs] + sext(imm) (modulo 2^32) is populated and holds b: lb and lbu complete with
sext_32(b), respectively zext_32(b), in x[rt] (nothing, if rt is 0), pc+4, and everything else unchanged, every byte
of memory included. The words of the two rules' encodings decode to these instructions. -/
def Obligations.ByteLoadsExtend : Prop :=
  ∀ (rt rs : RegNum) (imm : Imm) (s : State) (b : Byte),
    (Decodes (immediateWord 0b100000 rs rt imm) (.lb rt imm rs) ∧
      Decodes (immediateWord 0b100100 rs rt imm) (.lbu rt imm rs)) ∧
    (s.mem.read (s.readReg rs + imm.signExtend 32) = some b →
      Completes (.lb rt imm rs) s (WritesReg rt (b.signExtend 32) (s.pc + 4#32)) ∧
      Completes (.lbu rt imm rs) s (WritesReg rt (b.setWidth 32) (s.pc + 4#32)))

/-- lh and lhu load a little-endian halfword at an even address and trap at an odd one (R132, R136). For all operands
and every state, with EA = x[rs] + sext(imm): if EA is even and its two bytes are populated and hold b0, b1, lh and
lhu complete with the halfword b1 :: b0 sign-, respectively zero-extended in x[rt] (nothing, if rt is 0), pc+4,
everything else unchanged; if EA is odd, both take AddressErrorLoad(EA) with nothing written. The words of the two
rules' encodings decode to these instructions. -/
def Obligations.HalfwordLoadsExtendOrTrap : Prop :=
  ∀ (rt rs : RegNum) (imm : Imm) (s : State) (ea : Word), ea = s.readReg rs + imm.signExtend 32 →
    (Decodes (immediateWord 0b100001 rs rt imm) (.lh rt imm rs) ∧
      Decodes (immediateWord 0b100101 rs rt imm) (.lhu rt imm rs)) ∧
    (∀ b0 b1 : Byte, ea.getLsbD 0 = false → s.mem.read ea = some b0 → s.mem.read (ea + 1#32) = some b1 →
      Completes (.lh rt imm rs) s (WritesReg rt ((b1 ++ b0).signExtend 32) (s.pc + 4#32)) ∧
      Completes (.lhu rt imm rs) s (WritesReg rt ((b1 ++ b0).setWidth 32) (s.pc + 4#32))) ∧
    (ea.getLsbD 0 = true →
      Traps (.lh rt imm rs) s (.addressErrorLoad ea) ∧ Traps (.lhu rt imm rs) s (.addressErrorLoad ea))

/-- lw loads a little-endian word at a multiple of 4 and traps elsewhere (R134). For all operands and every state,
with EA = x[rs] + sext(imm): if EA is a multiple of 4 and its four bytes are populated and hold b0..b3, lw completes
with b3 :: b2 :: b1 :: b0 in x[rt] (nothing, if rt is 0), pc+4, everything else unchanged; if EA is no multiple of 4,
it takes AddressErrorLoad(EA) with nothing written. The word of the rule's encoding decodes to lw. -/
def Obligations.WordLoadOrTrap : Prop :=
  ∀ (rt rs : RegNum) (imm : Imm) (s : State) (ea : Word), ea = s.readReg rs + imm.signExtend 32 →
    Decodes (immediateWord 0b100011 rs rt imm) (.lw rt imm rs) ∧
    (∀ b0 b1 b2 b3 : Byte, ea.toNat % 4 = 0 → s.mem.read ea = some b0 → s.mem.read (ea + 1#32) = some b1 →
      s.mem.read (ea + 2#32) = some b2 → s.mem.read (ea + 3#32) = some b3 →
      Completes (.lw rt imm rs) s (WritesReg rt (b3 ++ b2 ++ b1 ++ b0) (s.pc + 4#32))) ∧
    (ea.toNat % 4 ≠ 0 → Traps (.lw rt imm rs) s (.addressErrorLoad ea))

/-- lwl fills the register from the top with the bytes from EA down to the word boundary (R133). For all operands and
every state, with EA = x[rs] + sext(imm) = base + n, base a multiple of 4 and n in 0..3, and the bytes base..EA
populated: lwl completes with the table's result in x[rt] (B0 :: o[23:0], B1 :: B0 :: o[15:0], B2 :: B1 :: B0 ::
o[7:0], or the whole word; o the old x[rt]; nothing, if rt is 0), pc+4, everything else unchanged. No other byte need
be populated. The word of the rule's encoding decodes to lwl. -/
def Obligations.LoadWordLeftMerges : Prop :=
  ∀ (rt rs : RegNum) (imm : Imm) (s : State) (base : Word) (b0 b1 b2 b3 : Byte), base.toNat % 4 = 0 →
    Decodes (immediateWord 0b100010 rs rt imm) (.lwl rt imm rs) ∧
    (s.readReg rs + imm.signExtend 32 = base → s.mem.read base = some b0 →
      Completes (.lwl rt imm rs) s (WritesReg rt (b0 ++ (s.readReg rt).extractLsb' 0 24) (s.pc + 4#32))) ∧
    (s.readReg rs + imm.signExtend 32 = base + 1#32 → s.mem.read base = some b0 → s.mem.read (base + 1#32) = some b1 →
      Completes (.lwl rt imm rs) s (WritesReg rt (b1 ++ b0 ++ (s.readReg rt).extractLsb' 0 16) (s.pc + 4#32))) ∧
    (s.readReg rs + imm.signExtend 32 = base + 2#32 → s.mem.read base = some b0 → s.mem.read (base + 1#32) = some b1 →
      s.mem.read (base + 2#32) = some b2 →
      Completes (.lwl rt imm rs) s (WritesReg rt (b2 ++ b1 ++ b0 ++ (s.readReg rt).extractLsb' 0 8) (s.pc + 4#32))) ∧
    (s.readReg rs + imm.signExtend 32 = base + 3#32 → s.mem.read base = some b0 → s.mem.read (base + 1#32) = some b1 →
      s.mem.read (base + 2#32) = some b2 → s.mem.read (base + 3#32) = some b3 →
      Completes (.lwl rt imm rs) s (WritesReg rt (b3 ++ b2 ++ b1 ++ b0) (s.pc + 4#32)))

/-- lwr fills the register from the bottom with the bytes from EA up to the end of the word (R137). For all operands
and every state, with EA = x[rs] + sext(imm) = base + n, base a multiple of 4 and n in 0..3, and the bytes EA..base+3
populated: lwr completes with the table's result in x[rt] (the whole word, o[31:24] :: B3 :: B2 :: B1, o[31:16] :: B3
:: B2, or o[31:8] :: B3; o the old x[rt]; nothing, if rt is 0), pc+4, everything else unchanged. No other byte need be
populated. The word of the rule's encoding decodes to lwr. -/
def Obligations.LoadWordRightMerges : Prop :=
  ∀ (rt rs : RegNum) (imm : Imm) (s : State) (base : Word) (b0 b1 b2 b3 : Byte), base.toNat % 4 = 0 →
    Decodes (immediateWord 0b100110 rs rt imm) (.lwr rt imm rs) ∧
    (s.readReg rs + imm.signExtend 32 = base → s.mem.read base = some b0 → s.mem.read (base + 1#32) = some b1 →
      s.mem.read (base + 2#32) = some b2 → s.mem.read (base + 3#32) = some b3 →
      Completes (.lwr rt imm rs) s (WritesReg rt (b3 ++ b2 ++ b1 ++ b0) (s.pc + 4#32))) ∧
    (s.readReg rs + imm.signExtend 32 = base + 1#32 → s.mem.read (base + 1#32) = some b1 →
      s.mem.read (base + 2#32) = some b2 → s.mem.read (base + 3#32) = some b3 →
      Completes (.lwr rt imm rs) s (WritesReg rt ((s.readReg rt).extractLsb' 24 8 ++ b3 ++ b2 ++ b1) (s.pc + 4#32))) ∧
    (s.readReg rs + imm.signExtend 32 = base + 2#32 → s.mem.read (base + 2#32) = some b2 →
      s.mem.read (base + 3#32) = some b3 →
      Completes (.lwr rt imm rs) s (WritesReg rt ((s.readReg rt).extractLsb' 16 16 ++ b3 ++ b2) (s.pc + 4#32))) ∧
    (s.readReg rs + imm.signExtend 32 = base + 3#32 → s.mem.read (base + 3#32) = some b3 →
      Completes (.lwr rt imm rs) s (WritesReg rt ((s.readReg rt).extractLsb' 8 24 ++ b3) (s.pc + 4#32)))

/-- lwr Rt,0(a) and lwl Rt,3(a), in either order, load the four bytes a..a+3 for any address a (R133, R137). For every
state, base register rs and destination rt with rt register 0 or different from rs, and any a = x[rs], aligned or not,
whose four bytes a..a+3 (modulo 2^32) are populated and hold b0..b3: executing lwr rt,0(rs) and then lwl rt,3(rs), or
lwl and then lwr, completes with x[rt] = b3 :: b2 :: b1 :: b0 (nothing, if rt is 0) whatever x[rt] held before, pc
advanced by 8, and nothing else changed. -/
def Obligations.UnalignedLoadPair : Prop :=
  ∀ (rt rs : RegNum) (s : State) (a : Word) (b0 b1 b2 b3 : Byte), (rt = 0#5 ∨ rt ≠ rs) → s.readReg rs = a →
    s.mem.read a = some b0 → s.mem.read (a + 1#32) = some b1 → s.mem.read (a + 2#32) = some b2 →
    s.mem.read (a + 3#32) = some b3 →
    (∃ t u, exec (.lwr rt 0#16 rs) s = .next t ∧ exec (.lwl rt 3#16 rs) t = .next u ∧
      WritesReg rt (b3 ++ b2 ++ b1 ++ b0) (s.pc + 8#32) s u) ∧
    (∃ t u, exec (.lwl rt 3#16 rs) s = .next t ∧ exec (.lwr rt 0#16 rs) t = .next u ∧
      WritesReg rt (b3 ++ b2 ++ b1 ++ b0) (s.pc + 8#32) s u)

/-- sb, sh and sw store the low bytes of Rt little-endian at the effective address, or trap misaligned (R138, R139,
R141). For all operands and every well-formed state, with EA = x[rs] + sext(imm): sb stores x[rt][7:0] at EA; sh, at
an even EA, x[rt][7:0] at EA and x[rt][15:8] at EA+1; sw, at a multiple of 4, the four bytes of x[rt] at EA..EA+3,
least significant first, provided the bytes are populated. Each such instruction completes: exactly those bytes
change, and are marked as stored by the program, pc advances by 4, no register changes and nothing else. sh at an odd
EA and sw at no multiple of 4 take AddressErrorStore(EA) with nothing written. The words of the three rules' encodings
decode to these instructions. -/
def Obligations.AlignedStores : Prop :=
  ∀ (rt rs : RegNum) (imm : Imm) (s : State) (ea : Word), s.wf = true → ea = s.readReg rs + imm.signExtend 32 →
    (Decodes (immediateWord 0b101000 rs rt imm) (.sb rt imm rs) ∧
      Decodes (immediateWord 0b101001 rs rt imm) (.sh rt imm rs) ∧
      Decodes (immediateWord 0b101011 rs rt imm) (.sw rt imm rs)) ∧
    (s.mem.isPopulated ea = true →
      Completes (.sb rt imm rs) s (Stores [(ea, (s.readReg rt).extractLsb' 0 8)])) ∧
    (ea.getLsbD 0 = false → s.mem.isPopulated ea = true → s.mem.isPopulated (ea + 1#32) = true →
      Completes (.sh rt imm rs) s
        (Stores [(ea, (s.readReg rt).extractLsb' 0 8), (ea + 1#32, (s.readReg rt).extractLsb' 8 8)])) ∧
    (ea.getLsbD 0 = true → Traps (.sh rt imm rs) s (.addressErrorStore ea)) ∧
    (ea.toNat % 4 = 0 → s.mem.isPopulated ea = true → s.mem.isPopulated (ea + 1#32) = true →
      s.mem.isPopulated (ea + 2#32) = true → s.mem.isPopulated (ea + 3#32) = true →
      Completes (.sw rt imm rs) s
        (Stores [(ea, (s.readReg rt).extractLsb' 0 8), (ea + 1#32, (s.readReg rt).extractLsb' 8 8),
          (ea + 2#32, (s.readReg rt).extractLsb' 16 8), (ea + 3#32, (s.readReg rt).extractLsb' 24 8)])) ∧
    (ea.toNat % 4 ≠ 0 → Traps (.sw rt imm rs) s (.addressErrorStore ea))

/-- swl stores the most significant bytes of Rt from EA down to the word boundary (R140). For all operands and every
well-formed state, with EA = x[rs] + sext(imm) = base + n, base a multiple of 4 and n in 0..3, and the bytes base..EA
populated: swl completes and stores exactly the n+1 most significant bytes R of x[rt]: R[31:24] at EA, the next ones
at the addresses below, down to base. Exactly those bytes change and are marked as stored, pc advances by 4, nothing
else changes. The word of the rule's encoding decodes to swl. -/
def Obligations.StoreWordLeftBytes : Prop :=
  ∀ (rt rs : RegNum) (imm : Imm) (s : State) (base : Word) (v : Word), s.wf = true → base.toNat % 4 = 0 →
    v = s.readReg rt →
    Decodes (immediateWord 0b101010 rs rt imm) (.swl rt imm rs) ∧
    (s.readReg rs + imm.signExtend 32 = base → s.mem.isPopulated base = true →
      Completes (.swl rt imm rs) s (Stores [(base, v.extractLsb' 24 8)])) ∧
    (s.readReg rs + imm.signExtend 32 = base + 1#32 → s.mem.isPopulated base = true →
      s.mem.isPopulated (base + 1#32) = true →
      Completes (.swl rt imm rs) s (Stores [(base, v.extractLsb' 16 8), (base + 1#32, v.extractLsb' 24 8)])) ∧
    (s.readReg rs + imm.signExtend 32 = base + 2#32 → s.mem.isPopulated base = true →
      s.mem.isPopulated (base + 1#32) = true → s.mem.isPopulated (base + 2#32) = true →
      Completes (.swl rt imm rs) s
        (Stores [(base, v.extractLsb' 8 8), (base + 1#32, v.extractLsb' 16 8), (base + 2#32, v.extractLsb' 24 8)])) ∧
    (s.readReg rs + imm.signExtend 32 = base + 3#32 → s.mem.isPopulated base = true →
      s.mem.isPopulated (base + 1#32) = true → s.mem.isPopulated (base + 2#32) = true →
      s.mem.isPopulated (base + 3#32) = true →
      Completes (.swl rt imm rs) s
        (Stores [(base, v.extractLsb' 0 8), (base + 1#32, v.extractLsb' 8 8), (base + 2#32, v.extractLsb' 16 8),
          (base + 3#32, v.extractLsb' 24 8)]))

/-- swr stores the least significant bytes of Rt from EA up to the end of the word (R142). For all operands and every
well-formed state, with EA = x[rs] + sext(imm) = base + n, base a multiple of 4 and n in 0..3, and the bytes
EA..base+3 populated: swr completes and stores exactly the 4-n least significant bytes R of x[rt]: R[7:0] at EA, the
next ones at the addresses above, up to base+3. Exactly those bytes change and are marked as stored, pc advances by 4,
nothing else changes. The word of the rule's encoding decodes to swr. -/
def Obligations.StoreWordRightBytes : Prop :=
  ∀ (rt rs : RegNum) (imm : Imm) (s : State) (base : Word) (v : Word), s.wf = true → base.toNat % 4 = 0 →
    v = s.readReg rt →
    Decodes (immediateWord 0b101110 rs rt imm) (.swr rt imm rs) ∧
    (s.readReg rs + imm.signExtend 32 = base → s.mem.isPopulated base = true →
      s.mem.isPopulated (base + 1#32) = true → s.mem.isPopulated (base + 2#32) = true →
      s.mem.isPopulated (base + 3#32) = true →
      Completes (.swr rt imm rs) s
        (Stores [(base, v.extractLsb' 0 8), (base + 1#32, v.extractLsb' 8 8), (base + 2#32, v.extractLsb' 16 8),
          (base + 3#32, v.extractLsb' 24 8)])) ∧
    (s.readReg rs + imm.signExtend 32 = base + 1#32 → s.mem.isPopulated (base + 1#32) = true →
      s.mem.isPopulated (base + 2#32) = true → s.mem.isPopulated (base + 3#32) = true →
      Completes (.swr rt imm rs) s
        (Stores [(base + 1#32, v.extractLsb' 0 8), (base + 2#32, v.extractLsb' 8 8), (base + 3#32, v.extractLsb' 16 8)])) ∧
    (s.readReg rs + imm.signExtend 32 = base + 2#32 → s.mem.isPopulated (base + 2#32) = true →
      s.mem.isPopulated (base + 3#32) = true →
      Completes (.swr rt imm rs) s (Stores [(base + 2#32, v.extractLsb' 0 8), (base + 3#32, v.extractLsb' 8 8)])) ∧
    (s.readReg rs + imm.signExtend 32 = base + 3#32 → s.mem.isPopulated (base + 3#32) = true →
      Completes (.swr rt imm rs) s (Stores [(base + 3#32, v.extractLsb' 0 8)]))

/-- swr Rt,0(a) and then swl Rt,3(a) store Rt little-endian at a..a+3 for any address a (R140, R142). For every
well-formed state, registers rt and rs, and any a = x[rs], aligned or not, whose four bytes a..a+3 (modulo 2^32) are
populated: executing swr rt,0(rs) and then swl rt,3(rs) completes, the four bytes read as the bytes of x[rt], least
significant first, every other address reads as before, and no register changes. -/
def Obligations.UnalignedStorePair : Prop :=
  ∀ (rt rs : RegNum) (s : State) (a v : Word), s.wf = true → s.readReg rs = a → s.readReg rt = v →
    s.mem.isPopulated a = true → s.mem.isPopulated (a + 1#32) = true → s.mem.isPopulated (a + 2#32) = true →
    s.mem.isPopulated (a + 3#32) = true →
    ∃ t u, exec (.swr rt 0#16 rs) s = .next t ∧ exec (.swl rt 3#16 rs) t = .next u ∧
      u.mem.read a = some (v.extractLsb' 0 8) ∧ u.mem.read (a + 1#32) = some (v.extractLsb' 8 8) ∧
      u.mem.read (a + 2#32) = some (v.extractLsb' 16 8) ∧ u.mem.read (a + 3#32) = some (v.extractLsb' 24 8) ∧
      (∀ b, b ≠ a → b ≠ a + 1#32 → b ≠ a + 2#32 → b ≠ a + 3#32 → u.mem.read b = s.mem.read b) ∧ SameRegs s u

/-- After sw, byte and halfword reads see its bytes in little-endian order, and sb into the word shows in a word read
(R55, R52, R53). For every well-formed state and all operands: after an sw of v that completes at EA, the machine's
byte reads at EA..EA+3 give v's bytes, least significant first, its halfword reads at EA and EA+2 give v[15:0] and
v[31:16], and its word read at EA gives v; and after a further store of a byte b to EA+1 the word read gives v with
bits 15:8 replaced by b. -/
def Obligations.MixedWidthReads : Prop :=
  ∀ (rt rs : RegNum) (imm : Imm) (s t : State) (ea v : Word), s.wf = true → ea = s.readReg rs + imm.signExtend 32 →
    v = s.readReg rt → exec (.sw rt imm rs) s = .next t → t.trap = s.trap → ea.toNat % 4 = 0 →
    t.readByte ea = .ok (v.extractLsb' 0 8) ∧ t.readByte (ea + 1#32) = .ok (v.extractLsb' 8 8) ∧
    t.readByte (ea + 2#32) = .ok (v.extractLsb' 16 8) ∧ t.readByte (ea + 3#32) = .ok (v.extractLsb' 24 8) ∧
    t.readHalf ea = .ok (v.extractLsb' 0 16) ∧ t.readHalf (ea + 2#32) = .ok (v.extractLsb' 16 16) ∧
    t.readWord ea = .ok v ∧
    ∀ b : Byte, (t.storeBytes [(ea + 1#32, b)]).readWord ea = .ok (v.extractLsb' 16 16 ++ b ++ v.extractLsb' 0 8)

/-- A load or store that passes its alignment check and touches an unpopulated byte is a MemoryFault (R62, R56, R58).
For every instruction and state: if the instruction passes its alignment check and some data byte it touches is not
populated, exec answers the fault MemoryFault(a) for an unpopulated byte a that it touches. (A fault has no next
state: nothing is written.) -/
def Obligations.UnpopulatedAccessFaults : Prop :=
  ∀ (i : Instr) (s : State), i.aligned s = true → (∃ a ∈ i.touchedAddresses s, s.mem.isPopulated a = false) →
    ∃ a ∈ i.touchedAddresses s, s.mem.isPopulated a = false ∧ exec i s = .fault (.memoryFault a)

/-- lui writes its immediate as the upper half; mfhi, mflo, mthi and mtlo copy between Hi, Lo and a general register
(R143, R144, R145, R146, R147). For all operands and every state: lui completes with imm :: 0^16 in x[rt], mfhi and
mflo with hi, respectively lo, in x[rd] (nothing, if that register is 0); mthi and mtlo complete with x[rs] in hi,
respectively lo, the other one unchanged; pc advances by 4 and nothing else changes. The words of the five rules'
encodings decode to these instructions. -/
def Obligations.LuiAndSpecialRegisterMoves : Prop :=
  ∀ (rd rs : RegNum) (imm : Imm) (s : State),
    (Decodes (immediateWord 0b001111 0b00000 rd imm) (.lui rd imm) ∧
      Decodes (registerWord 0b000000 0b00000 0b00000 rd 0b00000 0b010000) (.mfhi rd) ∧
      Decodes (registerWord 0b000000 rs 0b00000 0b00000 0b00000 0b010001) (.mthi rs) ∧
      Decodes (registerWord 0b000000 0b00000 0b00000 rd 0b00000 0b010010) (.mflo rd) ∧
      Decodes (registerWord 0b000000 rs 0b00000 0b00000 0b00000 0b010011) (.mtlo rs)) ∧
    Completes (.lui rd imm) s (WritesReg rd (imm.setWidth 32 <<< 16) (s.pc + 4#32)) ∧
    Completes (.mfhi rd) s (WritesReg rd s.hi (s.pc + 4#32)) ∧
    Completes (.mflo rd) s (WritesReg rd s.lo (s.pc + 4#32)) ∧
    Completes (.mthi rs) s (WritesHiLo (s.readReg rs) s.lo) ∧
    Completes (.mtlo rs) s (WritesHiLo s.hi (s.readReg rs))

/-- mfc0 and mtc0 copy between a general and a control register, or are refused under CP0_MODEL = refuse (R148, R149).
For all operands and every state: with CP0_MODEL = storage, mfc0 completes with cp0[cd] in x[rt] (nothing, if rt is
0), everything else unchanged but pc+4; mtc0 completes with x[rt] in cp0[cd], every other control register, every
general register, hi, lo, memory and the rest unchanged but pc+4. With CP0_MODEL = refuse both are refused. The words
of the two rules' encodings decode to these instructions. -/
def Obligations.ControlRegisterMoves : Prop :=
  ∀ (rt cd : RegNum) (s : State),
    (Decodes (registerWord 0b010000 0b00000 rt cd 0b00000 0b000000) (.mfc0 rt cd) ∧
      Decodes (registerWord 0b010000 0b00100 rt cd 0b00000 0b000000) (.mtc0 rt cd)) ∧
    (s.params.cp0Model = .storage →
      Completes (.mfc0 rt cd) s (WritesReg rt (s.readCp0 cd) (s.pc + 4#32)) ∧
      Completes (.mtc0 rt cd) s (fun s t => t.pc = s.pc + 4#32 ∧
        (∀ c, t.readCp0 c = if c = cd then s.readReg rt else s.readCp0 c) ∧
        SameRegs s t ∧ SameHiLo s t ∧ SameMem s t ∧ SameRest s t)) ∧
    (s.params.cp0Model = .refuse →
      exec (.mfc0 rt cd) s = .refused .cp0Refused ∧ exec (.mtc0 rt cd) s = .refused .cp0Refused)

/-- and, or, xor and nor act on each bit of their operands (R170, R171, R172, R173). For all operands and every state
and, or, xor and nor complete; bit k of the destination (nothing is written to register 0) is the conjunction,
disjunction, exclusive disjunction or negated disjunction of bits k of x[rs] and x[rt], for every k below 32; pc
advances by 4 and nothing else changes. The words of the four rules' encodings decode to these instructions. -/
def Obligations.BitwiseRegisterResults : Prop :=
  ∀ (rd rs rt : RegNum) (s : State),
    (Decodes (registerWord 0b000000 rs rt rd 0b00000 0b100100) (.and rd rs rt) ∧
      Decodes (registerWord 0b000000 rs rt rd 0b00000 0b100101) (.or rd rs rt) ∧
      Decodes (registerWord 0b000000 rs rt rd 0b00000 0b100110) (.xor rd rs rt) ∧
      Decodes (registerWord 0b000000 rs rt rd 0b00000 0b100111) (.nor rd rs rt)) ∧
    (∃ v, Completes (.and rd rs rt) s (WritesReg rd v (s.pc + 4#32)) ∧
      ∀ k < 32, v.getLsbD k = ((s.readReg rs).getLsbD k && (s.readReg rt).getLsbD k)) ∧
    (∃ v, Completes (.or rd rs rt) s (WritesReg rd v (s.pc + 4#32)) ∧
      ∀ k < 32, v.getLsbD k = ((s.readReg rs).getLsbD k || (s.readReg rt).getLsbD k)) ∧
    (∃ v, Completes (.xor rd rs rt) s (WritesReg rd v (s.pc + 4#32)) ∧
      ∀ k < 32, v.getLsbD k = ((s.readReg rs).getLsbD k ^^ (s.readReg rt).getLsbD k)) ∧
    (∃ v, Completes (.nor rd rs rt) s (WritesReg rd v (s.pc + 4#32)) ∧
      ∀ k < 32, v.getLsbD k = !((s.readReg rs).getLsbD k || (s.readReg rt).getLsbD k))

/-- andi, ori and xori act on the zero-extended immediate: the upper half is cleared or passes through (R178, R179,
R180). For all operands and every state andi, ori and xori complete; the lower 16 bits of the destination (nothing is
written to register 0) are those of x[rs] combined with imm bit by bit, the upper 16 bits are zero for andi and those
of x[rs] for ori and xori; pc advances by 4 and nothing else changes. The words of the three rules' encodings decode
to these instructions. -/
def Obligations.BitwiseImmediateResults : Prop :=
  ∀ (rt rs : RegNum) (imm : Imm) (s : State) (hi lo : BitVec 16), s.readReg rs = hi ++ lo →
    (Decodes (immediateWord 0b001100 rs rt imm) (.andi rt rs imm) ∧
      Decodes (immediateWord 0b001101 rs rt imm) (.ori rt rs imm) ∧
      Decodes (immediateWord 0b001110 rs rt imm) (.xori rt rs imm)) ∧
    Completes (.andi rt rs imm) s (WritesReg rt (0#16 ++ (lo &&& imm)) (s.pc + 4#32)) ∧
    Completes (.ori rt rs imm) s (WritesReg rt (hi ++ (lo ||| imm)) (s.pc + 4#32)) ∧
    Completes (.xori rt rs imm) s (WritesReg rt (hi ++ (lo ^^^ imm)) (s.pc + 4#32))

/-- slt, sltu and slti write 1 or 0 by the exact signed or unsigned comparison (R174, R175, R176). For all operands
and every state slt, sltu and slti complete with 1 in the destination if x[rs] is less than the operand (read as
signed integers for slt and slti, whose immediate is sign-extended, and as naturals for sltu), else 0 (nothing is
written to register 0), pc+4, and everything else unchanged. The words of the three rules' encodings decode to these
instructions. -/
def Obligations.ComparisonsWriteTruth : Prop :=
  ∀ (rd rs rt : RegNum) (imm : Imm) (s : State),
    (Decodes (registerWord 0b000000 rs rt rd 0b00000 0b101010) (.slt rd rs rt) ∧
      Decodes (registerWord 0b000000 rs rt rd 0b00000 0b101011) (.sltu rd rs rt) ∧
      Decodes (immediateWord 0b001010 rs rt imm) (.slti rt rs imm)) ∧
    Completes (.slt rd rs rt) s
      (WritesReg rd (if (s.readReg rs).toInt < (s.readReg rt).toInt then 1#32 else 0#32) (s.pc + 4#32)) ∧
    Completes (.sltu rd rs rt) s
      (WritesReg rd (if (s.readReg rs).toNat < (s.readReg rt).toNat then 1#32 else 0#32) (s.pc + 4#32)) ∧
    Completes (.slti rt rs imm) s
      (WritesReg rt (if (s.readReg rs).toInt < imm.toInt then 1#32 else 0#32) (s.pc + 4#32))

/-- sltiu compares unsigned with the immediate widened as SLTIU_IMM_EXT says; the settings agree when bit 15 is 0
(R177). For all operands and every state sltiu completes with 1 in x[rt] if x[rs], as a natural, is below the
immediate, else 0 (nothing is written to register 0), pc+4, everything else unchanged. The immediate is imm, 0..65535,
with SLTIU_IMM_EXT = zero; with sign it is imm if bit 15 is 0 and imm + 0xFFFF0000 if bit 15 is 1. The word of the
rule's encoding decodes to sltiu. -/
def Obligations.SltiuBothSettings : Prop :=
  ∀ (rt rs : RegNum) (imm : Imm) (s : State),
    Decodes (immediateWord 0b001011 rs rt imm) (.sltiu rt rs imm) ∧
    (s.params.sltiuImmExt = .zero ∨ imm.getLsbD 15 = false → Completes (.sltiu rt rs imm) s
      (WritesReg rt (if (s.readReg rs).toNat < imm.toNat then 1#32 else 0#32) (s.pc + 4#32))) ∧
    (s.params.sltiuImmExt = .sign → imm.getLsbD 15 = true → Completes (.sltiu rt rs imm) s
      (WritesReg rt (if (s.readReg rs).toNat < 0xFFFF0000 + imm.toNat then 1#32 else 0#32) (s.pc + 4#32)))

/-- sll, srl and sra by i bits multiply by 2^i, divide by 2^i, and divide by 2^i rounding down as signed (R200, R201,
R202). For all registers, every shift amount i in 0..31 and every state: sll completes with x[rt] * 2^i modulo 2^32 in
x[rd], srl with the natural quotient x[rt] / 2^i, sra with floor(signed(x[rt]) / 2^i) (nothing is written to register
0); pc advances by 4 and nothing else changes. The words of the three rules' encodings with i in bits 10:6 decode to
these instructions. -/
def Obligations.ConstantShifts : Prop :=
  ∀ (rd rt : RegNum) (i : Nat) (s : State), i < 32 →
    (Decodes (registerWord 0b000000 0b00000 rt rd (BitVec.ofNat 5 i) 0b000000) (.sll rd rt i) ∧
      Decodes (registerWord 0b000000 0b00000 rt rd (BitVec.ofNat 5 i) 0b000010) (.srl rd rt i) ∧
      Decodes (registerWord 0b000000 0b00000 rt rd (BitVec.ofNat 5 i) 0b000011) (.sra rd rt i)) ∧
    Completes (.sll rd rt i) s (WritesReg rd (BitVec.ofNat 32 ((s.readReg rt).toNat * 2 ^ i)) (s.pc + 4#32)) ∧
    Completes (.srl rd rt i) s (WritesReg rd (BitVec.ofNat 32 ((s.readReg rt).toNat / 2 ^ i)) (s.pc + 4#32)) ∧
    Completes (.sra rd rt i) s (WritesReg rd (BitVec.ofInt 32 ((s.readReg rt).toInt / 2 ^ i)) (s.pc + 4#32))

/-- sllv, srlv and srav shift by the low five bits of Rs and ignore the others (R203, R204, R205). For all registers
and every state, with n = x[rs] modulo 32: sllv completes with x[rt] * 2^n modulo 2^32 in x[rd], srlv with the natural
quotient x[rt] / 2^n, srav with floor(signed(x[rt]) / 2^n) (nothing is written to register 0); pc advances by 4 and
nothing else changes. The words of the three rules' encodings decode to these instructions. -/
def Obligations.VariableShifts : Prop :=
  ∀ (rd rt rs : RegNum) (s : State) (n : Nat), n = (s.readReg rs).toNat % 32 →
    (Decodes (registerWord 0b000000 rs rt rd 0b00000 0b000100) (.sllv rd rt rs) ∧
      Decodes (registerWord 0b000000 rs rt rd 0b00000 0b000110) (.srlv rd rt rs) ∧
      Decodes (registerWord 0b000000 rs rt rd 0b00000 0b000111) (.srav rd rt rs)) ∧
    Completes (.sllv rd rt rs) s (WritesReg rd (BitVec.ofNat 32 ((s.readReg rt).toNat * 2 ^ n)) (s.pc + 4#32)) ∧
    Completes (.srlv rd rt rs) s (WritesReg rd (BitVec.ofNat 32 ((s.readReg rt).toNat / 2 ^ n)) (s.pc + 4#32)) ∧
    Completes (.srav rd rt rs) s (WritesReg rd (BitVec.ofInt 32 ((s.readReg rt).toInt / 2 ^ n)) (s.pc + 4#32))

/-- beq, bne, blez, bgtz, bltz and bgez go to npc plus the word offset if the condition holds, else to npc (R221,
R222, R223, R224, R225, R226). For all operands and every state, with npc = pc + 4 and btarget = npc + (sext(imm) <<
2) modulo 2^32: each of the six branches completes with pc = btarget if its condition holds (equal; not equal; signed
x[rs] <= 0; > 0; < 0; >= 0) and pc = npc if not, and changes nothing else. The words of the six rules' encodings
decode to these instructions. -/
def Obligations.ConditionalBranches : Prop :=
  ∀ (rs rt : RegNum) (imm : Imm) (s : State) (npc btarget : Word), npc = s.pc + 4#32 →
    btarget = npc + (imm.signExtend 32 <<< 2) →
    (Decodes (immediateWord 0b000100 rs rt imm) (.beq rs rt imm) ∧ Decodes (immediateWord 0b000101 rs rt imm) (.bne rs rt imm) ∧
      Decodes (immediateWord 0b000110 rs 0b00000 imm) (.blez rs imm) ∧
      Decodes (immediateWord 0b000111 rs 0b00000 imm) (.bgtz rs imm) ∧
      Decodes (immediateWord 0b000001 rs 0b00000 imm) (.bltz rs imm) ∧
      Decodes (immediateWord 0b000001 rs 0b00001 imm) (.bgez rs imm)) ∧
    Completes (.beq rs rt imm) s (WritesPc (if s.readReg rs = s.readReg rt then btarget else npc)) ∧
    Completes (.bne rs rt imm) s (WritesPc (if s.readReg rs ≠ s.readReg rt then btarget else npc)) ∧
    Completes (.blez rs imm) s (WritesPc (if (s.readReg rs).toInt ≤ 0 then btarget else npc)) ∧
    Completes (.bgtz rs imm) s (WritesPc (if (s.readReg rs).toInt > 0 then btarget else npc)) ∧
    Completes (.bltz rs imm) s (WritesPc (if (s.readReg rs).toInt < 0 then btarget else npc)) ∧
    Completes (.bgez rs imm) s (WritesPc (if (s.readReg rs).toInt ≥ 0 then btarget else npc))

/-- bltzal and bgezal save npc in x[31] whether or not they branch, and test the old x[rs] (R227, R228). For all
operands and every state, with npc = pc + 4 and btarget = npc + (sext(imm) << 2) modulo 2^32: bltzal and bgezal
complete with x[31] = npc, pc = btarget if signed x[rs] of the state BEFORE the instruction is below zero (for bgezal:
not below zero) and pc = npc if not, and change nothing else; rs = 31 included. The words of the two rules' encodings
decode to these instructions. -/
def Obligations.LinkingBranches : Prop :=
  ∀ (rs : RegNum) (imm : Imm) (s : State) (npc btarget : Word), npc = s.pc + 4#32 →
    btarget = npc + (imm.signExtend 32 <<< 2) →
    (Decodes (immediateWord 0b000001 rs 0b10000 imm) (.bltzal rs imm) ∧
      Decodes (immediateWord 0b000001 rs 0b10001 imm) (.bgezal rs imm)) ∧
    Completes (.bltzal rs imm) s (WritesReg 31#5 npc (if (s.readReg rs).toInt < 0 then btarget else npc)) ∧
    Completes (.bgezal rs imm) s (WritesReg 31#5 npc (if (s.readReg rs).toInt ≥ 0 then btarget else npc))

/-- j and jal replace the low 28 bits of npc by the target shifted left two bits; jal saves npc in x[31] (R254, R255).
For every target and state, with npc = pc + 4: j completes with pc = npc[31:28] :: target :: 00 and nothing else
changed; jal completes with the same pc and x[31] = npc, and nothing else changed. The words of the two rules'
encodings decode to these instructions. -/
def Obligations.RegionJumps : Prop :=
  ∀ (target : Target) (s : State) (npc jtarget : Word), npc = s.pc + 4#32 →
    jtarget = (npc &&& 0xF0000000#32) ||| (target.setWidth 32 <<< 2) →
    Decodes (jumpWord 0b000010 target) (.j target) ∧ Decodes (jumpWord 0b000011 target) (.jal target) ∧
    Completes (.j target) s (WritesPc jtarget) ∧
    Completes (.jal target) s (WritesReg 31#5 npc jtarget)

/-- jr copies x[rs] to pc; jalr does so with the old x[rs] and saves npc in x[rd] (R250, R251). For all operands and
every state: jr completes with pc = x[rs], all 32 bits, misaligned or not, and nothing else changed; jalr completes
with pc = the value x[rs] had before, x[rd] = pc + 4 (nothing, if rd is 0), and nothing else changed; rd = rs
included. The words of the two rules' encodings decode to these instructions. -/
def Obligations.RegisterJumps : Prop :=
  ∀ (rd rs : RegNum) (s : State),
    Decodes (registerWord 0b000000 rs 0b00000 0b00000 0b00000 0b001000) (.jr rs) ∧
    Decodes (registerWord 0b000000 rs 0b00000 rd 0b00000 0b001001) (.jalr rd rs) ∧
    Completes (.jr rs) s (WritesPc (s.readReg rs)) ∧
    Completes (.jalr rd rs) s (WritesReg rd (s.pc + 4#32) (s.readReg rs))

/-- syscall takes the exception SystemCall, writes nothing and leaves pc; with the default EnvTrap the run then ends
with Exit (R252, R274, R276). In every state syscall takes the exception SystemCall: the next state is the same state
but for the pending trap, SystemCall with epc = pc. The word 0x0000000C decodes to syscall. With no scripted reply
(the default EnvTrap) the step after it ends the run with Exit. That the trap is handed over by a step of its own,
that Exit is coded as Outcome.fault, and the form of the environment are the model's choices, not the rules'
(notes/assumptions/7.md, 8.md and 9.md). -/
def Obligations.SyscallTakesSystemCall : Prop :=
  Decodes 0x0000000C#32 .syscall ∧
  ∀ s : State, Traps .syscall s .systemCall ∧
    (s.env = .scripted [] → step { s with trap := some { cause := .systemCall, epc := s.pc } } = .fault (.exit s.pc))

/-- A step runs the instruction whose bytes lie at pc (R27, R54). For every state with no pending trap whose pc is a
multiple of 4, whose four bytes at pc are populated, hold b0..b3 and are not marked as stored by the program: if the
word b3 :: b2 :: b1 :: b0 decodes to i, then step is exec of i in that state. -/
def Obligations.StepRunsDecodedInstruction : Prop :=
  ∀ (s : State) (i : Instr) (b0 b1 b2 b3 : Byte), s.trap = none → s.pc.toNat % 4 = 0 →
    s.mem.read s.pc = some b0 → s.mem.read (s.pc + 1#32) = some b1 → s.mem.read (s.pc + 2#32) = some b2 →
    s.mem.read (s.pc + 3#32) = some b3 → (∀ a ∈ fetchAddresses s.pc, a.toNat ∉ s.stored) →
    decode [b0, b1, b2, b3] = .ok (i, []) → step s = exec i s

/-- Before an instruction runs: misaligned pc, then unpopulated byte, then stored byte, then reserved word (R27, R28,
R57, R69, R272, R283). For every state with no pending trap: if pc is no multiple of 4, the step takes
AddressErrorFetch(pc) with nothing written; else if one of the bytes pc..pc+3 is not populated, it is the fault
MemoryFault(a) for such a byte a; else if one of them was stored by the program, it is refused, naming such a byte;
else, if the word w they hold decodes to no instruction, the step takes ReservedInstruction(w) with nothing written.
-/
def Obligations.FetchPriority : Prop :=
  ∀ s : State, s.trap = none →
    (s.pc.toNat % 4 ≠ 0 →
      step s = .next { s with trap := some { cause := .addressErrorFetch s.pc, epc := s.pc } }) ∧
    (s.pc.toNat % 4 = 0 → (∃ a ∈ fetchAddresses s.pc, s.mem.isPopulated a = false) →
      ∃ a ∈ fetchAddresses s.pc, s.mem.isPopulated a = false ∧ step s = .fault (.memoryFault a)) ∧
    (s.pc.toNat % 4 = 0 → (∀ a ∈ fetchAddresses s.pc, s.mem.isPopulated a = true) →
      (∃ a ∈ fetchAddresses s.pc, a.toNat ∈ s.stored) →
      ∃ a ∈ fetchAddresses s.pc, a.toNat ∈ s.stored ∧ step s = .refused (.storedFetch a)) ∧
    (∀ w, s.pc.toNat % 4 = 0 → s.readWord s.pc = .ok w → (∀ a ∈ fetchAddresses s.pc, a.toNat ∉ s.stored) →
      (∀ i, decodeWord w ≠ .ok i) →
      step s = .next { s with trap := some { cause := .reservedInstruction w, epc := s.pc } })

/-- A step that takes an exception changes nothing but the trap it hands over (R275). For every state with no pending
trap, if the step answers a next state with a trap, that state is the one before but for the trap, and the trap's epc
is pc: no general register, hi, lo, control register or byte of memory is written and pc is not advanced. That a step
which takes an exception answers a next state holding the trap, handed over by the following step, is the model's
choice (notes/assumptions/7.md). -/
def Obligations.TrapsArePrecise : Prop :=
  ∀ s t : State, s.trap = none → step s = .next t → t.trap ≠ none →
    ∃ e, t = { s with trap := some { cause := e, epc := s.pc } }

/-- Each exception is raised only by the instructions of its row, on the row's condition (R270, R271, R273, R281). For
every instruction i and every state s with no pending trap in which executing i takes an exception: IntegerOverflow
only by add, sub, addi when the exact signed result does not fit; AddressErrorLoad(EA) only by lh, lhu, lw failing
their alignment check, EA their effective address; AddressErrorStore(EA) only by sh, sw likewise; SystemCall only by
syscall; AddressErrorFetch and ReservedInstruction by no instruction (the fetch raises them). -/
def Obligations.WhoRaisesWhat : Prop :=
  ∀ (i : Instr) (s t : State) (e : Exception) (epc : Word), s.trap = none → exec i s = .next t →
    t.trap = some { cause := e, epc := epc } →
    match e with
    | .integerOverflow =>
      (∃ rd rs rt, i = .add rd rs rt ∧ ¬ FitsSigned ((s.readReg rs).toInt + (s.readReg rt).toInt)) ∨
      (∃ rd rs rt, i = .sub rd rs rt ∧ ¬ FitsSigned ((s.readReg rs).toInt - (s.readReg rt).toInt)) ∨
      (∃ rt rs imm, i = .addi rt rs imm ∧ ¬ FitsSigned ((s.readReg rs).toInt + imm.toInt))
    | .addressErrorLoad ea => ∃ rt imm rs, (i = .lh rt imm rs ∨ i = .lhu rt imm rs ∨ i = .lw rt imm rs) ∧
        i.aligned s = false ∧ ea = s.readReg rs + imm.signExtend 32
    | .addressErrorStore ea => ∃ rt imm rs, (i = .sh rt imm rs ∨ i = .sw rt imm rs) ∧
        i.aligned s = false ∧ ea = s.readReg rs + imm.signExtend 32
    | .systemCall => i = .syscall
    | .addressErrorFetch _ => False
    | .reservedInstruction _ => False

/-- Executing an instruction stops only for an unpopulated byte it touches or a control register under CP0_MODEL =
refuse (R276, R279, R285). For every instruction and state: if exec faults, the fault is MemoryFault(a) for an
unpopulated byte a the instruction touches; if exec refuses, the instruction is mfc0 or mtc0, CP0_MODEL is refuse, and
the refusal names that. In every other case exec answers a next state: ordinary data ends no run. -/
def Obligations.ExecStopsOnlyAsSpecSays : Prop :=
  ∀ (i : Instr) (s : State),
    (∀ f, exec i s = .fault f →
      ∃ a ∈ i.touchedAddresses s, s.mem.isPopulated a = false ∧ f = .memoryFault a) ∧
    (∀ r, exec i s = .refused r →
      r = .cp0Refused ∧ s.params.cp0Model = .refuse ∧ ∃ rt cd, i = .mfc0 rt cd ∨ i = .mtc0 rt cd)

/-- A pending trap that is not resumed ends the run: SystemCall well, any other badly, whatever the environment (R276,
R275). For every EnvTrap f and every state with a pending trap: if it is SystemCall and f ends the run, the step under
f ends the run with Exit at epc; if it is any other exception, the step under f ends the run with that trap, whatever
f answers. The machine's own step does so too: a SystemCall with no scripted reply (the default EnvTrap) is Exit, and
any other exception ends the run with its trap in every environment. That a trap is handed over by the step after the
one that took it, that the two ends are coded as Outcome.fault, and the form of the environment are the model's
choices (notes/assumptions/7.md, 8.md and 9.md). -/
def Obligations.TrapIsHandedToEnvironment : Prop :=
  ∀ (f : EnvTrap) (s : State) (t : Trap), s.trap = some t →
    (t.cause = .systemCall → f t s = none → stepUnder f s = .fault (.exit t.epc)) ∧
    (t.cause ≠ .systemCall → stepUnder f s = .fault (.badTrap t)) ∧
    (t.cause = .systemCall → s.env = .scripted [] → step s = .fault (.exit t.epc)) ∧
    (t.cause ≠ .systemCall → step s = .fault (.badTrap t))

/-- A resumed system call goes on in the state the environment's reply says: what it writes changes, and nothing else
(R276, R282). For every EnvTrap f, every state s and every pending SystemCall that f, given the trap and s, resumes
with a reply r: the step under f answers a next state with pc = r.pc and no pending trap, in which each general
register (register 0 reads zero), hi, lo, each control register and each byte at a populated address holds the last
value that r's writes give it, or what it held before if none does; the populated addresses, store marks, count of
draws and parameters do not change; a scripted reply is used up and a supplied environment stays; and a reply that
writes nothing changes nothing else. The clause on bytes is for memories in canonical form. The machine's own step is
the step under the environment its state names: the head of the list of scripted replies, or the open parameter
Config.envTrap, applied to the trap and the state. The form of EnvTrap, of its reply and of the two environments is
the model's choice (notes/assumptions/9.md), and so is the handing over by a step of its own (7.md). -/
def Obligations.EnvironmentResumesSystemCall : Prop :=
  (∀ s, step s = stepUnder State.answer s) ∧
  (∀ t s l, s.env = .scripted l → State.answer t s = l.head?) ∧
  (∀ t s, s.env = .supplied → State.answer t s = Config.envTrap t s) ∧
  ∀ (f : EnvTrap) (s : State) (t : Trap) (r : EnvReply), s.trap = some t → t.cause = .systemCall → f t s = some r →
    ∃ u, stepUnder f s = .next u ∧ u.pc = r.pc ∧ u.trap = none ∧
      (∀ q, u.readReg q = if q = 0#5 then 0#32 else lastOf (EnvWrite.onReg q) r.writes (s.readReg q)) ∧
      u.hi = lastOf EnvWrite.onHi r.writes s.hi ∧ u.lo = lastOf EnvWrite.onLo r.writes s.lo ∧
      (∀ c, u.readCp0 c = lastOf (EnvWrite.onCp0 c) r.writes (s.readCp0 c)) ∧
      (s.mem.wf = true → ∀ a, u.mem.read a = (s.mem.read a).map (lastOf (EnvWrite.onByte a) r.writes)) ∧
      (∀ a, u.mem.isPopulated a = s.mem.isPopulated a) ∧
      u.stored = s.stored ∧ u.draws = s.draws ∧ u.params = s.params ∧
      (∀ l, s.env = .scripted l → u.env = .scripted l.tail) ∧ (s.env = .supplied → u.env = .supplied) ∧
      (r.writes = [] → u = { s with pc := r.pc, trap := none, env := s.env.afterReply })

/-- A run ends well only at a SystemCall that is not resumed, in the state the syscall found but for the trap it took
(R276, R274). For every EnvTrap f, every number of steps n and every state s. If s is well-formed and the run from s
under f ends well, the state it ends in has a pending SystemCall whose epc is its pc, and f ends the run there; and if
the run ends with a trap as a fault, that trap is pending in the state it ends in, its epc is pc, and it is not
SystemCall. If no trap is pending in s and the run from s under f ends well, then within those steps it passed through
a state v with no pending trap in which the instruction fetched is syscall, and the state it ends in is v with the
trap SystemCall at v's pc, every register and byte as v has them. The machine's own run is the run under the
environment its state names. That a trap is a next state handed over by the following step, that ends are coded as
Outcome.fault, and the form of EnvTrap are the model's choices (notes/assumptions/7.md, 8.md and 9.md). -/
def Obligations.GoodEndIsSystemCall : Prop :=
  (∀ n s, runOutcome n s = runUnder State.answer n s) ∧
  ∀ (f : EnvTrap) (n : Nat) (s u : State),
    (s.wf = true →
      (runUnder f n s = .exit u →
        u.trap = some { cause := .systemCall, epc := u.pc } ∧ f { cause := .systemCall, epc := u.pc } u = none) ∧
      (∀ t, runUnder f n s = .fault t u → u.trap = some t ∧ t.epc = u.pc ∧ t.cause ≠ .systemCall)) ∧
    (s.trap = none → runUnder f n s = .exit u →
      ∃ m v, m < n ∧ runUnder f m s = .running v ∧ v.trap = none ∧ v.fetchInstr = .ok .syscall ∧
        u = { v with trap := some { cause := .systemCall, epc := v.pc } })

/-- Every step keeps the state well-formed (R21, R50, R69, R275). For every well-formed state (memory in canonical
form, store marks rising and on populated bytes, the slot of register 0 zero, a pending trap's epc equal to pc), if
the step answers a next state, that state is well-formed. The invariant is the model's own; it includes register 0
being zero and a trap leaving pc. -/
def Obligations.StepKeepsWellFormed : Prop :=
  ∀ s t : State, s.wf = true → step s = .next t → t.wf = true

/-- The reset state is well-formed, for every entry point, parameters and environment, and every canonical memory
(R300, R36). State.reset is well-formed, and so is the reset state for any ENTRY_PC, parameters and environment and
any memory in canonical form. The values State.reset takes for the open parameters are the model's choice
(notes/assumptions/1.md to 5.md); the statement holds for every choice. -/
def Obligations.ResetIsWellFormed : Prop :=
  State.reset.wf = true ∧
  ∀ (entry : Word) (m : Memory) (p : Config.Params) (env : Environment), m.wf = true →
    (State.resetWith entry m p env).wf = true

/-- Reset sets pc to ENTRY_PC, register 0 to zero, memory to its image, marks nothing, has no trap; a misaligned entry
traps (R300). For every ENTRY_PC, memory image, parameters and environment: the reset state has pc = ENTRY_PC, x[0] =
0, the given memory, no byte marked as stored by the program and no trap; and if ENTRY_PC is no multiple of 4 the
first step takes AddressErrorFetch(ENTRY_PC). The values of the registers the spec leaves unspecified are not stated.
-/
def Obligations.ResetState : Prop :=
  ∀ (entry : Word) (m : Memory) (p : Config.Params) (env : Environment),
    (State.resetWith entry m p env).pc = entry ∧ (State.resetWith entry m p env).readReg 0#5 = 0#32 ∧
    (State.resetWith entry m p env).mem = m ∧ (State.resetWith entry m p env).stored = [] ∧
    (State.resetWith entry m p env).trap = none ∧
    (entry.toNat % 4 ≠ 0 → step (State.resetWith entry m p env) =
      .next { State.resetWith entry m p env with trap := some { cause := .addressErrorFetch entry, epc := entry } })

/-- Register 0 reads zero after any write; every other register holds the last value written (R21). For every state,
write of v to register r and register q: afterwards q reads 0 if q is register 0, v if q is r, and what it read before
otherwise. -/
def Obligations.RegisterZeroIsHardwired : Prop :=
  ∀ (s : State) (r q : RegNum) (v : Word),
    (s.writeReg r v).readReg q = if q = 0#5 then 0#32 else if q = r then v else s.readReg q

/-- An instruction changes at most the one general register its row of the table names (R24). For every instruction i
and state s with exec i s = next t: every general register other than the one R24's table gives i (x[rd], x[rt], x[31]
or none) reads in t what it read in s. -/
def Obligations.OneGeneralRegisterWritten : Prop :=
  ∀ (i : Instr) (s t : State), exec i s = .next t → ∀ r, i.destReg ≠ some r → t.readReg r = s.readReg r

/-- hi and lo are written only by mult multu div divu mthi mtlo and read only by mfhi and mflo (R31). For every
instruction and state: an instruction other than the six, and a step that takes an exception, leaves hi and lo; mthi
leaves lo and mtlo leaves hi; and an instruction other than mfhi and mflo does the same, hi and lo apart, whatever hi
and lo hold: from the state with any other values h and l in them it answers a next state that differs from the one it
answers otherwise only in hi and lo, and each of those two is either the same in both or is left alone in both. -/
def Obligations.HiLoReadersAndWriters : Prop :=
  (∀ (i : Instr) (s t : State), exec i s = .next t →
    (i.writesHiLo = false ∨ t.trap ≠ s.trap → t.hi = s.hi ∧ t.lo = s.lo) ∧
    (∀ rs, i = .mthi rs → t.lo = s.lo) ∧ (∀ rs, i = .mtlo rs → t.hi = s.hi)) ∧
  ∀ (i : Instr) (s t : State) (h l : Word), (∀ rd, i ≠ .mfhi rd ∧ i ≠ .mflo rd) → exec i s = .next t →
    ∃ t', exec i { s with hi := h, lo := l } = .next t' ∧ t = { t' with hi := t.hi, lo := t.lo } ∧
      (t'.hi = t.hi ∨ t.hi = s.hi ∧ t'.hi = h) ∧ (t'.lo = t.lo ∨ t.lo = s.lo ∧ t'.lo = l)

/-- No trap and no instruction but mtc0 writes a control register, and mtc0 writes one (R277, R33). For every state s
with no pending trap whose step answers a next state t: if t has a trap, or the instruction fetched is not an mtc0,
every control register reads as before; if it is mtc0 to register c, every control register but c reads as before. -/
def Obligations.ControlRegistersOnlyByMtc0 : Prop :=
  ∀ s t : State, s.trap = none → step s = .next t →
    (t.trap ≠ none → SameCp0 s t) ∧
    (∀ i, s.fetchInstr = .ok i → (∀ rt c, i ≠ .mtc0 rt c) → SameCp0 s t) ∧
    (∀ rt c, s.fetchInstr = .ok (.mtc0 rt c) → ∀ d, d ≠ c → t.readCp0 d = s.readCp0 d)

/-- Memory changes only at the bytes an instruction stores, and those are then marked as stored (R58, R69). For every
instruction i and state s with exec i s = next t: every address that is not one of those i stores to reads as before
and keeps its store mark; the populated addresses are the same; and if no exception was taken, every address i stores
to is marked as stored by the program. -/
def Obligations.OnlyStoredBytesChange : Prop :=
  ∀ (i : Instr) (s t : State), exec i s = .next t →
    (∀ a, a ∉ i.storedAddresses s → t.mem.read a = s.mem.read a ∧ (a.toNat ∈ t.stored ↔ a.toNat ∈ s.stored)) ∧
    (∀ a, t.mem.isPopulated a = s.mem.isPopulated a) ∧
    (s.trap = none → t.trap = none → ∀ a ∈ i.storedAddresses s, a.toNat ∈ t.stored)

/-- An instruction that assigns no pc and takes no exception advances pc by 4 (R27, R29). For every instruction that
is not a branch or jump (R27's list) and every state with no pending trap: if executing it answers a next state
without a trap, pc has become pc + 4 modulo 2^32. -/
def Obligations.OthersAdvancePc : Prop :=
  ∀ (i : Instr) (s t : State), i.assignsPc = false → s.trap = none → exec i s = .next t → t.trap = none →
    t.pc = s.pc + 4#32

/-- From a pc that is a multiple of 4 only jr and jalr can lead to one that is not (R28, R220, R253). For every state
with no pending trap and pc a multiple of 4 whose step answers a next state: if the instruction executed is neither jr
nor jalr, the new pc is a multiple of 4. -/
def Obligations.OnlyRegisterJumpsMisalignPc : Prop :=
  ∀ s t : State, s.trap = none → s.pc.toNat % 4 = 0 → step s = .next t →
    (∀ i, s.fetchInstr = .ok i → (∀ rs, i ≠ .jr rs) ∧ ∀ rd rs, i ≠ .jalr rd rs) → t.pc.toNat % 4 = 0

/-- No step changes the parameters or the populated addresses, or clears a store mark (R37, R60, R69, R301). For every
state whose step answers a next state: the parameters are the same, every address is populated after exactly if it was
before, and every byte marked as stored by the program still is. So a fetch of a byte once stored stays refused. -/
def Obligations.ParametersAndMarksPersist : Prop :=
  ∀ s t : State, step s = .next t →
    t.params = s.params ∧ (∀ a, t.mem.isPopulated a = s.mem.isPopulated a) ∧ ∀ k ∈ s.stored, k ∈ t.stored

/-- Decoding the encoding of a well-formed instruction gives it back (R84, R88). For every instruction whose constant
shift amount, if it has one, is at most 31: the decoder answers that instruction on its encoding, with every operand
at every value the encoding admits. -/
def Obligations.DecodeOfEncode : Prop :=
  ∀ i : Instr, i.wellFormed = true → decodeWord (encode i) = .ok i

/-- A word that decodes is the encoding of what it decodes to, so every bit of it is a fixed bit or an operand bit
(R88, R89). For every word and instruction: if the decoder answers the instruction on the word, the instruction is
well-formed and its encoding is that word. -/
def Obligations.EncodeOfDecode : Prop :=
  ∀ (w : Word) (i : Instr), decodeWord w = .ok i → i.wellFormed = true ∧ encode i = w

/-- No word matches two rows of the opcode table (R84). For every word and any two of the 59 rows that both match it
(word & mask = match), the rows are the same row of the table: they have the same mnemonic. -/
def Obligations.OpcodeRowsDisjoint : Prop :=
  opcodeRows.length = 59 ∧
  ∀ w : Word, ∀ r ∈ opcodeRows, ∀ r' ∈ opcodeRows, r.hits w = true → r'.hits w = true → r.mnemonic = r'.mnemonic

/-- The words that decode to nothing are exactly those R93 lists (R93, R89). For every word: the decoder refuses it
exactly when its op-code is unlisted, or its op-code is 000000 and its function code unlisted, or its op-code is
000001 and its rt selector unlisted, or its op-code is 010000 and its rs selector unlisted or its bits 10:0 are not
all zero, or a fixed field of the instruction its op-code and selectors name does not hold what the source draws. -/
def Obligations.ReservedWordsAreR93s : Prop :=
  ∀ w : Word, (∃ e, decodeWord w = .error e) ↔ ReservedByR93 w

/-- One word of each family, written out bit by bit, decodes to the instruction it stands for; so do its four bytes
(R88, R54, R93). The words 0x00221823 (subu $3,$1,$2), 0xB8220009 (swr $2,9($1)), 0x2C22FFFF (sltiu $2,$1,0xFFFF),
0x00010FC3 (sra $1,$1,31), 0x04310002 (bgezal $1 by 2 words), 0x0C000404 (jal to word 0x404) decode to these
instructions, and 0x0000000D (the code real processors use for break) to none; the bytes 23 18 22 00, lowest address
first, decode to the first. -/
def Obligations.WrittenWordsDecode : Prop :=
  Decodes 0b00000000001000100001100000100011#32 (.subu 3#5 1#5 2#5) ∧
  Decodes 0b10111000001000100000000000001001#32 (.swr 2#5 9#16 1#5) ∧
  Decodes 0b00101100001000101111111111111111#32 (.sltiu 2#5 1#5 0xFFFF#16) ∧
  Decodes 0b00000000000000010000111111000011#32 (.sra 1#5 1#5 31) ∧
  Decodes 0b00000100001100010000000000000010#32 (.bgezal 1#5 2#16) ∧
  Decodes 0b00001100000000000000010000000100#32 (.jal 0x404#26) ∧
  (∀ i, ¬ Decodes 0b00000000000000000000000000001101#32 i) ∧
  decode [0x23, 0x18, 0x22, 0x00] = .ok (.subu 3#5 1#5 2#5, [])

/-- The all-zero word is sll $0,$0,0, which changes nothing but pc (R90). The word 0x00000000 decodes to sll with rd =
0, rt = 0 and shift amount 0, and in every state that instruction completes with pc + 4 and nothing else changed. -/
def Obligations.ZeroWordDoesNothing : Prop :=
  Decodes 0x00000000#32 (.sll 0#5 0#5 0) ∧ ∀ s : State, Completes (.sll 0#5 0#5 0) s (WritesPc (s.pc + 4#32))

/-- The word placed by withFetchWord is the one the next step runs (R27, R54). withFetchWord is the model's own
(notes/assumptions/15.md). For every state whose memory is in canonical form, and every number w whose low 32 bits
decode to i: the step from the state with w placed is exec of i in that state; placing changes no register, and no
byte of memory outside the four of the word at pc. -/
def Obligations.PlacedWordRunsNext : Prop :=
  ∀ (s : State) (w : Nat) (i : Instr), s.mem.wf = true → decodeWord (BitVec.ofNat 32 w) = .ok i →
    step (s.withFetchWord 32 w) = exec i (s.withFetchWord 32 w) ∧
    SameRegs s (s.withFetchWord 32 w) ∧ SameHiLo s (s.withFetchWord 32 w) ∧ SameCp0 s (s.withFetchWord 32 w) ∧
    (s.pc.toNat % 4 = 0 → (s.withFetchWord 32 w).pc = s.pc) ∧
    (∀ a, a ∉ fetchAddresses (s.withFetchWord 32 w).pc → (s.withFetchWord 32 w).mem.read a = s.mem.read a)

/-- The expansions of the 19 pseudo-instructions put the stated value in the destination, or branch exactly when their
sentence says (R97, R150, R151, R152, spec/42_logical.md, R181 to R188, R206, R207, spec/44_branch.md, R229 to R234).
The expansions are conventional, not the source's (notes/assumptions/16.md). For every pseudo-instruction with no
operand register $at and every state with no pending trap. If it puts a value in a register other than $at: executing
its expansion answers a next state with the stated value in that register (nothing, if it is register 0), every other
general register but $at unchanged, and pc past the expansion; the one case left out is neg of 0x80000000, which takes
IntegerOverflow at the address of its sub and writes nothing. If it is a branch (beqz, bge, bgt, ble, blt, bnez),
executing its expansion answers a next state with every general register but $at unchanged, and pc past the expansion
if the comparison of its sentence, signed where it compares two registers, is false, and the branch's word offset
further if it is true. In both cases hi, lo, the control registers and memory are unchanged. -/
def Obligations.PseudoExpansionsAchieveMeaning : Prop :=
  (∀ (p : Pseudo) (s : State) (rd : RegNum) (v : Word), s.trap = none → p.effect s = .value rd v → rd ≠ scratchReg →
    p.avoidsScratch = true →
    (∀ rs, p = .neg rd rs → s.readReg rs ≠ 0x80000000#32) →
    ∃ t, execAll p.expand s = .next t ∧ t.pc = s.pc + BitVec.ofNat 32 (4 * p.expand.length) ∧
      (rd ≠ 0#5 → t.readReg rd = v) ∧
      (∀ r, r ≠ rd → r ≠ scratchReg → t.readReg r = s.readReg r) ∧ SameHiLo s t ∧ SameCp0 s t ∧ SameMem s t ∧ SameRest s t) ∧
  (∀ (rd rs : RegNum) (s : State), s.readReg rs = 0x80000000#32 →
    execAll (Pseudo.neg rd rs).expand s =
      .next { s with trap := some { cause := .integerOverflow, epc := s.pc } }) ∧
  ∀ (p : Pseudo) (s : State) (taken : Bool) (offset : Imm), s.trap = none → p.effect s = .branch taken →
    p.branchOffset = some offset → p.avoidsScratch = true →
    ∃ t, execAll p.expand s = .next t ∧
      t.pc = s.pc + BitVec.ofNat 32 (4 * p.expand.length) + (if taken then offset.signExtend 32 <<< 2 else 0#32) ∧
      (∀ r, r ≠ scratchReg → t.readReg r = s.readReg r) ∧ SameHiLo s t ∧ SameCp0 s t ∧ SameMem s t ∧ SameRest s t

/-- The fields an assembler stores for a branch or jump target lead back to that target (R95, R220, R253). For all
addresses a and addr: if the assembler accepts addr as the target of a branch at a and stores the field f, the branch
target computed from a and f is addr; and likewise for j and jal. The assembler accepts every aligned target in the
ranges the rules give: -131072..131068 from a + 4 for a branch, the same 256MB region as a + 4 for a jump. -/
def Obligations.AssembledTargetsAreReached : Prop :=
  ∀ a addr : Word,
    (∀ f, branchField a addr = some f → branchTarget a f = addr) ∧
    (∀ f, jumpField a addr = some f → jumpTarget a f = addr) ∧
    (∀ k : Int, -32768 ≤ k → k ≤ 32767 → addr = a + 4#32 + BitVec.ofInt 32 (4 * k) → (branchField a addr).isSome = true) ∧
    (addr.toNat % 4 = 0 → addr.toNat / 2 ^ 28 = (a + 4#32).toNat / 2 ^ 28 → (jumpField a addr).isSome = true)
end

