-- ==== Sys2Proof/Laws/Encoding.lean ====
section
/-! SUPPORT. What the fields of an encoded word are, and what a row's mask leaves of it. -/

namespace Sys2Proof

/-! ## Fields of the three formats (R81, R82, R83) -/

section Register

variable (op : BitVec 6) (rs rt rd sh : BitVec 5) (fn : BitVec 6)

@[simp] theorem fieldOp_registerWord : fieldOp (registerWord op rs rt rd sh fn) = op := by
  ext i hi; simp [fieldOp, registerWord]; grind

@[simp] theorem fieldRs_registerWord : fieldRs (registerWord op rs rt rd sh fn) = rs := by
  ext i hi; simp [fieldRs, registerWord]; grind

@[simp] theorem fieldRt_registerWord : fieldRt (registerWord op rs rt rd sh fn) = rt := by
  ext i hi; simp [fieldRt, registerWord]; grind

@[simp] theorem fieldRd_registerWord : fieldRd (registerWord op rs rt rd sh fn) = rd := by
  ext i hi; simp [fieldRd, registerWord]; grind

@[simp] theorem fieldShamt_registerWord : fieldShamt (registerWord op rs rt rd sh fn) = sh.toNat := by
  unfold fieldShamt
  congr 1
  ext i hi; simp [registerWord]; grind

@[simp] theorem fieldFunct_registerWord : fieldFunct (registerWord op rs rt rd sh fn) = fn := by
  ext i hi; simp [fieldFunct, registerWord]; grind

end Register

section ImmediateAndJump

variable (op : BitVec 6) (rs rt : BitVec 5) (imm : Imm) (target : Target)

@[simp] theorem fieldOp_immediateWord : fieldOp (immediateWord op rs rt imm) = op := by
  ext i hi; simp [fieldOp, immediateWord]; grind

@[simp] theorem fieldRs_immediateWord : fieldRs (immediateWord op rs rt imm) = rs := by
  ext i hi; simp [fieldRs, immediateWord]; grind

@[simp] theorem fieldRt_immediateWord : fieldRt (immediateWord op rs rt imm) = rt := by
  ext i hi; simp [fieldRt, immediateWord]; grind

@[simp] theorem fieldImm_immediateWord : fieldImm (immediateWord op rs rt imm) = imm := by
  ext i hi; simp [fieldImm, immediateWord]; grind

@[simp] theorem fieldOp_jumpWord : fieldOp (jumpWord op target) = op := by
  ext i hi; simp [fieldOp, jumpWord]; grind

@[simp] theorem fieldTarget_jumpWord : fieldTarget (jumpWord op target) = target := by
  ext i hi; simp [fieldTarget, jumpWord]; grind

end ImmediateAndJump

/-! ## A word from its fields -/

/-- A word is the Register-format word of its own fields. -/
theorem registerWord_fields (w : Word) :
    registerWord (fieldOp w) (fieldRs w) (fieldRt w) (fieldRd w) (w.extractLsb' 6 5) (fieldFunct w) = w := by
  ext i hi; simp [registerWord, fieldOp, fieldRs, fieldRt, fieldRd, fieldFunct]; grind

/-- A word is the Immediate-format word of its own fields. -/
theorem immediateWord_fields (w : Word) : immediateWord (fieldOp w) (fieldRs w) (fieldRt w) (fieldImm w) = w := by
  ext i hi; simp [immediateWord, fieldOp, fieldRs, fieldRt, fieldImm]; grind

/-- A word is the Jump-format word of its own fields. -/
theorem jumpWord_fields (w : Word) : jumpWord (fieldOp w) (fieldTarget w) = w := by
  ext i hi; simp [jumpWord, fieldOp, fieldTarget]; grind

/-! ## Masks, field by field (R89) -/

/-- A mask acts on each field of a Register-format word. -/
theorem registerWord_and (op op' : BitVec 6) (rs rs' rt rt' rd rd' sh sh' : BitVec 5) (fn fn' : BitVec 6) :
    registerWord op rs rt rd sh fn &&& registerWord op' rs' rt' rd' sh' fn' =
      registerWord (op &&& op') (rs &&& rs') (rt &&& rt') (rd &&& rd') (sh &&& sh') (fn &&& fn') := by
  ext i hi; simp [registerWord]; grind

/-- A mask acts on each field of an Immediate-format word. -/
theorem immediateWord_and (op op' : BitVec 6) (rs rs' rt rt' : BitVec 5) (imm imm' : Imm) :
    immediateWord op rs rt imm &&& immediateWord op' rs' rt' imm' =
      immediateWord (op &&& op') (rs &&& rs') (rt &&& rt') (imm &&& imm') := by
  ext i hi; simp [immediateWord]; grind

/-- A mask acts on each field of a Jump-format word. -/
theorem jumpWord_and (op op' : BitVec 6) (target target' : Target) :
    jumpWord op target &&& jumpWord op' target' = jumpWord (op &&& op') (target &&& target') := by
  ext i hi; simp [jumpWord]; grind

theorem registerWord_inj {op op' : BitVec 6} {rs rs' rt rt' rd rd' sh sh' : BitVec 5} {fn fn' : BitVec 6} :
    registerWord op rs rt rd sh fn = registerWord op' rs' rt' rd' sh' fn' ↔
      op = op' ∧ rs = rs' ∧ rt = rt' ∧ rd = rd' ∧ sh = sh' ∧ fn = fn' := by
  constructor
  · intro h
    refine ⟨?_, ?_, ?_, ?_, BitVec.eq_of_toNat_eq ?_, ?_⟩
    · simpa using congrArg fieldOp h
    · simpa using congrArg fieldRs h
    · simpa using congrArg fieldRt h
    · simpa using congrArg fieldRd h
    · simpa using congrArg fieldShamt h
    · simpa using congrArg fieldFunct h
  · rintro ⟨rfl, rfl, rfl, rfl, rfl, rfl⟩; rfl

theorem immediateWord_inj {op op' : BitVec 6} {rs rs' rt rt' : BitVec 5} {imm imm' : Imm} :
    immediateWord op rs rt imm = immediateWord op' rs' rt' imm' ↔ op = op' ∧ rs = rs' ∧ rt = rt' ∧ imm = imm' := by
  constructor
  · intro h
    refine ⟨?_, ?_, ?_, ?_⟩
    · simpa using congrArg fieldOp h
    · simpa using congrArg fieldRs h
    · simpa using congrArg fieldRt h
    · simpa using congrArg fieldImm h
  · rintro ⟨rfl, rfl, rfl, rfl⟩; rfl

theorem jumpWord_inj {op op' : BitVec 6} {target target' : Target} :
    jumpWord op target = jumpWord op' target' ↔ op = op' ∧ target = target' := by
  constructor
  · intro h
    exact ⟨by simpa using congrArg fieldOp h, by simpa using congrArg fieldTarget h⟩
  · rintro ⟨rfl, rfl⟩; rfl

/-- The fields of a mask or pattern that a row of the Register format is read by. -/
theorem registerRow_hits (op op' : BitVec 6) (rs rs' rt rt' rd rd' sh sh' : BitVec 5) (fn fn' : BitVec 6) (w : Word) :
    w &&& registerWord op' rs' rt' rd' sh' fn' = registerWord op rs rt rd sh fn ↔
      fieldOp w &&& op' = op ∧ fieldRs w &&& rs' = rs ∧ fieldRt w &&& rt' = rt ∧ fieldRd w &&& rd' = rd ∧
        w.extractLsb' 6 5 &&& sh' = sh ∧ fieldFunct w &&& fn' = fn := by
  conv_lhs => rw [← registerWord_fields w]
  rw [registerWord_and, registerWord_inj]

/-- The fields of a mask or pattern that a row of the Immediate format is read by. -/
theorem immediateRow_hits (op op' : BitVec 6) (rs rs' rt rt' : BitVec 5) (imm imm' : Imm) (w : Word) :
    w &&& immediateWord op' rs' rt' imm' = immediateWord op rs rt imm ↔
      fieldOp w &&& op' = op ∧ fieldRs w &&& rs' = rs ∧ fieldRt w &&& rt' = rt ∧ fieldImm w &&& imm' = imm := by
  conv_lhs => rw [← immediateWord_fields w]
  rw [immediateWord_and, immediateWord_inj]

/-- A shift amount that fits its field is read back as it was (R87). -/
theorem shamt_toNat {n : Nat} (h : n < 32) : (BitVec.ofNat 5 n).toNat = n := by
  rw [BitVec.toNat_ofNat, Nat.mod_eq_of_lt (by omega)]

end Sys2Proof
end

