-- ==== Sys2Proof/Laws/State.lean ====
section
/-! SUPPORT. One lemma per field per update of the state, so that no later proof unfolds a record update. -/

namespace Sys2Proof.Machine

/-! ## Fields after an update -/

@[simp] theorem State.writeReg_pc (s : State) (r : RegNum) (v : Word) : (s.writeReg r v).pc = s.pc := by
  unfold State.writeReg; split <;> rfl

@[simp] theorem State.writeReg_hi (s : State) (r : RegNum) (v : Word) : (s.writeReg r v).hi = s.hi := by
  unfold State.writeReg; split <;> rfl

@[simp] theorem State.writeReg_lo (s : State) (r : RegNum) (v : Word) : (s.writeReg r v).lo = s.lo := by
  unfold State.writeReg; split <;> rfl

@[simp] theorem State.writeReg_cp0 (s : State) (r : RegNum) (v : Word) : (s.writeReg r v).cp0 = s.cp0 := by
  unfold State.writeReg; split <;> rfl

@[simp] theorem State.writeReg_mem (s : State) (r : RegNum) (v : Word) : (s.writeReg r v).mem = s.mem := by
  unfold State.writeReg; split <;> rfl

@[simp] theorem State.writeReg_stored (s : State) (r : RegNum) (v : Word) : (s.writeReg r v).stored = s.stored := by
  unfold State.writeReg; split <;> rfl

@[simp] theorem State.writeReg_trap (s : State) (r : RegNum) (v : Word) : (s.writeReg r v).trap = s.trap := by
  unfold State.writeReg; split <;> rfl

@[simp] theorem State.writeReg_env (s : State) (r : RegNum) (v : Word) : (s.writeReg r v).env = s.env := by
  unfold State.writeReg; split <;> rfl

@[simp] theorem State.writeReg_draws (s : State) (r : RegNum) (v : Word) : (s.writeReg r v).draws = s.draws := by
  unfold State.writeReg; split <;> rfl

@[simp] theorem State.writeReg_params (s : State) (r : RegNum) (v : Word) : (s.writeReg r v).params = s.params := by
  unfold State.writeReg; split <;> rfl

@[simp] theorem State.link_pc (s : State) (r : RegNum) : (s.link r).pc = s.pc := by
  unfold State.link; simp

@[simp] theorem State.link_hi (s : State) (r : RegNum) : (s.link r).hi = s.hi := by
  unfold State.link; simp

@[simp] theorem State.link_lo (s : State) (r : RegNum) : (s.link r).lo = s.lo := by
  unfold State.link; simp

@[simp] theorem State.link_cp0 (s : State) (r : RegNum) : (s.link r).cp0 = s.cp0 := by
  unfold State.link; simp

@[simp] theorem State.link_mem (s : State) (r : RegNum) : (s.link r).mem = s.mem := by
  unfold State.link; simp

@[simp] theorem State.link_stored (s : State) (r : RegNum) : (s.link r).stored = s.stored := by
  unfold State.link; simp

@[simp] theorem State.link_trap (s : State) (r : RegNum) : (s.link r).trap = s.trap := by
  unfold State.link; simp

@[simp] theorem State.link_env (s : State) (r : RegNum) : (s.link r).env = s.env := by
  unfold State.link; simp

@[simp] theorem State.link_draws (s : State) (r : RegNum) : (s.link r).draws = s.draws := by
  unfold State.link; simp

@[simp] theorem State.link_params (s : State) (r : RegNum) : (s.link r).params = s.params := by
  unfold State.link; simp

@[simp] theorem State.writeHiLo_x (s : State) (h l : Word) : (s.writeHiLo h l).x = s.x := rfl

@[simp] theorem State.writeHiLo_pc (s : State) (h l : Word) : (s.writeHiLo h l).pc = s.pc := rfl

@[simp] theorem State.writeHiLo_hi (s : State) (h l : Word) : (s.writeHiLo h l).hi = h := rfl

@[simp] theorem State.writeHiLo_lo (s : State) (h l : Word) : (s.writeHiLo h l).lo = l := rfl

@[simp] theorem State.writeHiLo_cp0 (s : State) (h l : Word) : (s.writeHiLo h l).cp0 = s.cp0 := rfl

@[simp] theorem State.writeHiLo_mem (s : State) (h l : Word) : (s.writeHiLo h l).mem = s.mem := rfl

@[simp] theorem State.writeHiLo_stored (s : State) (h l : Word) : (s.writeHiLo h l).stored = s.stored := rfl

@[simp] theorem State.writeHiLo_trap (s : State) (h l : Word) : (s.writeHiLo h l).trap = s.trap := rfl

@[simp] theorem State.writeHiLo_env (s : State) (h l : Word) : (s.writeHiLo h l).env = s.env := rfl

@[simp] theorem State.writeHiLo_draws (s : State) (h l : Word) : (s.writeHiLo h l).draws = s.draws := rfl

@[simp] theorem State.writeHiLo_params (s : State) (h l : Word) : (s.writeHiLo h l).params = s.params := rfl

@[simp] theorem State.writeCp0_x (s : State) (c : RegNum) (v : Word) : (s.writeCp0 c v).x = s.x := rfl

@[simp] theorem State.writeCp0_pc (s : State) (c : RegNum) (v : Word) : (s.writeCp0 c v).pc = s.pc := rfl

@[simp] theorem State.writeCp0_hi (s : State) (c : RegNum) (v : Word) : (s.writeCp0 c v).hi = s.hi := rfl

@[simp] theorem State.writeCp0_lo (s : State) (c : RegNum) (v : Word) : (s.writeCp0 c v).lo = s.lo := rfl

@[simp] theorem State.writeCp0_mem (s : State) (c : RegNum) (v : Word) : (s.writeCp0 c v).mem = s.mem := rfl

@[simp] theorem State.writeCp0_stored (s : State) (c : RegNum) (v : Word) : (s.writeCp0 c v).stored = s.stored := rfl

@[simp] theorem State.writeCp0_trap (s : State) (c : RegNum) (v : Word) : (s.writeCp0 c v).trap = s.trap := rfl

@[simp] theorem State.writeCp0_env (s : State) (c : RegNum) (v : Word) : (s.writeCp0 c v).env = s.env := rfl

@[simp] theorem State.writeCp0_draws (s : State) (c : RegNum) (v : Word) : (s.writeCp0 c v).draws = s.draws := rfl

@[simp] theorem State.writeCp0_params (s : State) (c : RegNum) (v : Word) : (s.writeCp0 c v).params = s.params := rfl

@[simp] theorem State.advance_x (s : State) : (s.advance).x = s.x := rfl

@[simp] theorem State.advance_pc (s : State) : (s.advance).pc = incremented s.pc := rfl

@[simp] theorem State.advance_hi (s : State) : (s.advance).hi = s.hi := rfl

@[simp] theorem State.advance_lo (s : State) : (s.advance).lo = s.lo := rfl

@[simp] theorem State.advance_cp0 (s : State) : (s.advance).cp0 = s.cp0 := rfl

@[simp] theorem State.advance_mem (s : State) : (s.advance).mem = s.mem := rfl

@[simp] theorem State.advance_stored (s : State) : (s.advance).stored = s.stored := rfl

@[simp] theorem State.advance_trap (s : State) : (s.advance).trap = s.trap := rfl

@[simp] theorem State.advance_env (s : State) : (s.advance).env = s.env := rfl

@[simp] theorem State.advance_draws (s : State) : (s.advance).draws = s.draws := rfl

@[simp] theorem State.advance_params (s : State) : (s.advance).params = s.params := rfl

@[simp] theorem State.jumpTo_x (s : State) (t : Word) : (s.jumpTo t).x = s.x := rfl

@[simp] theorem State.jumpTo_pc (s : State) (t : Word) : (s.jumpTo t).pc = t := rfl

@[simp] theorem State.jumpTo_hi (s : State) (t : Word) : (s.jumpTo t).hi = s.hi := rfl

@[simp] theorem State.jumpTo_lo (s : State) (t : Word) : (s.jumpTo t).lo = s.lo := rfl

@[simp] theorem State.jumpTo_cp0 (s : State) (t : Word) : (s.jumpTo t).cp0 = s.cp0 := rfl

@[simp] theorem State.jumpTo_mem (s : State) (t : Word) : (s.jumpTo t).mem = s.mem := rfl

@[simp] theorem State.jumpTo_stored (s : State) (t : Word) : (s.jumpTo t).stored = s.stored := rfl

@[simp] theorem State.jumpTo_trap (s : State) (t : Word) : (s.jumpTo t).trap = s.trap := rfl

@[simp] theorem State.jumpTo_env (s : State) (t : Word) : (s.jumpTo t).env = s.env := rfl

@[simp] theorem State.jumpTo_draws (s : State) (t : Word) : (s.jumpTo t).draws = s.draws := rfl

@[simp] theorem State.jumpTo_params (s : State) (t : Word) : (s.jumpTo t).params = s.params := rfl

@[simp] theorem State.drawHiLo_x (s : State) : (s.drawHiLo).x = s.x := rfl

@[simp] theorem State.drawHiLo_pc (s : State) : (s.drawHiLo).pc = s.pc := rfl

@[simp] theorem State.drawHiLo_hi (s : State) : (s.drawHiLo).hi = Config.any32 (s.draws + 1) := rfl

@[simp] theorem State.drawHiLo_lo (s : State) : (s.drawHiLo).lo = Config.any32 s.draws := rfl

@[simp] theorem State.drawHiLo_cp0 (s : State) : (s.drawHiLo).cp0 = s.cp0 := rfl

@[simp] theorem State.drawHiLo_mem (s : State) : (s.drawHiLo).mem = s.mem := rfl

@[simp] theorem State.drawHiLo_stored (s : State) : (s.drawHiLo).stored = s.stored := rfl

@[simp] theorem State.drawHiLo_trap (s : State) : (s.drawHiLo).trap = s.trap := rfl

@[simp] theorem State.drawHiLo_env (s : State) : (s.drawHiLo).env = s.env := rfl

@[simp] theorem State.drawHiLo_draws (s : State) : (s.drawHiLo).draws = s.draws + 2 := rfl

@[simp] theorem State.drawHiLo_params (s : State) : (s.drawHiLo).params = s.params := rfl

@[simp] theorem State.divOverflow_x (s : State) : (s.divOverflow).x = s.x := by
  unfold State.divOverflow; split <;> rfl

@[simp] theorem State.divOverflow_pc (s : State) : (s.divOverflow).pc = s.pc := by
  unfold State.divOverflow; split <;> rfl

@[simp] theorem State.divOverflow_cp0 (s : State) : (s.divOverflow).cp0 = s.cp0 := by
  unfold State.divOverflow; split <;> rfl

@[simp] theorem State.divOverflow_mem (s : State) : (s.divOverflow).mem = s.mem := by
  unfold State.divOverflow; split <;> rfl

@[simp] theorem State.divOverflow_stored (s : State) : (s.divOverflow).stored = s.stored := by
  unfold State.divOverflow; split <;> rfl

@[simp] theorem State.divOverflow_trap (s : State) : (s.divOverflow).trap = s.trap := by
  unfold State.divOverflow; split <;> rfl

@[simp] theorem State.divOverflow_env (s : State) : (s.divOverflow).env = s.env := by
  unfold State.divOverflow; split <;> rfl

@[simp] theorem State.divOverflow_params (s : State) : (s.divOverflow).params = s.params := by
  unfold State.divOverflow; split <;> rfl

@[simp] theorem State.storeByte_x (s : State) (a : Word) (b : Byte) : (s.storeByte a b).x = s.x := rfl

@[simp] theorem State.storeByte_pc (s : State) (a : Word) (b : Byte) : (s.storeByte a b).pc = s.pc := rfl

@[simp] theorem State.storeByte_hi (s : State) (a : Word) (b : Byte) : (s.storeByte a b).hi = s.hi := rfl

@[simp] theorem State.storeByte_lo (s : State) (a : Word) (b : Byte) : (s.storeByte a b).lo = s.lo := rfl

@[simp] theorem State.storeByte_cp0 (s : State) (a : Word) (b : Byte) : (s.storeByte a b).cp0 = s.cp0 := rfl

@[simp] theorem State.storeByte_mem (s : State) (a : Word) (b : Byte) : (s.storeByte a b).mem = s.mem.write a b := rfl

@[simp] theorem State.storeByte_stored (s : State) (a : Word) (b : Byte) : (s.storeByte a b).stored = addMark s.stored a.toNat := rfl

@[simp] theorem State.storeByte_trap (s : State) (a : Word) (b : Byte) : (s.storeByte a b).trap = s.trap := rfl

@[simp] theorem State.storeByte_env (s : State) (a : Word) (b : Byte) : (s.storeByte a b).env = s.env := rfl

@[simp] theorem State.storeByte_draws (s : State) (a : Word) (b : Byte) : (s.storeByte a b).draws = s.draws := rfl

@[simp] theorem State.storeByte_params (s : State) (a : Word) (b : Byte) : (s.storeByte a b).params = s.params := rfl

@[simp] theorem State.storeBytes_x (s : State) (l : List (Word × Byte)) : (s.storeBytes l).x = s.x := by
  induction l generalizing s with
  | nil => rfl
  | cons p rest ih => exact (ih (s.storeByte p.1 p.2)).trans rfl

@[simp] theorem State.storeBytes_pc (s : State) (l : List (Word × Byte)) : (s.storeBytes l).pc = s.pc := by
  induction l generalizing s with
  | nil => rfl
  | cons p rest ih => exact (ih (s.storeByte p.1 p.2)).trans rfl

@[simp] theorem State.storeBytes_hi (s : State) (l : List (Word × Byte)) : (s.storeBytes l).hi = s.hi := by
  induction l generalizing s with
  | nil => rfl
  | cons p rest ih => exact (ih (s.storeByte p.1 p.2)).trans rfl

@[simp] theorem State.storeBytes_lo (s : State) (l : List (Word × Byte)) : (s.storeBytes l).lo = s.lo := by
  induction l generalizing s with
  | nil => rfl
  | cons p rest ih => exact (ih (s.storeByte p.1 p.2)).trans rfl

@[simp] theorem State.storeBytes_cp0 (s : State) (l : List (Word × Byte)) : (s.storeBytes l).cp0 = s.cp0 := by
  induction l generalizing s with
  | nil => rfl
  | cons p rest ih => exact (ih (s.storeByte p.1 p.2)).trans rfl

@[simp] theorem State.storeBytes_trap (s : State) (l : List (Word × Byte)) : (s.storeBytes l).trap = s.trap := by
  induction l generalizing s with
  | nil => rfl
  | cons p rest ih => exact (ih (s.storeByte p.1 p.2)).trans rfl

@[simp] theorem State.storeBytes_env (s : State) (l : List (Word × Byte)) : (s.storeBytes l).env = s.env := by
  induction l generalizing s with
  | nil => rfl
  | cons p rest ih => exact (ih (s.storeByte p.1 p.2)).trans rfl

@[simp] theorem State.storeBytes_draws (s : State) (l : List (Word × Byte)) : (s.storeBytes l).draws = s.draws := by
  induction l generalizing s with
  | nil => rfl
  | cons p rest ih => exact (ih (s.storeByte p.1 p.2)).trans rfl

@[simp] theorem State.storeBytes_params (s : State) (l : List (Word × Byte)) : (s.storeBytes l).params = s.params := by
  induction l generalizing s with
  | nil => rfl
  | cons p rest ih => exact (ih (s.storeByte p.1 p.2)).trans rfl

@[simp] theorem State.branch_x (s : State) (c : Bool) (o : Imm) : (s.branch c o).x = s.x := by
  unfold State.branch; split <;> simp_all

@[simp] theorem State.branch_pc (s : State) (c : Bool) (o : Imm) : (s.branch c o).pc = if c then branchTarget s.pc o else incremented s.pc := by
  unfold State.branch; split <;> simp_all

@[simp] theorem State.branch_hi (s : State) (c : Bool) (o : Imm) : (s.branch c o).hi = s.hi := by
  unfold State.branch; split <;> simp_all

@[simp] theorem State.branch_lo (s : State) (c : Bool) (o : Imm) : (s.branch c o).lo = s.lo := by
  unfold State.branch; split <;> simp_all

@[simp] theorem State.branch_cp0 (s : State) (c : Bool) (o : Imm) : (s.branch c o).cp0 = s.cp0 := by
  unfold State.branch; split <;> simp_all

@[simp] theorem State.branch_mem (s : State) (c : Bool) (o : Imm) : (s.branch c o).mem = s.mem := by
  unfold State.branch; split <;> simp_all

@[simp] theorem State.branch_stored (s : State) (c : Bool) (o : Imm) : (s.branch c o).stored = s.stored := by
  unfold State.branch; split <;> simp_all

@[simp] theorem State.branch_trap (s : State) (c : Bool) (o : Imm) : (s.branch c o).trap = s.trap := by
  unfold State.branch; split <;> simp_all

@[simp] theorem State.branch_env (s : State) (c : Bool) (o : Imm) : (s.branch c o).env = s.env := by
  unfold State.branch; split <;> simp_all

@[simp] theorem State.branch_draws (s : State) (c : Bool) (o : Imm) : (s.branch c o).draws = s.draws := by
  unfold State.branch; split <;> simp_all

@[simp] theorem State.branch_params (s : State) (c : Bool) (o : Imm) : (s.branch c o).params = s.params := by
  unfold State.branch; split <;> simp_all

/-! ## Registers after an update (R21, R33) -/

@[simp] theorem State.readReg_zero (s : State) : s.readReg 0#5 = 0#32 := rfl

theorem State.readReg_congr {s t : State} (h : t.x = s.x) (r : RegNum) : t.readReg r = s.readReg r := by
  unfold State.readReg; rw [h]

theorem State.readCp0_congr {s t : State} (h : t.cp0 = s.cp0) (c : RegNum) : t.readCp0 c = s.readCp0 c := by
  unfold State.readCp0; rw [h]

/-- Reading a general register after a write: register 0 stays zero, the written one holds the value, the others keep
theirs. -/
theorem State.readReg_writeReg (s : State) (r q : RegNum) (v : Word) :
    (s.writeReg r v).readReg q = if q = r ∧ q ≠ 0#5 then v else s.readReg q := by
  unfold State.writeReg State.readReg
  by_cases hq : q = 0#5
  · simp [hq]
  · by_cases hr : r = 0#5
    · have : q ≠ r := fun h => hq (h.trans hr)
      simp [hr, hq]
    · by_cases h : q = r
      · subst h; simp [hq]
      · have : r.toNat ≠ q.toNat := fun e => h (BitVec.eq_of_toNat_eq e.symm)
        simp [hr, hq, h, this]

@[simp] theorem State.readReg_writeReg_same (s : State) (r : RegNum) (v : Word) (h : r ≠ 0#5) :
    (s.writeReg r v).readReg r = v := by simp [State.readReg_writeReg, h]

theorem State.readReg_writeReg_other (s : State) (r q : RegNum) (v : Word) (h : q ≠ r) :
    (s.writeReg r v).readReg q = s.readReg q := by simp [State.readReg_writeReg, h]

/-- A write to register 0 changes nothing (R21). -/
@[simp] theorem State.writeReg_zero (s : State) (v : Word) : s.writeReg 0#5 v = s := rfl

theorem State.readReg_link (s : State) (r q : RegNum) :
    (s.link r).readReg q = if q = r ∧ q ≠ 0#5 then incremented s.pc else s.readReg q :=
  s.readReg_writeReg r q _

/-- Reading a control register after a write (R33: plain storage). -/
theorem State.readCp0_writeCp0 (s : State) (c d : RegNum) (v : Word) :
    (s.writeCp0 c v).readCp0 d = if d = c then v else s.readCp0 d := by
  unfold State.writeCp0 State.readCp0
  by_cases h : d = c
  · subst h; simp
  · have : c.toNat ≠ d.toNat := fun e => h (BitVec.eq_of_toNat_eq e.symm)
    simp [h, this]

@[simp] theorem State.writeReg_readCp0 (s : State) (r : RegNum) (v : Word) (c : RegNum) : (s.writeReg r v).readCp0 c = s.readCp0 c :=
  State.readCp0_congr (by simp) c

@[simp] theorem State.link_readCp0 (s : State) (r : RegNum) (c : RegNum) : (s.link r).readCp0 c = s.readCp0 c :=
  State.readCp0_congr (by simp) c

@[simp] theorem State.writeHiLo_readReg (s : State) (h l : Word) (r : RegNum) : (s.writeHiLo h l).readReg r = s.readReg r :=
  State.readReg_congr (by simp) r

@[simp] theorem State.writeHiLo_readCp0 (s : State) (h l : Word) (c : RegNum) : (s.writeHiLo h l).readCp0 c = s.readCp0 c :=
  State.readCp0_congr (by simp) c

@[simp] theorem State.writeCp0_readReg (s : State) (c : RegNum) (v : Word) (r : RegNum) : (s.writeCp0 c v).readReg r = s.readReg r :=
  State.readReg_congr (by simp) r

@[simp] theorem State.advance_readReg (s : State) (r : RegNum) : (s.advance).readReg r = s.readReg r :=
  State.readReg_congr (by simp) r

@[simp] theorem State.advance_readCp0 (s : State) (c : RegNum) : (s.advance).readCp0 c = s.readCp0 c :=
  State.readCp0_congr (by simp) c

@[simp] theorem State.jumpTo_readReg (s : State) (t : Word) (r : RegNum) : (s.jumpTo t).readReg r = s.readReg r :=
  State.readReg_congr (by simp) r

@[simp] theorem State.jumpTo_readCp0 (s : State) (t : Word) (c : RegNum) : (s.jumpTo t).readCp0 c = s.readCp0 c :=
  State.readCp0_congr (by simp) c

@[simp] theorem State.drawHiLo_readReg (s : State) (r : RegNum) : (s.drawHiLo).readReg r = s.readReg r :=
  State.readReg_congr (by simp) r

@[simp] theorem State.drawHiLo_readCp0 (s : State) (c : RegNum) : (s.drawHiLo).readCp0 c = s.readCp0 c :=
  State.readCp0_congr (by simp) c

@[simp] theorem State.divOverflow_readReg (s : State) (r : RegNum) : (s.divOverflow).readReg r = s.readReg r :=
  State.readReg_congr (by simp) r

@[simp] theorem State.divOverflow_readCp0 (s : State) (c : RegNum) : (s.divOverflow).readCp0 c = s.readCp0 c :=
  State.readCp0_congr (by simp) c

@[simp] theorem State.storeByte_readReg (s : State) (a : Word) (b : Byte) (r : RegNum) : (s.storeByte a b).readReg r = s.readReg r :=
  State.readReg_congr (by simp) r

@[simp] theorem State.storeByte_readCp0 (s : State) (a : Word) (b : Byte) (c : RegNum) : (s.storeByte a b).readCp0 c = s.readCp0 c :=
  State.readCp0_congr (by simp) c

@[simp] theorem State.storeBytes_readReg (s : State) (l : List (Word × Byte)) (r : RegNum) : (s.storeBytes l).readReg r = s.readReg r :=
  State.readReg_congr (by simp) r

@[simp] theorem State.storeBytes_readCp0 (s : State) (l : List (Word × Byte)) (c : RegNum) : (s.storeBytes l).readCp0 c = s.readCp0 c :=
  State.readCp0_congr (by simp) c

@[simp] theorem State.branch_readReg (s : State) (c : Bool) (o : Imm) (r : RegNum) : (s.branch c o).readReg r = s.readReg r :=
  State.readReg_congr (by simp) r

@[simp] theorem State.branch_readCp0 (s : State) (c : Bool) (o : Imm) (k : RegNum) : (s.branch c o).readCp0 k = s.readCp0 k :=
  State.readCp0_congr (by simp) k

end Sys2Proof.Machine
end

