-- ==== Sys2Proof/Laws/Memory.lean ====
section
/-! SUPPORT. The laws of memory: what a read sees after a write, that every memory operation keeps the canonical form, and
what the operations on the store marks do. -/

namespace Sys2Proof.Machine

open Sys2Proof.Config (Region unlistedByte)

/-! ## Cells -/

/-- Below the least listed address nothing is listed. -/
theorem cellByte_below (rs : List Region) (cells : List Host.Cell) (least a : Nat)
    (h : cellsFrom rs least cells = true) (ha : a < least) : cellByte cells a = unlistedByte := by
  induction cells generalizing least with
  | nil => rfl
  | cons c rest ih =>
    obtain ⟨k, b⟩ := c
    simp only [cellsFrom, Bool.and_eq_true, decide_eq_true_eq] at h
    obtain ⟨⟨⟨hk, -⟩, -⟩, hrest⟩ := h
    rw [cellByte, if_neg (by omega)]
    exact ih (k + 1) hrest (by omega)

/-- Another address keeps its byte. -/
theorem cellByte_setCell_other (cells : List Host.Cell) (a a' : Nat) (b : Byte) (h : a' ≠ a) :
    cellByte (setCell cells a b) a' = cellByte cells a' := by
  induction cells with
  | nil => unfold setCell; split <;> simp [cellByte, Ne.symm h]
  | cons c rest ih =>
    obtain ⟨k, d⟩ := c
    unfold setCell
    split
    · split <;> simp [cellByte, Ne.symm h]
    · split
      · rename_i hak
        subst hak
        split <;> simp [cellByte, Ne.symm h]
      · simp [cellByte, ih]

/-- The written address holds the byte. -/
theorem cellByte_setCell_same (rs : List Region) (cells : List Host.Cell) (least a : Nat) (b : Byte)
    (h : cellsFrom rs least cells = true) : cellByte (setCell cells a b) a = b := by
  induction cells generalizing least with
  | nil => unfold setCell; split <;> simp_all [cellByte]
  | cons c rest ih =>
    obtain ⟨k, d⟩ := c
    simp only [cellsFrom, Bool.and_eq_true, decide_eq_true_eq] at h
    obtain ⟨⟨⟨hk, hr⟩, hd⟩, hrest⟩ := h
    have hbelow := cellByte_below rs rest (k + 1)
    unfold setCell
    split
    · rename_i hlt
      split
      · rename_i hb
        rw [cellByte, if_neg (by omega), hbelow a hrest (by omega), hb]
      · simp [cellByte]
    · split
      · rename_i hak
        subst hak
        split
        · rename_i hb
          rw [hbelow a hrest (by omega), hb]
        · simp [cellByte]
      · rename_i hak
        rw [cellByte, if_neg (fun e => hak e.symm)]
        exact ih (k + 1) hrest

/-- Setting a byte keeps the cells' canonical form. -/
theorem cellsFrom_setCell (rs : List Region) (cells : List Host.Cell) (least a : Nat) (b : Byte)
    (h : cellsFrom rs least cells = true) (ha : least ≤ a) (hp : inRegions rs a = true) :
    cellsFrom rs least (setCell cells a b) = true := by
  induction cells generalizing least with
  | nil => unfold setCell; split <;> simp_all [cellsFrom]
  | cons c rest ih =>
    obtain ⟨k, d⟩ := c
    have hc := h
    simp only [cellsFrom, Bool.and_eq_true, decide_eq_true_eq] at hc
    obtain ⟨⟨⟨hk, hr⟩, hd⟩, hrest⟩ := hc
    unfold setCell
    split
    · rename_i hlt
      split
      · exact h
      · rename_i hb
        simp only [cellsFrom, Bool.and_eq_true, decide_eq_true_eq]
        exact ⟨⟨⟨ha, hp⟩, hb⟩, ⟨⟨⟨by omega, hr⟩, hd⟩, hrest⟩⟩
    · split
      · rename_i hak
        subst hak
        split
        · clear ih h
          cases rest with
          | nil => rfl
          | cons c' rest' =>
            obtain ⟨k', d'⟩ := c'
            simp only [cellsFrom, Bool.and_eq_true, decide_eq_true_eq] at hrest ⊢
            obtain ⟨⟨⟨h1, h2⟩, h3⟩, h4⟩ := hrest
            exact ⟨⟨⟨by omega, h2⟩, h3⟩, h4⟩
        · rename_i hb
          simp only [cellsFrom, Bool.and_eq_true, decide_eq_true_eq]
          exact ⟨⟨⟨ha, hp⟩, hb⟩, hrest⟩
      · rename_i hlt hak
        simp only [cellsFrom, Bool.and_eq_true, decide_eq_true_eq]
        exact ⟨⟨⟨hk, hr⟩, hd⟩, ih (k + 1) hrest (by omega)⟩

/-! ## The memory map -/

@[simp] theorem Memory.isPopulated_write (m : Memory) (a a' : Word) (b : Byte) :
    (m.write a b).isPopulated a' = m.isPopulated a' := by
  unfold Memory.write; split <;> rfl

@[simp] theorem Memory.populated_write (m : Memory) (a : Word) (b : Byte) :
    (m.write a b).populated = m.populated := by
  unfold Memory.write; split <;> rfl

/-- A byte can be read exactly where memory is populated (R50). -/
theorem Memory.read_isSome (m : Memory) (a : Word) : (m.read a).isSome = m.isPopulated a := by
  unfold Memory.read; split <;> simp_all

theorem Memory.read_eq_none (m : Memory) (a : Word) : m.read a = none ↔ m.isPopulated a = false := by
  unfold Memory.read; split <;> simp_all

/-- Another address reads as before. -/
theorem Memory.read_write_other (m : Memory) (a a' : Word) (b : Byte) (h : a' ≠ a) :
    (m.write a b).read a' = m.read a' := by
  have hn : a'.toNat ≠ a.toNat := fun e => h (BitVec.eq_of_toNat_eq e)
  unfold Memory.read
  rw [Memory.isPopulated_write]
  split
  · unfold Memory.write
    split
    · simp [cellByte_setCell_other _ _ _ b hn]
    · rfl
  · rfl

/-- The written address reads as the byte written. -/
theorem Memory.read_write_same (m : Memory) (a : Word) (b : Byte) (hm : m.wf = true) (ha : m.isPopulated a = true) :
    (m.write a b).read a = some b := by
  unfold Memory.wf at hm
  simp only [Bool.and_eq_true] at hm
  unfold Memory.read
  rw [Memory.isPopulated_write, if_pos ha]
  unfold Memory.write
  rw [if_pos ha]
  simp [cellByte_setCell_same m.populated m.cells 0 a.toNat b hm.2]

/-- A write keeps the canonical form. -/
theorem Memory.wf_write (m : Memory) (a : Word) (b : Byte) (hm : m.wf = true) : (m.write a b).wf = true := by
  unfold Memory.write
  split
  · rename_i ha
    unfold Memory.wf at hm ⊢
    simp only [Bool.and_eq_true] at hm ⊢
    exact ⟨hm.1, cellsFrom_setCell _ _ _ _ _ hm.2 (Nat.zero_le _) ha⟩
  · exact hm

/-! ## Regions -/

theorem inRegions_cons (r : Region) (rs : List Region) (a : Nat) :
    inRegions (r :: rs) a = true ↔ (r.lo ≤ a ∧ a < r.hi) ∨ inRegions rs a = true := by
  simp [inRegions]

/-- The added range is populated, and so is what was. -/
theorem inRegions_addRegion (rs : List Region) (lo hi a : Nat) (hlt : lo < hi) :
    inRegions (addRegion rs lo hi) a = true ↔ (lo ≤ a ∧ a < hi) ∨ inRegions rs a = true := by
  induction rs generalizing lo hi with
  | nil => simp [addRegion, inRegions]
  | cons r rest ih =>
    unfold addRegion
    split
    · rw [inRegions_cons]
    · split
      · rw [inRegions_cons, ih lo hi hlt, inRegions_cons]; tauto
      · rename_i h1 h2
        rw [ih (min lo r.lo) (max hi r.hi) (by omega), inRegions_cons]
        constructor
        · rintro (⟨h3, h4⟩ | h)
          · by_cases hc : r.lo ≤ a ∧ a < r.hi
            · exact .inr (.inl hc)
            · exact .inl (by omega)
          · exact .inr (.inr h)
        · rintro (⟨h3, h4⟩ | ⟨h3, h4⟩ | h)
          · exact .inl (by omega)
          · exact .inl (by omega)
          · exact .inr h

/-- Adding a range keeps the regions' canonical form. -/
theorem regionsFrom_addRegion (rs : List Region) (least lo hi : Nat) (h : regionsFrom least rs = true)
    (hl : least ≤ lo) (hlt : lo < hi) (hi' : hi ≤ Config.addressSpace) :
    regionsFrom least (addRegion rs lo hi) = true := by
  induction rs generalizing least lo hi with
  | nil => simp [addRegion, regionsFrom, hl, hlt, hi']
  | cons r rest ih =>
    have hc := h
    simp only [regionsFrom, Bool.and_eq_true, decide_eq_true_eq] at hc
    obtain ⟨⟨⟨h1, h2⟩, h3⟩, h4⟩ := hc
    unfold addRegion
    split
    · rename_i hlow
      simp only [regionsFrom, Bool.and_eq_true, decide_eq_true_eq]
      exact ⟨⟨⟨hl, hlt⟩, hi'⟩, ⟨⟨⟨by omega, h2⟩, h3⟩, h4⟩⟩
    · split
      · rename_i hhigh
        simp only [regionsFrom, Bool.and_eq_true, decide_eq_true_eq]
        exact ⟨⟨⟨h1, h2⟩, h3⟩, ih _ _ _ h4 (by omega) hlt hi'⟩
      · refine ih _ _ _ ?_ (by omega) (by omega) (by omega)
        clear ih h
        cases rest with
        | nil => rfl
        | cons r' rest' =>
          simp only [regionsFrom, Bool.and_eq_true, decide_eq_true_eq] at h4 ⊢
          obtain ⟨⟨⟨g1, g2⟩, g3⟩, g4⟩ := h4
          exact ⟨⟨⟨by omega, g2⟩, g3⟩, g4⟩

/-- More regions keep the cells' canonical form. -/
theorem cellsFrom_mono (rs rs' : List Region) (cells : List Host.Cell) (least : Nat)
    (hsub : ∀ a, inRegions rs a = true → inRegions rs' a = true) (h : cellsFrom rs least cells = true) :
    cellsFrom rs' least cells = true := by
  induction cells generalizing least with
  | nil => rfl
  | cons c rest ih =>
    obtain ⟨k, b⟩ := c
    simp only [cellsFrom, Bool.and_eq_true, decide_eq_true_eq] at h ⊢
    obtain ⟨⟨⟨h1, h2⟩, h3⟩, h4⟩ := h
    exact ⟨⟨⟨h1, hsub k h2⟩, h3⟩, ih (k + 1) h4⟩

/-- The memory after placing a byte, before the byte is written: the address is populated, the rest of the map as before. -/
theorem Memory.isPopulated_place (m : Memory) (a a' : Word) (b : Byte) :
    (m.place a b).isPopulated a' = true ↔ a' = a ∨ m.isPopulated a' = true := by
  unfold Memory.place
  simp only [Memory.isPopulated_write]
  split
  · rename_i h
    exact ⟨.inr, fun hh => hh.elim (fun e => e ▸ h) id⟩
  · unfold Memory.isPopulated
    rw [inRegions_addRegion _ _ _ _ (Nat.lt_succ_self _)]
    exact or_congr_left ⟨fun hh => BitVec.eq_of_toNat_eq (by omega), fun e => by subst e; omega⟩

/-- Placing a byte keeps the canonical form. -/
theorem Memory.wf_place (m : Memory) (a : Word) (b : Byte) (hm : m.wf = true) : (m.place a b).wf = true := by
  unfold Memory.place
  refine Memory.wf_write _ _ _ ?_
  split
  · exact hm
  · unfold Memory.wf at hm ⊢
    simp only [Bool.and_eq_true] at hm ⊢
    have ha : a.toNat + 1 ≤ Config.addressSpace := a.isLt
    exact ⟨regionsFrom_addRegion _ _ _ _ hm.1 (Nat.zero_le _) (Nat.lt_succ_self _) ha,
      cellsFrom_mono _ _ _ _ (fun k hk => (inRegions_addRegion _ _ _ k (Nat.lt_succ_self _)).2 (.inr hk)) hm.2⟩

/-- A placed byte reads as placed. -/
theorem Memory.read_place_same (m : Memory) (a : Word) (b : Byte) (hm : m.wf = true) :
    (m.place a b).read a = some b := by
  have hw := Memory.wf_place m a b hm
  unfold Memory.place at hw ⊢
  split at hw
  · rename_i h
    rw [if_pos h]
    exact Memory.read_write_same _ _ _ hm h
  · rename_i h
    rw [if_neg h]
    refine Memory.read_write_same _ _ _ ?_ ?_
    · unfold Memory.wf at hm ⊢
      simp only [Bool.and_eq_true] at hm ⊢
      have ha : a.toNat + 1 ≤ Config.addressSpace := a.isLt
      exact ⟨regionsFrom_addRegion _ _ _ _ hm.1 (Nat.zero_le _) (Nat.lt_succ_self _) ha,
        cellsFrom_mono _ _ _ _ (fun k hk => (inRegions_addRegion _ _ _ k (Nat.lt_succ_self _)).2 (.inr hk)) hm.2⟩
    · unfold Memory.isPopulated
      exact (inRegions_addRegion _ _ _ _ (Nat.lt_succ_self _)).2 (.inl ⟨Nat.le_refl _, Nat.lt_succ_self _⟩)

/-- Placing a byte leaves every other address reading as before. -/
theorem Memory.read_place_other (m : Memory) (a a' : Word) (b : Byte) (h : a' ≠ a) :
    (m.place a b).read a' = m.read a' := by
  unfold Memory.place
  rw [Memory.read_write_other _ _ _ _ h]
  split
  · rfl
  · have hn : a'.toNat ≠ a.toNat := fun e => h (BitVec.eq_of_toNat_eq e)
    have hp : inRegions (addRegion m.populated a.toNat (a.toNat + 1)) a'.toNat = inRegions m.populated a'.toNat := by
      rw [Bool.eq_iff_iff, inRegions_addRegion _ _ _ _ (Nat.lt_succ_self _)]
      exact ⟨fun hh => hh.elim (fun hh => absurd hh (by omega)) id, .inr⟩
    unfold Memory.read Memory.isPopulated
    simp only [hp]

/-! ## Store marks (R69) -/

theorem mem_addMark (l : List Nat) (a k : Nat) : k ∈ addMark l a ↔ k = a ∨ k ∈ l := by
  induction l with
  | nil => simp [addMark]
  | cons x rest ih =>
    unfold addMark
    split
    · simp
    · split
      · rename_i h; subst h; simp
      · simp only [List.mem_cons, ih]; tauto

theorem marksFrom_addMark (rs : List Region) (l : List Nat) (least a : Nat) (h : marksFrom rs least l = true)
    (ha : least ≤ a) (hp : inRegions rs a = true) : marksFrom rs least (addMark l a) = true := by
  induction l generalizing least with
  | nil => simp [addMark, marksFrom, ha, hp]
  | cons k rest ih =>
    have hc := h
    simp only [marksFrom, Bool.and_eq_true, decide_eq_true_eq] at hc
    obtain ⟨⟨h1, h2⟩, h3⟩ := hc
    unfold addMark
    split
    · simp only [marksFrom, Bool.and_eq_true, decide_eq_true_eq]
      exact ⟨⟨ha, hp⟩, ⟨⟨by omega, h2⟩, h3⟩⟩
    · split
      · exact h
      · simp only [marksFrom, Bool.and_eq_true, decide_eq_true_eq]
        exact ⟨⟨h1, h2⟩, ih (k + 1) h3 (by omega)⟩

/-! ## Several bytes -/

@[simp] theorem State.storeBytes_isPopulated (s : State) (l : List (Word × Byte)) (a : Word) :
    (s.storeBytes l).mem.isPopulated a = s.mem.isPopulated a := by
  induction l generalizing s with
  | nil => rfl
  | cons p rest ih => exact (ih (s.storeByte p.1 p.2)).trans (Memory.isPopulated_write _ _ _ _)

@[simp] theorem State.storeBytes_populated (s : State) (l : List (Word × Byte)) :
    (s.storeBytes l).mem.populated = s.mem.populated := by
  induction l generalizing s with
  | nil => rfl
  | cons p rest ih => exact (ih (s.storeByte p.1 p.2)).trans (Memory.populated_write _ _ _)

theorem State.storeBytes_wf_mem (s : State) (l : List (Word × Byte)) (h : s.mem.wf = true) :
    (s.storeBytes l).mem.wf = true := by
  induction l generalizing s with
  | nil => exact h
  | cons p rest ih => exact ih (s.storeByte p.1 p.2) (Memory.wf_write _ _ _ h)

/-- An address outside the stored bytes reads as before. -/
theorem State.storeBytes_read_other (s : State) (l : List (Word × Byte)) (a : Word) (h : a ∉ l.map Prod.fst) :
    (s.storeBytes l).mem.read a = s.mem.read a := by
  induction l generalizing s with
  | nil => rfl
  | cons p rest ih =>
    simp only [List.map_cons, List.mem_cons, not_or] at h
    exact (ih (s.storeByte p.1 p.2) h.2).trans (Memory.read_write_other _ _ _ _ h.1)

/-- Where the stored addresses differ from one another, each reads as the byte stored there. -/
theorem State.storeBytes_read_same (s : State) (l : List (Word × Byte)) (hm : s.mem.wf = true)
    (hp : ∀ p ∈ l, s.mem.isPopulated p.1 = true) (hd : (l.map Prod.fst).Nodup) :
    ∀ p ∈ l, (s.storeBytes l).mem.read p.1 = some p.2 := by
  induction l generalizing s with
  | nil => simp
  | cons q rest ih =>
    simp only [List.map_cons, List.nodup_cons] at hd
    intro p hmem
    rcases List.mem_cons.1 hmem with rfl | hin
    · exact (State.storeBytes_read_other _ rest _ hd.1).trans
        (Memory.read_write_same _ _ _ hm (hp _ (List.mem_cons_self ..)))
    · refine ih (s.storeByte q.1 q.2) (Memory.wf_write _ _ _ hm) (fun p' h' => ?_) hd.2 p hin
      exact (Memory.isPopulated_write _ _ _ _).trans (hp p' (List.mem_cons_of_mem _ h'))

/-- The bytes stored are marked, and no others become so (R69). -/
theorem State.mem_storeBytes_stored (s : State) (l : List (Word × Byte)) (k : Nat) :
    k ∈ (s.storeBytes l).stored ↔ k ∈ s.stored ∨ k ∈ l.map (fun p => p.1.toNat) := by
  induction l generalizing s with
  | nil => simp [State.storeBytes]
  | cons p rest ih =>
    unfold State.storeBytes
    rw [ih, State.storeByte_stored, mem_addMark, List.map_cons, List.mem_cons]
    tauto

theorem State.storeBytes_marks (s : State) (l : List (Word × Byte))
    (h : marksFrom s.mem.populated 0 s.stored = true) (hp : ∀ p ∈ l, s.mem.isPopulated p.1 = true) :
    marksFrom s.mem.populated 0 (s.storeBytes l).stored = true := by
  induction l generalizing s with
  | nil => exact h
  | cons q rest ih =>
    have hq : inRegions s.mem.populated q.1.toNat = true := hp q (List.mem_cons_self ..)
    have h1 := marksFrom_addMark _ _ _ _ h (Nat.zero_le _) hq
    have h2 := ih (s.storeByte q.1 q.2) (by simpa using h1) (fun p' h' => by
      simpa using hp p' (List.mem_cons_of_mem _ h'))
    exact (by simpa using h2 : marksFrom s.mem.populated 0 ((s.storeByte q.1 q.2).storeBytes rest).stored = true)

end Sys2Proof.Machine
end

