-- ==== Sys2Proof/Laws/Ops.lean ====
section
/-! SUPPORT. One lemma per shared operation that says once what it can do, and one inversion lemma for `exec`, for the fetch
and for `step`. -/

namespace Sys2Proof.Machine

/-! ## How meanings end -/

/-- Writing a register and advancing does that and nothing else. -/
theorem State.result_writesReg (s : State) (d : RegNum) (v : Word) :
    WritesReg d v (s.pc + 4#32) s (s.writeReg d v).advance := by
  refine ⟨by simp [incremented], fun r => ?_, ⟨by simp, by simp⟩, fun c => by simp, ⟨fun a => by simp, fun a => by simp⟩,
    by simp, by simp, by simp, by simp⟩
  simp [State.readReg_writeReg]

/-- Linking and jumping writes the link register and `pc` and nothing else. -/
theorem State.linkJump_writesReg (s : State) (d : RegNum) (p : Word) :
    WritesReg d (s.pc + 4#32) p s ((s.link d).jumpTo p) := by
  refine ⟨by simp, fun r => ?_, ⟨by simp, by simp⟩, fun c => by simp, ⟨fun a => by simp, fun a => by simp⟩,
    by simp, by simp, by simp, by simp⟩
  simp [State.readReg_link, incremented]

/-- Jumping writes `pc` and nothing else. -/
theorem State.jumpTo_writesPc (s : State) (p : Word) : WritesPc p s (s.jumpTo p) :=
  ⟨rfl, fun _ => rfl, ⟨rfl, rfl⟩, fun _ => rfl, ⟨fun _ => rfl, fun _ => Iff.rfl⟩, rfl, rfl, rfl, rfl⟩

/-- A branch is a jump to its target or to the next instruction. -/
theorem State.branch_eq_jumpTo (s : State) (c : Bool) (o : Imm) :
    s.branch c o = s.jumpTo (if c then branchTarget s.pc o else incremented s.pc) := by
  unfold State.branch; split <;> rfl

/-- Writing the special registers and advancing does that and nothing else. -/
theorem State.writeHiLo_writesHiLo (s : State) (h l : Word) : WritesHiLo h l s (s.writeHiLo h l).advance := by
  refine ⟨by simp [incremented], by simp, by simp, fun r => by simp, fun c => by simp, ⟨fun a => by simp, fun a => by simp⟩,
    by simp, by simp, by simp, by simp⟩

/-- A load answers a next state exactly when it has a value, and then writes it and advances. -/
theorem State.load_next {s t : State} {rt : RegNum} {e : Except Word Word} (h : s.load rt e = .next t) :
    ∃ v, e = .ok v ∧ t = (s.writeReg rt v).advance := by
  unfold State.load at h
  split at h
  · rename_i v
    exact ⟨v, rfl, by simpa [State.result] using h.symm⟩
  · cases h

/-- No address of the list is absent exactly when all are populated. -/
theorem Memory.firstAbsent_eq_none (m : Memory) (as : List Word) :
    m.firstAbsent as = none ↔ ∀ a ∈ as, m.isPopulated a = true := by
  simp [Memory.firstAbsent]

/-- A store answers a next state exactly when every byte is populated, and then stores all and advances. -/
theorem State.store_next {s t : State} {l : List (Word × Byte)} (h : s.store l = .next t) :
    (∀ p ∈ l, s.mem.isPopulated p.1 = true) ∧ t = (s.storeBytes l).advance := by
  unfold State.store at h
  split at h
  · cases h
  · rename_i hn
    rw [Memory.firstAbsent_eq_none] at hn
    exact ⟨fun p hp => hn _ (List.mem_map_of_mem hp), by simpa using h.symm⟩

/-- A store to populated bytes answers a next state. -/
theorem State.store_populated (s : State) (l : List (Word × Byte)) (h : ∀ p ∈ l, s.mem.isPopulated p.1 = true) :
    s.store l = .next (s.storeBytes l).advance := by
  have hn : s.mem.firstAbsent (l.map Prod.fst) = none := by
    rw [Memory.firstAbsent_eq_none]
    intro a ha
    obtain ⟨p, hp, rfl⟩ := List.mem_map.1 ha
    exact h p hp
  unfold State.store
  rw [hn]

/-- Storing bytes at addresses that differ from one another does that and nothing else. -/
theorem State.storeBytes_stores (s : State) (l : List (Word × Byte)) (hm : s.mem.wf = true)
    (hp : ∀ p ∈ l, s.mem.isPopulated p.1 = true) (hd : (l.map Prod.fst).Nodup) :
    Stores l s (s.storeBytes l).advance := by
  refine ⟨by simp [incremented], fun p h => ?_, fun a h => ?_, fun a => ?_, fun r => by simp, ⟨by simp, by simp⟩,
    fun c => by simp, by simp, by simp, by simp, by simp⟩
  · simpa using State.storeBytes_read_same s l hm hp hd p h
  · simpa using State.storeBytes_read_other s l a h
  · rw [State.advance_stored, State.mem_storeBytes_stored]
    refine or_congr_right ?_
    simp only [List.mem_map]
    exact exists_congr fun p => and_congr_right fun _ => ⟨BitVec.eq_of_toNat_eq, fun e => e ▸ rfl⟩

/-! ## Reads -/

theorem State.readByte_ok {s : State} {a : Word} {b : Byte} : s.readByte a = .ok b ↔ s.mem.read a = some b := by
  unfold State.readByte; split <;> simp_all

theorem State.readByte_error {s : State} {a e : Word} : s.readByte a = .error e ↔ s.mem.isPopulated a = false ∧ e = a := by
  rw [← Memory.read_eq_none]
  unfold State.readByte
  cases h : s.mem.read a <;> simp [eq_comm]

/-- A halfword read answers exactly when both bytes are there (R52). -/
theorem State.readHalf_ok {s : State} {a : Word} {b0 b1 : Byte} (h0 : s.mem.read a = some b0)
    (h1 : s.mem.read (a + 1#32) = some b1) : s.readHalf a = .ok (halfOfBytes b0 b1) := by
  simp [State.readHalf, State.readByte_ok.2 h0, State.readByte_ok.2 h1, bind, Except.bind, pure, Except.pure]

/-- A word read answers exactly when the four bytes are there (R52). -/
theorem State.readWord_ok {s : State} {a : Word} {b0 b1 b2 b3 : Byte} (h0 : s.mem.read a = some b0)
    (h1 : s.mem.read (a + 1#32) = some b1) (h2 : s.mem.read (a + 2#32) = some b2) (h3 : s.mem.read (a + 3#32) = some b3) :
    s.readWord a = .ok (wordOfBytes b0 b1 b2 b3) := by
  simp [State.readWord, State.readByte_ok.2 h0, State.readByte_ok.2 h1, State.readByte_ok.2 h2, State.readByte_ok.2 h3, bind,
    Except.bind, pure, Except.pure]

/-- What a word read can answer: the four bytes, or the first address of the four that is not populated. -/
theorem State.readWord_cases (s : State) (a : Word) :
    (∃ b0 b1 b2 b3, s.mem.read a = some b0 ∧ s.mem.read (a + 1#32) = some b1 ∧ s.mem.read (a + 2#32) = some b2 ∧
      s.mem.read (a + 3#32) = some b3 ∧ s.readWord a = .ok (wordOfBytes b0 b1 b2 b3)) ∨
    (∃ e, e ∈ [a, a + 1#32, a + 2#32, a + 3#32] ∧ s.mem.isPopulated e = false ∧ s.readWord a = .error e) := by
  cases h0 : s.mem.read a with
  | none =>
    refine .inr ⟨a, by simp, (Memory.read_eq_none _ _).1 h0, ?_⟩
    simp [State.readWord, State.readByte, h0, bind, Except.bind]
  | some b0 =>
    cases h1 : s.mem.read (a + 1#32) with
    | none =>
      refine .inr ⟨a + 1#32, by simp, (Memory.read_eq_none _ _).1 h1, ?_⟩
      simp [State.readWord, State.readByte, h0, h1, bind, Except.bind]
    | some b1 =>
      cases h2 : s.mem.read (a + 2#32) with
      | none =>
        refine .inr ⟨a + 2#32, by simp, (Memory.read_eq_none _ _).1 h2, ?_⟩
        simp [State.readWord, State.readByte, h0, h1, h2, bind, Except.bind]
      | some b2 =>
        cases h3 : s.mem.read (a + 3#32) with
        | none =>
          refine .inr ⟨a + 3#32, by simp, (Memory.read_eq_none _ _).1 h3, ?_⟩
          simp [State.readWord, State.readByte, h0, h1, h2, h3, bind, Except.bind]
        | some b3 => exact .inl ⟨b0, b1, b2, b3, rfl, rfl, rfl, rfl, State.readWord_ok h0 h1 h2 h3⟩

/-! ## The bytes an access touches differ from one another -/

theorem add_ofNat_inj (a : Word) {i j : Nat} (hi : i < 2 ^ 32) (hj : j < 2 ^ 32)
    (h : a + BitVec.ofNat 32 i = a + BitVec.ofNat 32 j) : i = j := by
  have h' := congrArg BitVec.toNat ((BitVec.add_right_inj a).1 h)
  rwa [BitVec.toNat_ofNat, BitVec.toNat_ofNat, Nat.mod_eq_of_lt hi, Nat.mod_eq_of_lt hj] at h'

theorem sub_ofNat_inj (a : Word) {i j : Nat} (hi : i < 2 ^ 32) (hj : j < 2 ^ 32)
    (h : a - BitVec.ofNat 32 i = a - BitVec.ofNat 32 j) : i = j := by
  rw [BitVec.sub_eq_add_neg, BitVec.sub_eq_add_neg] at h
  have h' := congrArg BitVec.toNat (BitVec.neg_inj.1 ((BitVec.add_right_inj a).1 h))
  rwa [BitVec.toNat_ofNat, BitVec.toNat_ofNat, Nat.mod_eq_of_lt hi, Nat.mod_eq_of_lt hj] at h'

theorem byteInWord_lt (ea : Word) : byteInWord ea < 4 := (ea.extractLsb' 0 2).isLt

@[simp] theorem leftStores_addresses (ea v : Word) : (leftStores ea v).map Prod.fst = leftAddresses ea := by
  simp [leftStores, leftAddresses, Function.comp_def]

@[simp] theorem rightStores_addresses (ea v : Word) : (rightStores ea v).map Prod.fst = rightAddresses ea := by
  simp [rightStores, rightAddresses, Function.comp_def]

theorem leftAddresses_nodup (ea : Word) : (leftAddresses ea).Nodup := by
  unfold leftAddresses
  refine List.Nodup.map_on (fun i hi j hj h => ?_) List.nodup_range
  have := byteInWord_lt ea
  rw [List.mem_range] at hi hj
  exact sub_ofNat_inj ea (by omega) (by omega) h

theorem rightAddresses_nodup (ea : Word) : (rightAddresses ea).Nodup := by
  unfold rightAddresses
  refine List.Nodup.map_on (fun i hi j hj h => ?_) List.nodup_range
  rw [List.mem_range] at hi hj
  exact add_ofNat_inj ea (by omega) (by omega) h

theorem halfStores_nodup (a v : Word) : ((halfStores a v).map Prod.fst).Nodup := by
  simp [halfStores]

theorem wordStores_nodup (a v : Word) : ((wordStores a v).map Prod.fst).Nodup := by
  have h (i j : Nat) (hi : i < 4) (hj : j < 4) (hne : i ≠ j) : a + BitVec.ofNat 32 i ≠ a + BitVec.ofNat 32 j :=
    fun e => hne (add_ofNat_inj a (by omega) (by omega) e)
  have h0 (j : Nat) (hj : j < 4) (hne : 0 ≠ j) : a ≠ a + BitVec.ofNat 32 j := by
    simpa using h 0 j (by omega) hj hne
  simp only [wordStores, List.map_cons, List.map_nil, List.nodup_cons, List.mem_cons, not_or, List.not_mem_nil,
    not_false_eq_true, and_true, List.nodup_nil]
  exact ⟨⟨h0 1 (by omega) (by omega), h0 2 (by omega) (by omega), h0 3 (by omega) (by omega)⟩,
    ⟨h 1 2 (by omega) (by omega) (by omega), h 1 3 (by omega) (by omega) (by omega)⟩,
    h 2 3 (by omega) (by omega) (by omega)⟩

/-! ## What executing an instruction can do -/

/-- The shapes of a next state that `exec` answers: a trap with nothing written; one general register and `pc` advanced; the
special registers; a control register; stored bytes; a jump; a link and a jump. -/
inductive ExecShape (i : Instr) (s : State) : State → Prop where
  | trap (e : Exception) : ExecShape i s { s with trap := some { cause := e, epc := s.pc } }
  | reg (d : RegNum) (v : Word) (hd : i.destReg = some d) (hp : i.assignsPc = false) :
      ExecShape i s (s.writeReg d v).advance
  | hiLo (h l : Word) (n : Nat) (hw : i.writesHiLo = true) :
      ExecShape i s (State.advance { s with hi := h, lo := l, draws := n })
  | cp0 (rt c : RegNum) (hi : i = .mtc0 rt c) : ExecShape i s (s.writeCp0 c (s.readReg rt)).advance
  | store (l : List (Word × Byte)) (ha : l.map Prod.fst = i.storedAddresses s)
      (hp : ∀ p ∈ l, s.mem.isPopulated p.1 = true) : ExecShape i s (s.storeBytes l).advance
  | jump (p : Word) (hp : i.assignsPc = true) : ExecShape i s (s.jumpTo p)
  | linkJump (d : RegNum) (p : Word) (hd : i.destReg = some d) (hp : i.assignsPc = true) :
      ExecShape i s ((s.link d).jumpTo p)

theorem ExecShape.of_result {i : Instr} {s t : State} {d : RegNum} {v : Word} (hd : i.destReg = some d)
    (hp : i.assignsPc = false) (h : s.result d v = .next t) : ExecShape i s t := by
  obtain rfl : (s.writeReg d v).advance = t := by simpa [State.result] using h
  exact .reg d v hd hp

theorem ExecShape.of_raise {i : Instr} {s t : State} {e : Exception} (h : s.raise e = .next t) : ExecShape i s t := by
  obtain rfl : { s with trap := some { cause := e, epc := s.pc } } = t := by simpa [State.raise] using h
  exact .trap e

theorem ExecShape.of_load {i : Instr} {s t : State} {d : RegNum} {e : Except Word Word} (hd : i.destReg = some d)
    (hp : i.assignsPc = false) (h : s.load d e = .next t) : ExecShape i s t := by
  obtain ⟨v, -, rfl⟩ := State.load_next h
  exact .reg d v hd hp

theorem ExecShape.of_store {i : Instr} {s t : State} {l : List (Word × Byte)} (ha : l.map Prod.fst = i.storedAddresses s)
    (h : s.store l = .next t) : ExecShape i s t := by
  obtain ⟨hp, rfl⟩ := State.store_next h
  exact .store l ha hp

theorem ExecShape.of_branch {i : Instr} {s t : State} {c : Bool} {o : Imm} (hp : i.assignsPc = true)
    (h : Host.Outcome.next (s.branch c o) = (.next t : Result)) : ExecShape i s t := by
  obtain rfl : s.branch c o = t := by simpa using h
  rw [State.branch_eq_jumpTo]
  exact .jump _ hp

theorem ExecShape.of_linkBranch {i : Instr} {s t : State} {c : Bool} {o : Imm} (hd : i.destReg = some 31#5)
    (hp : i.assignsPc = true) (h : Host.Outcome.next ((s.link linkReg).branch c o) = (.next t : Result)) :
    ExecShape i s t := by
  obtain rfl : (s.link linkReg).branch c o = t := by simpa using h
  rw [State.branch_eq_jumpTo]
  exact .linkJump linkReg _ hd hp

theorem ExecShape.of_drawHiLo {i : Instr} {s t : State} (hw : i.writesHiLo = true)
    (h : Host.Outcome.next s.drawHiLo.advance = (.next t : Result)) : ExecShape i s t := by
  obtain rfl : s.drawHiLo.advance = t := by simpa using h
  exact .hiLo _ _ _ hw

theorem ExecShape.of_writeHiLo {i : Instr} {s t : State} {a b : Word} (hw : i.writesHiLo = true)
    (h : Host.Outcome.next (s.writeHiLo a b).advance = (.next t : Result)) : ExecShape i s t := by
  obtain rfl : (s.writeHiLo a b).advance = t := by simpa using h
  exact .hiLo _ _ _ hw

theorem ExecShape.of_divOverflow {i : Instr} {s t : State} (hw : i.writesHiLo = true)
    (h : Host.Outcome.next s.divOverflow.advance = (.next t : Result)) : ExecShape i s t := by
  obtain rfl : s.divOverflow.advance = t := by simpa using h
  unfold State.divOverflow
  split
  · exact .hiLo _ _ _ hw
  · exact .hiLo _ _ _ hw

/-- Whatever instruction is executed, a next state has one of the shapes. -/
theorem exec_shape {i : Instr} {s t : State} (h : exec i s = .next t) : ExecShape i s t := by
  cases i with
  | add | addi =>
    simp only [exec, execAdd, execAddi, State.addTrapping] at h
    split at h
    · exact .of_raise h
    · exact .of_result rfl rfl h
  | sub =>
    simp only [exec, execSub] at h
    split at h
    · exact .of_raise h
    · exact .of_result rfl rfl h
  | addu | subu | addiu | lui | mfhi | mflo | and | or | xor | nor | slt | sltu | slti | sltiu | andi | ori | xori | sll
  | srl | sra | sllv | srlv | srav => exact .of_result rfl rfl h
  | mult | multu | mthi | mtlo => exact .of_writeHiLo rfl h
  | div =>
    simp only [exec, execDiv] at h
    split at h
    · exact .of_drawHiLo rfl h
    · split at h
      · exact .of_divOverflow rfl h
      · exact .of_writeHiLo rfl h
  | divu =>
    simp only [exec, execDivu] at h
    split at h
    · exact .of_drawHiLo rfl h
    · exact .of_writeHiLo rfl h
  | lb | lbu | lwl | lwr => exact .of_load rfl rfl h
  | lh | lhu | lw =>
    simp only [exec, execLh, execLhu, execLw] at h
    split at h
    · exact .of_raise h
    · exact .of_load rfl rfl h
  | sb | swl | swr => exact .of_store rfl h
  | sh | sw =>
    simp only [exec, execSh, execSw] at h
    split at h
    · exact .of_raise h
    · exact .of_store rfl h
  | mfc0 =>
    simp only [exec, execMfc0, State.cp0Access] at h
    split at h
    · exact .of_result rfl rfl h
    · cases h
  | mtc0 rt c =>
    simp only [exec, execMtc0, State.cp0Access] at h
    split at h
    · obtain rfl : (s.writeCp0 c (s.readReg rt)).advance = t := by simpa using h
      exact .cp0 rt c rfl
    · cases h
  | beq | bne | blez | bgtz | bltz | bgez => exact .of_branch rfl h
  | bltzal | bgezal => exact .of_linkBranch rfl rfl h
  | jr | j =>
    obtain rfl := by simpa [exec, execJr, execJ] using h
    exact .jump _ rfl
  | jalr rd =>
    obtain rfl := by simpa [exec, execJalr] using h
    exact .linkJump rd _ rfl rfl
  | jal =>
    obtain rfl := by simpa [exec, execJal] using h
    exact .linkJump linkReg _ rfl rfl
  | syscall => exact .of_raise h

/-! ## What the fetch and a step can do -/

/-- What the fetch answers: an instruction, or in this order the trap of a misaligned `pc`, the fault of an unpopulated byte,
the refusal of a stored byte, the trap of a reserved word (R283). -/
theorem State.fetchInstr_cases (s : State) :
    (∃ w i, notWordAddress s.pc = false ∧ s.readWord s.pc = .ok w ∧ s.storedInFetch = none ∧ decodeWord w = .ok i ∧
      s.fetchInstr = .ok i) ∨
    (∃ e, s.fetchInstr = .error (s.raise e)) ∨
    (∃ a, s.readWord s.pc = .error a ∧ s.fetchInstr = .error (.fault (.memoryFault a))) ∨
    (∃ a, s.storedInFetch = some a ∧ s.fetchInstr = .error (.refused (.storedFetch a))) := by
  unfold State.fetchInstr
  split
  · exact .inr (.inl ⟨_, rfl⟩)
  · rename_i hal
    split
    · rename_i a ha
      exact .inr (.inr (.inl ⟨a, ha, rfl⟩))
    · rename_i w hw
      split
      · rename_i a ha
        exact .inr (.inr (.inr ⟨a, ha, rfl⟩))
      · rename_i hn
        split
        · exact .inr (.inl ⟨_, rfl⟩)
        · rename_i i hi
          exact .inl ⟨w, i, by simpa using hal, hw, hn, hi, rfl⟩

/-- What a step under a given environment that answers a next state has done: handed a system call over and gone on as the
environment answers, taken an exception at the fetch, or executed the instruction it fetched. -/
theorem stepUnder_next {f : EnvTrap} {s t : State} (h : stepUnder f s = .next t) :
    (∃ tr r, s.trap = some tr ∧ tr.cause = .systemCall ∧ f tr s = some r ∧ t = s.resume r) ∨
    (∃ e, s.trap = none ∧ t = { s with trap := some { cause := e, epc := s.pc } }) ∨
    (∃ i, s.trap = none ∧ s.fetchInstr = .ok i ∧ exec i s = .next t) := by
  unfold stepUnder at h
  split at h
  · rename_i tr htr
    unfold State.handOver at h
    split at h
    · rename_i hc
      split at h
      · rename_i r hr
        exact .inl ⟨tr, r, htr, hc, hr, by simpa using h.symm⟩
      · cases h
    · cases h
  · rename_i htr
    rcases s.fetchInstr_cases with ⟨w, i, -, -, -, -, hf⟩ | ⟨e, hf⟩ | ⟨a, -, hf⟩ | ⟨a, -, hf⟩ <;> rw [hf] at h
    · exact .inr (.inr ⟨i, htr, hf, h⟩)
    · exact .inr (.inl ⟨e, htr, by simpa [State.raise] using h.symm⟩)
    · cases h
    · cases h

/-- The same of the machine's own step, whose environment is the one its state names. -/
theorem step_next {s t : State} (h : step s = .next t) :
    (∃ tr r, s.trap = some tr ∧ tr.cause = .systemCall ∧ State.answer tr s = some r ∧ t = s.resume r) ∨
    (∃ e, s.trap = none ∧ t = { s with trap := some { cause := e, epc := s.pc } }) ∨
    (∃ i, s.trap = none ∧ s.fetchInstr = .ok i ∧ exec i s = .next t) :=
  stepUnder_next h

/-- With no trap pending, no environment is asked. -/
theorem stepUnder_of_no_trap (f : EnvTrap) {s : State} (h : s.trap = none) : stepUnder f s = step s := by
  simp [step, stepUnder, h]

/-- A system call goes on as the environment answers. -/
theorem stepUnder_resume {f : EnvTrap} {s : State} {t : Trap} {r : EnvReply} (ht : s.trap = some t)
    (hc : t.cause = .systemCall) (hr : f t s = some r) : stepUnder f s = .next (s.resume r) := by
  simp [stepUnder, State.handOver, ht, hc, hr]

/-- A system call that the environment does not resume ends the run well. -/
theorem stepUnder_exit {f : EnvTrap} {s : State} {t : Trap} (ht : s.trap = some t)
    (hc : t.cause = .systemCall) (hr : f t s = none) : stepUnder f s = .fault (.exit t.epc) := by
  simp [stepUnder, State.handOver, ht, hc, hr]

/-- Any other trap ends the run badly, whatever the environment. -/
theorem stepUnder_badTrap (f : EnvTrap) {s : State} {t : Trap} (ht : s.trap = some t) (hc : t.cause ≠ .systemCall) :
    stepUnder f s = .fault (.badTrap t) := by
  simp only [stepUnder, ht, State.handOver]

theorem State.answer_scripted {s : State} {l : List EnvReply} (t : Trap) (h : s.env = .scripted l) :
    State.answer t s = l.head? := by
  simp [State.answer, h]

theorem State.answer_supplied {s : State} (t : Trap) (h : s.env = .supplied) :
    State.answer t s = Config.envTrap t s := by
  simp [State.answer, h]

/-! ## Placing an instruction -/

@[simp] theorem State.withFetchWord_pc (s : State) (nbits w : Nat) : (s.withFetchWord nbits w).pc = wordStart s.pc := rfl

@[simp] theorem State.withFetchWord_trap (s : State) (nbits w : Nat) : (s.withFetchWord nbits w).trap = none := rfl

@[simp] theorem State.withFetchWord_x (s : State) (nbits w : Nat) : (s.withFetchWord nbits w).x = s.x := rfl

@[simp] theorem State.withFetchWord_cp0 (s : State) (nbits w : Nat) : (s.withFetchWord nbits w).cp0 = s.cp0 := rfl

@[simp] theorem State.withFetchWord_hi (s : State) (nbits w : Nat) : (s.withFetchWord nbits w).hi = s.hi := rfl

@[simp] theorem State.withFetchWord_lo (s : State) (nbits w : Nat) : (s.withFetchWord nbits w).lo = s.lo := rfl

/-- The four bytes are placed at the word's start, lowest first (R53, R54). -/
theorem State.withFetchWord_mem (s : State) (nbits w : Nat) :
    (s.withFetchWord nbits w).mem =
      (((s.mem.place (wordStart s.pc) (byteOfWord (tableWord nbits w) 0)).place (wordStart s.pc + 1#32)
        (byteOfWord (tableWord nbits w) 1)).place (wordStart s.pc + 2#32) (byteOfWord (tableWord nbits w) 2)).place
        (wordStart s.pc + 3#32) (byteOfWord (tableWord nbits w) 3) := by
  unfold State.withFetchWord
  rfl

/-- No byte of the placed instruction bears a store mark (R69). -/
theorem State.withFetchWord_unmarked (s : State) (nbits w : Nat) :
    ∀ a ∈ fetchAddresses (wordStart s.pc), a.toNat ∉ (s.withFetchWord nbits w).stored := by
  intro a ha h
  have h' := (List.mem_filter.1 (show a.toNat ∈ s.stored.filter _ from h)).2
  simp only [Bool.not_eq_true', List.contains_eq_mem, decide_eq_false_iff_not] at h'
  exact h' (List.mem_map_of_mem ha)

/-! ## The environment's writes -/

@[simp] theorem State.envWrite_pc (s : State) (w : EnvWrite) : (s.envWrite w).pc = s.pc := by
  cases w <;> simp [State.envWrite]

@[simp] theorem State.envWrite_stored (s : State) (w : EnvWrite) : (s.envWrite w).stored = s.stored := by
  cases w <;> simp [State.envWrite]

@[simp] theorem State.envWrite_trap (s : State) (w : EnvWrite) : (s.envWrite w).trap = s.trap := by
  cases w <;> simp [State.envWrite]

@[simp] theorem State.envWrite_env (s : State) (w : EnvWrite) : (s.envWrite w).env = s.env := by
  cases w <;> simp [State.envWrite]

@[simp] theorem State.envWrite_draws (s : State) (w : EnvWrite) : (s.envWrite w).draws = s.draws := by
  cases w <;> simp [State.envWrite]

@[simp] theorem State.envWrite_params (s : State) (w : EnvWrite) : (s.envWrite w).params = s.params := by
  cases w <;> simp [State.envWrite]

@[simp] theorem State.envWrite_populated (s : State) (w : EnvWrite) :
    (s.envWrite w).mem.populated = s.mem.populated := by
  cases w <;> simp [State.envWrite]

@[simp] theorem State.envWrites_pc (s : State) (ws : List EnvWrite) : (s.envWrites ws).pc = s.pc := by
  induction ws generalizing s with
  | nil => rfl
  | cons w rest ih => exact (ih (s.envWrite w)).trans (s.envWrite_pc w)

@[simp] theorem State.envWrites_stored (s : State) (ws : List EnvWrite) : (s.envWrites ws).stored = s.stored := by
  induction ws generalizing s with
  | nil => rfl
  | cons w rest ih => exact (ih (s.envWrite w)).trans (s.envWrite_stored w)

@[simp] theorem State.envWrites_trap (s : State) (ws : List EnvWrite) : (s.envWrites ws).trap = s.trap := by
  induction ws generalizing s with
  | nil => rfl
  | cons w rest ih => exact (ih (s.envWrite w)).trans (s.envWrite_trap w)

@[simp] theorem State.envWrites_env (s : State) (ws : List EnvWrite) : (s.envWrites ws).env = s.env := by
  induction ws generalizing s with
  | nil => rfl
  | cons w rest ih => exact (ih (s.envWrite w)).trans (s.envWrite_env w)

@[simp] theorem State.envWrites_draws (s : State) (ws : List EnvWrite) : (s.envWrites ws).draws = s.draws := by
  induction ws generalizing s with
  | nil => rfl
  | cons w rest ih => exact (ih (s.envWrite w)).trans (s.envWrite_draws w)

@[simp] theorem State.envWrites_params (s : State) (ws : List EnvWrite) : (s.envWrites ws).params = s.params := by
  induction ws generalizing s with
  | nil => rfl
  | cons w rest ih => exact (ih (s.envWrite w)).trans (s.envWrite_params w)

@[simp] theorem State.envWrites_populated (s : State) (ws : List EnvWrite) :
    (s.envWrites ws).mem.populated = s.mem.populated := by
  induction ws generalizing s with
  | nil => rfl
  | cons w rest ih => exact (ih (s.envWrite w)).trans (s.envWrite_populated w)

/-- One write gives a general register its value, if it is one of that register; register 0 stays zero (R21). -/
theorem State.readReg_envWrite (s : State) (w : EnvWrite) (q : RegNum) :
    (s.envWrite w).readReg q = if q = 0#5 then 0#32 else (w.onReg q).getD (s.readReg q) := by
  by_cases hq : q = 0#5
  · subst hq; simp
  · rw [if_neg hq]
    cases w with
    | reg r v =>
      simp only [State.envWrite, EnvWrite.onReg, State.readReg_writeReg, eq_comm (a := r), ne_eq, hq, not_false_eq_true,
        and_true]
      split <;> rfl
    | _ => rfl

theorem State.hi_envWrite (s : State) (w : EnvWrite) : (s.envWrite w).hi = w.onHi.getD s.hi := by
  cases w <;> simp [State.envWrite, EnvWrite.onHi]

theorem State.lo_envWrite (s : State) (w : EnvWrite) : (s.envWrite w).lo = w.onLo.getD s.lo := by
  cases w <;> simp [State.envWrite, EnvWrite.onLo]

/-- One write gives a control register its value, if it is one of that register. -/
theorem State.readCp0_envWrite (s : State) (w : EnvWrite) (c : RegNum) :
    (s.envWrite w).readCp0 c = (w.onCp0 c).getD (s.readCp0 c) := by
  cases w with
  | cp0 d v => by_cases h : c = d <;> simp [State.envWrite, EnvWrite.onCp0, State.readCp0_writeCp0, h, eq_comm (a := d)]
  | reg r v => exact State.readCp0_congr (by simp [State.envWrite]) c
  | _ => rfl

/-- One write keeps the memory's canonical form. -/
theorem State.wf_envWrite (s : State) (w : EnvWrite) (h : s.mem.wf = true) : (s.envWrite w).mem.wf = true := by
  cases w <;> simp [State.envWrite, h, Memory.wf_write]

/-- One write gives a populated address its byte, if it is one of that address. -/
theorem State.read_envWrite (s : State) (w : EnvWrite) (a : Word) (h : s.mem.wf = true) :
    (s.envWrite w).mem.read a = (s.mem.read a).map (w.onByte a).getD := by
  cases w with
  | byte k b =>
    cases hr : s.mem.read a with
    | none =>
      have hp : s.mem.isPopulated a = false := (Memory.read_eq_none _ _).1 hr
      exact (Memory.read_eq_none _ _).2 (by simpa [State.envWrite, Memory.isPopulated] using hp)
    | some o =>
      by_cases hk : k = a
      · subst hk
        have hp : s.mem.isPopulated k = true := by
          by_contra hp
          rw [(Memory.read_eq_none _ _).2 (by simpa using hp)] at hr
          cases hr
        simpa [State.envWrite, EnvWrite.onByte] using Memory.read_write_same _ _ _ h hp
      · simpa [State.envWrite, EnvWrite.onByte, hk, hr] using Memory.read_write_other s.mem k a b (Ne.symm hk)
  | _ => cases hr : s.mem.read a <;> simp [State.envWrite, EnvWrite.onByte, hr]

/-- Later writes win over earlier ones. -/
theorem lastOf_cons {α : Type} (f : EnvWrite → Option α) (w : EnvWrite) (ws : List EnvWrite) (old : α) :
    lastOf f (w :: ws) old = lastOf f ws ((f w).getD old) := by
  unfold lastOf
  rw [List.filterMap_cons]
  cases f w with
  | none => rfl
  | some v => rw [List.getLast?_cons]; cases (ws.filterMap f).getLast? <;> rfl

@[simp] theorem lastOf_nil {α : Type} (f : EnvWrite → Option α) (old : α) : lastOf f [] old = old := rfl

/-! ## The state after an answer of the environment -/

@[simp] theorem State.resume_pc (s : State) (r : EnvReply) : (s.resume r).pc = r.pc := rfl

@[simp] theorem State.resume_trap (s : State) (r : EnvReply) : (s.resume r).trap = none := rfl

@[simp] theorem State.resume_env (s : State) (r : EnvReply) : (s.resume r).env = s.env.afterReply := rfl

@[simp] theorem State.resume_x (s : State) (r : EnvReply) : (s.resume r).x = (s.envWrites r.writes).x := rfl

@[simp] theorem State.resume_hi (s : State) (r : EnvReply) : (s.resume r).hi = (s.envWrites r.writes).hi := rfl

@[simp] theorem State.resume_lo (s : State) (r : EnvReply) : (s.resume r).lo = (s.envWrites r.writes).lo := rfl

@[simp] theorem State.resume_cp0 (s : State) (r : EnvReply) : (s.resume r).cp0 = (s.envWrites r.writes).cp0 := rfl

@[simp] theorem State.resume_mem (s : State) (r : EnvReply) : (s.resume r).mem = (s.envWrites r.writes).mem := rfl

@[simp] theorem State.resume_stored (s : State) (r : EnvReply) : (s.resume r).stored = s.stored := by
  simp [State.resume]

@[simp] theorem State.resume_draws (s : State) (r : EnvReply) : (s.resume r).draws = s.draws := by
  simp [State.resume]

@[simp] theorem State.resume_params (s : State) (r : EnvReply) : (s.resume r).params = s.params := by
  simp [State.resume]

end Sys2Proof.Machine
end

