-- ==== Sys2Proof/Laws/PerInstr.lean ====
section
/-! SUPPORT. A statement about every instruction, one lemma per constructor: the instruction's own row of rule R88 hits its
encoding and builds the instruction back from it. -/

namespace Sys2Proof.Laws

/-- Some row of the opcode table hits the encoding of a well-formed instruction and builds that instruction from it. -/
def EncodingAgrees.Statement (i : Instr) : Prop :=
  i.wellFormed = true → ∃ r ∈ opcodeRows, r.hits (encode i) = true ∧ r.build (encode i) = i

theorem EncodingAgrees.add (rd : RegNum) (rs : RegNum) (rt : RegNum) : EncodingAgrees.Statement (.add rd rs rt) := by
  intro _
  refine ⟨opcodeRows[0], List.getElem_mem _, ?_, ?_⟩
  · refine beq_iff_eq.2 ?_
    change encode _ &&& registerWord 0b111111 0b00000 0b00000 0b00000 0b11111 0b111111 = registerWord 0b000000 0b00000 0b00000 0b00000 0b00000 0b100000
    simp [encode, registerWord_and]
  · change Instr.add _ _ _ = _
    simp [encode]

theorem EncodingAgrees.addu (rd : RegNum) (rs : RegNum) (rt : RegNum) : EncodingAgrees.Statement (.addu rd rs rt) := by
  intro _
  refine ⟨opcodeRows[1], List.getElem_mem _, ?_, ?_⟩
  · refine beq_iff_eq.2 ?_
    change encode _ &&& registerWord 0b111111 0b00000 0b00000 0b00000 0b11111 0b111111 = registerWord 0b000000 0b00000 0b00000 0b00000 0b00000 0b100001
    simp [encode, registerWord_and]
  · change Instr.addu _ _ _ = _
    simp [encode]

theorem EncodingAgrees.sub (rd : RegNum) (rs : RegNum) (rt : RegNum) : EncodingAgrees.Statement (.sub rd rs rt) := by
  intro _
  refine ⟨opcodeRows[2], List.getElem_mem _, ?_, ?_⟩
  · refine beq_iff_eq.2 ?_
    change encode _ &&& registerWord 0b111111 0b00000 0b00000 0b00000 0b11111 0b111111 = registerWord 0b000000 0b00000 0b00000 0b00000 0b00000 0b100010
    simp [encode, registerWord_and]
  · change Instr.sub _ _ _ = _
    simp [encode]

theorem EncodingAgrees.subu (rd : RegNum) (rs : RegNum) (rt : RegNum) : EncodingAgrees.Statement (.subu rd rs rt) := by
  intro _
  refine ⟨opcodeRows[3], List.getElem_mem _, ?_, ?_⟩
  · refine beq_iff_eq.2 ?_
    change encode _ &&& registerWord 0b111111 0b00000 0b00000 0b00000 0b11111 0b111111 = registerWord 0b000000 0b00000 0b00000 0b00000 0b00000 0b100011
    simp [encode, registerWord_and]
  · change Instr.subu _ _ _ = _
    simp [encode]

theorem EncodingAgrees.mult (rs : RegNum) (rt : RegNum) : EncodingAgrees.Statement (.mult rs rt) := by
  intro _
  refine ⟨opcodeRows[4], List.getElem_mem _, ?_, ?_⟩
  · refine beq_iff_eq.2 ?_
    change encode _ &&& registerWord 0b111111 0b00000 0b00000 0b11111 0b11111 0b111111 = registerWord 0b000000 0b00000 0b00000 0b00000 0b00000 0b011000
    simp [encode, registerWord_and]
  · change Instr.mult _ _ = _
    simp [encode]

theorem EncodingAgrees.multu (rs : RegNum) (rt : RegNum) : EncodingAgrees.Statement (.multu rs rt) := by
  intro _
  refine ⟨opcodeRows[5], List.getElem_mem _, ?_, ?_⟩
  · refine beq_iff_eq.2 ?_
    change encode _ &&& registerWord 0b111111 0b00000 0b00000 0b11111 0b11111 0b111111 = registerWord 0b000000 0b00000 0b00000 0b00000 0b00000 0b011001
    simp [encode, registerWord_and]
  · change Instr.multu _ _ = _
    simp [encode]

theorem EncodingAgrees.div (rs : RegNum) (rt : RegNum) : EncodingAgrees.Statement (.div rs rt) := by
  intro _
  refine ⟨opcodeRows[6], List.getElem_mem _, ?_, ?_⟩
  · refine beq_iff_eq.2 ?_
    change encode _ &&& registerWord 0b111111 0b00000 0b00000 0b11111 0b11111 0b111111 = registerWord 0b000000 0b00000 0b00000 0b00000 0b00000 0b011010
    simp [encode, registerWord_and]
  · change Instr.div _ _ = _
    simp [encode]

theorem EncodingAgrees.divu (rs : RegNum) (rt : RegNum) : EncodingAgrees.Statement (.divu rs rt) := by
  intro _
  refine ⟨opcodeRows[7], List.getElem_mem _, ?_, ?_⟩
  · refine beq_iff_eq.2 ?_
    change encode _ &&& registerWord 0b111111 0b00000 0b00000 0b11111 0b11111 0b111111 = registerWord 0b000000 0b00000 0b00000 0b00000 0b00000 0b011011
    simp [encode, registerWord_and]
  · change Instr.divu _ _ = _
    simp [encode]

theorem EncodingAgrees.addi (rt : RegNum) (rs : RegNum) (imm : Imm) : EncodingAgrees.Statement (.addi rt rs imm) := by
  intro _
  refine ⟨opcodeRows[8], List.getElem_mem _, ?_, ?_⟩
  · refine beq_iff_eq.2 ?_
    change encode _ &&& immediateWord 0b111111 0b00000 0b00000 0b0000000000000000 = immediateWord 0b001000 0b00000 0b00000 0b0000000000000000
    simp [encode, immediateWord_and]
  · change Instr.addi _ _ _ = _
    simp [encode]

theorem EncodingAgrees.addiu (rt : RegNum) (rs : RegNum) (imm : Imm) : EncodingAgrees.Statement (.addiu rt rs imm) := by
  intro _
  refine ⟨opcodeRows[9], List.getElem_mem _, ?_, ?_⟩
  · refine beq_iff_eq.2 ?_
    change encode _ &&& immediateWord 0b111111 0b00000 0b00000 0b0000000000000000 = immediateWord 0b001001 0b00000 0b00000 0b0000000000000000
    simp [encode, immediateWord_and]
  · change Instr.addiu _ _ _ = _
    simp [encode]

theorem EncodingAgrees.lb (rt : RegNum) (imm : Imm) (rs : RegNum) : EncodingAgrees.Statement (.lb rt imm rs) := by
  intro _
  refine ⟨opcodeRows[10], List.getElem_mem _, ?_, ?_⟩
  · refine beq_iff_eq.2 ?_
    change encode _ &&& immediateWord 0b111111 0b00000 0b00000 0b0000000000000000 = immediateWord 0b100000 0b00000 0b00000 0b0000000000000000
    simp [encode, immediateWord_and]
  · change Instr.lb _ _ _ = _
    simp [encode]

theorem EncodingAgrees.lh (rt : RegNum) (imm : Imm) (rs : RegNum) : EncodingAgrees.Statement (.lh rt imm rs) := by
  intro _
  refine ⟨opcodeRows[11], List.getElem_mem _, ?_, ?_⟩
  · refine beq_iff_eq.2 ?_
    change encode _ &&& immediateWord 0b111111 0b00000 0b00000 0b0000000000000000 = immediateWord 0b100001 0b00000 0b00000 0b0000000000000000
    simp [encode, immediateWord_and]
  · change Instr.lh _ _ _ = _
    simp [encode]

theorem EncodingAgrees.lwl (rt : RegNum) (imm : Imm) (rs : RegNum) : EncodingAgrees.Statement (.lwl rt imm rs) := by
  intro _
  refine ⟨opcodeRows[12], List.getElem_mem _, ?_, ?_⟩
  · refine beq_iff_eq.2 ?_
    change encode _ &&& immediateWord 0b111111 0b00000 0b00000 0b0000000000000000 = immediateWord 0b100010 0b00000 0b00000 0b0000000000000000
    simp [encode, immediateWord_and]
  · change Instr.lwl _ _ _ = _
    simp [encode]

theorem EncodingAgrees.lw (rt : RegNum) (imm : Imm) (rs : RegNum) : EncodingAgrees.Statement (.lw rt imm rs) := by
  intro _
  refine ⟨opcodeRows[13], List.getElem_mem _, ?_, ?_⟩
  · refine beq_iff_eq.2 ?_
    change encode _ &&& immediateWord 0b111111 0b00000 0b00000 0b0000000000000000 = immediateWord 0b100011 0b00000 0b00000 0b0000000000000000
    simp [encode, immediateWord_and]
  · change Instr.lw _ _ _ = _
    simp [encode]

theorem EncodingAgrees.lbu (rt : RegNum) (imm : Imm) (rs : RegNum) : EncodingAgrees.Statement (.lbu rt imm rs) := by
  intro _
  refine ⟨opcodeRows[14], List.getElem_mem _, ?_, ?_⟩
  · refine beq_iff_eq.2 ?_
    change encode _ &&& immediateWord 0b111111 0b00000 0b00000 0b0000000000000000 = immediateWord 0b100100 0b00000 0b00000 0b0000000000000000
    simp [encode, immediateWord_and]
  · change Instr.lbu _ _ _ = _
    simp [encode]

theorem EncodingAgrees.lhu (rt : RegNum) (imm : Imm) (rs : RegNum) : EncodingAgrees.Statement (.lhu rt imm rs) := by
  intro _
  refine ⟨opcodeRows[15], List.getElem_mem _, ?_, ?_⟩
  · refine beq_iff_eq.2 ?_
    change encode _ &&& immediateWord 0b111111 0b00000 0b00000 0b0000000000000000 = immediateWord 0b100101 0b00000 0b00000 0b0000000000000000
    simp [encode, immediateWord_and]
  · change Instr.lhu _ _ _ = _
    simp [encode]

theorem EncodingAgrees.lwr (rt : RegNum) (imm : Imm) (rs : RegNum) : EncodingAgrees.Statement (.lwr rt imm rs) := by
  intro _
  refine ⟨opcodeRows[16], List.getElem_mem _, ?_, ?_⟩
  · refine beq_iff_eq.2 ?_
    change encode _ &&& immediateWord 0b111111 0b00000 0b00000 0b0000000000000000 = immediateWord 0b100110 0b00000 0b00000 0b0000000000000000
    simp [encode, immediateWord_and]
  · change Instr.lwr _ _ _ = _
    simp [encode]

theorem EncodingAgrees.sb (rt : RegNum) (imm : Imm) (rs : RegNum) : EncodingAgrees.Statement (.sb rt imm rs) := by
  intro _
  refine ⟨opcodeRows[17], List.getElem_mem _, ?_, ?_⟩
  · refine beq_iff_eq.2 ?_
    change encode _ &&& immediateWord 0b111111 0b00000 0b00000 0b0000000000000000 = immediateWord 0b101000 0b00000 0b00000 0b0000000000000000
    simp [encode, immediateWord_and]
  · change Instr.sb _ _ _ = _
    simp [encode]

theorem EncodingAgrees.sh (rt : RegNum) (imm : Imm) (rs : RegNum) : EncodingAgrees.Statement (.sh rt imm rs) := by
  intro _
  refine ⟨opcodeRows[18], List.getElem_mem _, ?_, ?_⟩
  · refine beq_iff_eq.2 ?_
    change encode _ &&& immediateWord 0b111111 0b00000 0b00000 0b0000000000000000 = immediateWord 0b101001 0b00000 0b00000 0b0000000000000000
    simp [encode, immediateWord_and]
  · change Instr.sh _ _ _ = _
    simp [encode]

theorem EncodingAgrees.swl (rt : RegNum) (imm : Imm) (rs : RegNum) : EncodingAgrees.Statement (.swl rt imm rs) := by
  intro _
  refine ⟨opcodeRows[19], List.getElem_mem _, ?_, ?_⟩
  · refine beq_iff_eq.2 ?_
    change encode _ &&& immediateWord 0b111111 0b00000 0b00000 0b0000000000000000 = immediateWord 0b101010 0b00000 0b00000 0b0000000000000000
    simp [encode, immediateWord_and]
  · change Instr.swl _ _ _ = _
    simp [encode]

theorem EncodingAgrees.sw (rt : RegNum) (imm : Imm) (rs : RegNum) : EncodingAgrees.Statement (.sw rt imm rs) := by
  intro _
  refine ⟨opcodeRows[20], List.getElem_mem _, ?_, ?_⟩
  · refine beq_iff_eq.2 ?_
    change encode _ &&& immediateWord 0b111111 0b00000 0b00000 0b0000000000000000 = immediateWord 0b101011 0b00000 0b00000 0b0000000000000000
    simp [encode, immediateWord_and]
  · change Instr.sw _ _ _ = _
    simp [encode]

theorem EncodingAgrees.swr (rt : RegNum) (imm : Imm) (rs : RegNum) : EncodingAgrees.Statement (.swr rt imm rs) := by
  intro _
  refine ⟨opcodeRows[21], List.getElem_mem _, ?_, ?_⟩
  · refine beq_iff_eq.2 ?_
    change encode _ &&& immediateWord 0b111111 0b00000 0b00000 0b0000000000000000 = immediateWord 0b101110 0b00000 0b00000 0b0000000000000000
    simp [encode, immediateWord_and]
  · change Instr.swr _ _ _ = _
    simp [encode]

theorem EncodingAgrees.lui (rt : RegNum) (imm : Imm) : EncodingAgrees.Statement (.lui rt imm) := by
  intro _
  refine ⟨opcodeRows[22], List.getElem_mem _, ?_, ?_⟩
  · refine beq_iff_eq.2 ?_
    change encode _ &&& immediateWord 0b111111 0b11111 0b00000 0b0000000000000000 = immediateWord 0b001111 0b00000 0b00000 0b0000000000000000
    simp [encode, immediateWord_and]
  · change Instr.lui _ _ = _
    simp [encode]

theorem EncodingAgrees.mfhi (rd : RegNum) : EncodingAgrees.Statement (.mfhi rd) := by
  intro _
  refine ⟨opcodeRows[23], List.getElem_mem _, ?_, ?_⟩
  · refine beq_iff_eq.2 ?_
    change encode _ &&& registerWord 0b111111 0b11111 0b11111 0b00000 0b11111 0b111111 = registerWord 0b000000 0b00000 0b00000 0b00000 0b00000 0b010000
    simp [encode, registerWord_and]
  · change Instr.mfhi _ = _
    simp [encode]

theorem EncodingAgrees.mthi (rs : RegNum) : EncodingAgrees.Statement (.mthi rs) := by
  intro _
  refine ⟨opcodeRows[24], List.getElem_mem _, ?_, ?_⟩
  · refine beq_iff_eq.2 ?_
    change encode _ &&& registerWord 0b111111 0b00000 0b11111 0b11111 0b11111 0b111111 = registerWord 0b000000 0b00000 0b00000 0b00000 0b00000 0b010001
    simp [encode, registerWord_and]
  · change Instr.mthi _ = _
    simp [encode]

theorem EncodingAgrees.mflo (rd : RegNum) : EncodingAgrees.Statement (.mflo rd) := by
  intro _
  refine ⟨opcodeRows[25], List.getElem_mem _, ?_, ?_⟩
  · refine beq_iff_eq.2 ?_
    change encode _ &&& registerWord 0b111111 0b11111 0b11111 0b00000 0b11111 0b111111 = registerWord 0b000000 0b00000 0b00000 0b00000 0b00000 0b010010
    simp [encode, registerWord_and]
  · change Instr.mflo _ = _
    simp [encode]

theorem EncodingAgrees.mtlo (rs : RegNum) : EncodingAgrees.Statement (.mtlo rs) := by
  intro _
  refine ⟨opcodeRows[26], List.getElem_mem _, ?_, ?_⟩
  · refine beq_iff_eq.2 ?_
    change encode _ &&& registerWord 0b111111 0b00000 0b11111 0b11111 0b11111 0b111111 = registerWord 0b000000 0b00000 0b00000 0b00000 0b00000 0b010011
    simp [encode, registerWord_and]
  · change Instr.mtlo _ = _
    simp [encode]

theorem EncodingAgrees.mfc0 (rt : RegNum) (cd : RegNum) : EncodingAgrees.Statement (.mfc0 rt cd) := by
  intro _
  refine ⟨opcodeRows[27], List.getElem_mem _, ?_, ?_⟩
  · refine beq_iff_eq.2 ?_
    change encode _ &&& registerWord 0b111111 0b11111 0b00000 0b00000 0b11111 0b111111 = registerWord 0b010000 0b00000 0b00000 0b00000 0b00000 0b000000
    simp [encode, registerWord_and]
  · change Instr.mfc0 _ _ = _
    simp [encode]

theorem EncodingAgrees.mtc0 (rt : RegNum) (cd : RegNum) : EncodingAgrees.Statement (.mtc0 rt cd) := by
  intro _
  refine ⟨opcodeRows[28], List.getElem_mem _, ?_, ?_⟩
  · refine beq_iff_eq.2 ?_
    change encode _ &&& registerWord 0b111111 0b11111 0b00000 0b00000 0b11111 0b111111 = registerWord 0b010000 0b00100 0b00000 0b00000 0b00000 0b000000
    simp [encode, registerWord_and]
  · change Instr.mtc0 _ _ = _
    simp [encode]

theorem EncodingAgrees.and (rd : RegNum) (rs : RegNum) (rt : RegNum) : EncodingAgrees.Statement (.and rd rs rt) := by
  intro _
  refine ⟨opcodeRows[29], List.getElem_mem _, ?_, ?_⟩
  · refine beq_iff_eq.2 ?_
    change encode _ &&& registerWord 0b111111 0b00000 0b00000 0b00000 0b11111 0b111111 = registerWord 0b000000 0b00000 0b00000 0b00000 0b00000 0b100100
    simp [encode, registerWord_and]
  · change Instr.and _ _ _ = _
    simp [encode]

theorem EncodingAgrees.or (rd : RegNum) (rs : RegNum) (rt : RegNum) : EncodingAgrees.Statement (.or rd rs rt) := by
  intro _
  refine ⟨opcodeRows[30], List.getElem_mem _, ?_, ?_⟩
  · refine beq_iff_eq.2 ?_
    change encode _ &&& registerWord 0b111111 0b00000 0b00000 0b00000 0b11111 0b111111 = registerWord 0b000000 0b00000 0b00000 0b00000 0b00000 0b100101
    simp [encode, registerWord_and]
  · change Instr.or _ _ _ = _
    simp [encode]

theorem EncodingAgrees.xor (rd : RegNum) (rs : RegNum) (rt : RegNum) : EncodingAgrees.Statement (.xor rd rs rt) := by
  intro _
  refine ⟨opcodeRows[31], List.getElem_mem _, ?_, ?_⟩
  · refine beq_iff_eq.2 ?_
    change encode _ &&& registerWord 0b111111 0b00000 0b00000 0b00000 0b11111 0b111111 = registerWord 0b000000 0b00000 0b00000 0b00000 0b00000 0b100110
    simp [encode, registerWord_and]
  · change Instr.xor _ _ _ = _
    simp [encode]

theorem EncodingAgrees.nor (rd : RegNum) (rs : RegNum) (rt : RegNum) : EncodingAgrees.Statement (.nor rd rs rt) := by
  intro _
  refine ⟨opcodeRows[32], List.getElem_mem _, ?_, ?_⟩
  · refine beq_iff_eq.2 ?_
    change encode _ &&& registerWord 0b111111 0b00000 0b00000 0b00000 0b11111 0b111111 = registerWord 0b000000 0b00000 0b00000 0b00000 0b00000 0b100111
    simp [encode, registerWord_and]
  · change Instr.nor _ _ _ = _
    simp [encode]

theorem EncodingAgrees.slt (rd : RegNum) (rs : RegNum) (rt : RegNum) : EncodingAgrees.Statement (.slt rd rs rt) := by
  intro _
  refine ⟨opcodeRows[33], List.getElem_mem _, ?_, ?_⟩
  · refine beq_iff_eq.2 ?_
    change encode _ &&& registerWord 0b111111 0b00000 0b00000 0b00000 0b11111 0b111111 = registerWord 0b000000 0b00000 0b00000 0b00000 0b00000 0b101010
    simp [encode, registerWord_and]
  · change Instr.slt _ _ _ = _
    simp [encode]

theorem EncodingAgrees.sltu (rd : RegNum) (rs : RegNum) (rt : RegNum) : EncodingAgrees.Statement (.sltu rd rs rt) := by
  intro _
  refine ⟨opcodeRows[34], List.getElem_mem _, ?_, ?_⟩
  · refine beq_iff_eq.2 ?_
    change encode _ &&& registerWord 0b111111 0b00000 0b00000 0b00000 0b11111 0b111111 = registerWord 0b000000 0b00000 0b00000 0b00000 0b00000 0b101011
    simp [encode, registerWord_and]
  · change Instr.sltu _ _ _ = _
    simp [encode]

theorem EncodingAgrees.slti (rt : RegNum) (rs : RegNum) (imm : Imm) : EncodingAgrees.Statement (.slti rt rs imm) := by
  intro _
  refine ⟨opcodeRows[35], List.getElem_mem _, ?_, ?_⟩
  · refine beq_iff_eq.2 ?_
    change encode _ &&& immediateWord 0b111111 0b00000 0b00000 0b0000000000000000 = immediateWord 0b001010 0b00000 0b00000 0b0000000000000000
    simp [encode, immediateWord_and]
  · change Instr.slti _ _ _ = _
    simp [encode]

theorem EncodingAgrees.sltiu (rt : RegNum) (rs : RegNum) (imm : Imm) : EncodingAgrees.Statement (.sltiu rt rs imm) := by
  intro _
  refine ⟨opcodeRows[36], List.getElem_mem _, ?_, ?_⟩
  · refine beq_iff_eq.2 ?_
    change encode _ &&& immediateWord 0b111111 0b00000 0b00000 0b0000000000000000 = immediateWord 0b001011 0b00000 0b00000 0b0000000000000000
    simp [encode, immediateWord_and]
  · change Instr.sltiu _ _ _ = _
    simp [encode]

theorem EncodingAgrees.andi (rt : RegNum) (rs : RegNum) (imm : Imm) : EncodingAgrees.Statement (.andi rt rs imm) := by
  intro _
  refine ⟨opcodeRows[37], List.getElem_mem _, ?_, ?_⟩
  · refine beq_iff_eq.2 ?_
    change encode _ &&& immediateWord 0b111111 0b00000 0b00000 0b0000000000000000 = immediateWord 0b001100 0b00000 0b00000 0b0000000000000000
    simp [encode, immediateWord_and]
  · change Instr.andi _ _ _ = _
    simp [encode]

theorem EncodingAgrees.ori (rt : RegNum) (rs : RegNum) (imm : Imm) : EncodingAgrees.Statement (.ori rt rs imm) := by
  intro _
  refine ⟨opcodeRows[38], List.getElem_mem _, ?_, ?_⟩
  · refine beq_iff_eq.2 ?_
    change encode _ &&& immediateWord 0b111111 0b00000 0b00000 0b0000000000000000 = immediateWord 0b001101 0b00000 0b00000 0b0000000000000000
    simp [encode, immediateWord_and]
  · change Instr.ori _ _ _ = _
    simp [encode]

theorem EncodingAgrees.xori (rt : RegNum) (rs : RegNum) (imm : Imm) : EncodingAgrees.Statement (.xori rt rs imm) := by
  intro _
  refine ⟨opcodeRows[39], List.getElem_mem _, ?_, ?_⟩
  · refine beq_iff_eq.2 ?_
    change encode _ &&& immediateWord 0b111111 0b00000 0b00000 0b0000000000000000 = immediateWord 0b001110 0b00000 0b00000 0b0000000000000000
    simp [encode, immediateWord_and]
  · change Instr.xori _ _ _ = _
    simp [encode]

theorem EncodingAgrees.sll (rd : RegNum) (rt : RegNum) (amount : Nat) : EncodingAgrees.Statement (.sll rd rt amount) := by
  intro h
  refine ⟨opcodeRows[40], List.getElem_mem _, ?_, ?_⟩
  · refine beq_iff_eq.2 ?_
    change encode _ &&& registerWord 0b111111 0b11111 0b00000 0b00000 0b00000 0b111111 = registerWord 0b000000 0b00000 0b00000 0b00000 0b00000 0b000000
    simp [encode, registerWord_and]
  · change Instr.sll _ _ _ = _
    simp [encode, shamt_toNat (of_decide_eq_true h)]

theorem EncodingAgrees.srl (rd : RegNum) (rt : RegNum) (amount : Nat) : EncodingAgrees.Statement (.srl rd rt amount) := by
  intro h
  refine ⟨opcodeRows[41], List.getElem_mem _, ?_, ?_⟩
  · refine beq_iff_eq.2 ?_
    change encode _ &&& registerWord 0b111111 0b11111 0b00000 0b00000 0b00000 0b111111 = registerWord 0b000000 0b00000 0b00000 0b00000 0b00000 0b000010
    simp [encode, registerWord_and]
  · change Instr.srl _ _ _ = _
    simp [encode, shamt_toNat (of_decide_eq_true h)]

theorem EncodingAgrees.sra (rd : RegNum) (rt : RegNum) (amount : Nat) : EncodingAgrees.Statement (.sra rd rt amount) := by
  intro h
  refine ⟨opcodeRows[42], List.getElem_mem _, ?_, ?_⟩
  · refine beq_iff_eq.2 ?_
    change encode _ &&& registerWord 0b111111 0b11111 0b00000 0b00000 0b00000 0b111111 = registerWord 0b000000 0b00000 0b00000 0b00000 0b00000 0b000011
    simp [encode, registerWord_and]
  · change Instr.sra _ _ _ = _
    simp [encode, shamt_toNat (of_decide_eq_true h)]

theorem EncodingAgrees.sllv (rd : RegNum) (rt : RegNum) (rs : RegNum) : EncodingAgrees.Statement (.sllv rd rt rs) := by
  intro _
  refine ⟨opcodeRows[43], List.getElem_mem _, ?_, ?_⟩
  · refine beq_iff_eq.2 ?_
    change encode _ &&& registerWord 0b111111 0b00000 0b00000 0b00000 0b11111 0b111111 = registerWord 0b000000 0b00000 0b00000 0b00000 0b00000 0b000100
    simp [encode, registerWord_and]
  · change Instr.sllv _ _ _ = _
    simp [encode]

theorem EncodingAgrees.srlv (rd : RegNum) (rt : RegNum) (rs : RegNum) : EncodingAgrees.Statement (.srlv rd rt rs) := by
  intro _
  refine ⟨opcodeRows[44], List.getElem_mem _, ?_, ?_⟩
  · refine beq_iff_eq.2 ?_
    change encode _ &&& registerWord 0b111111 0b00000 0b00000 0b00000 0b11111 0b111111 = registerWord 0b000000 0b00000 0b00000 0b00000 0b00000 0b000110
    simp [encode, registerWord_and]
  · change Instr.srlv _ _ _ = _
    simp [encode]

theorem EncodingAgrees.srav (rd : RegNum) (rt : RegNum) (rs : RegNum) : EncodingAgrees.Statement (.srav rd rt rs) := by
  intro _
  refine ⟨opcodeRows[45], List.getElem_mem _, ?_, ?_⟩
  · refine beq_iff_eq.2 ?_
    change encode _ &&& registerWord 0b111111 0b00000 0b00000 0b00000 0b11111 0b111111 = registerWord 0b000000 0b00000 0b00000 0b00000 0b00000 0b000111
    simp [encode, registerWord_and]
  · change Instr.srav _ _ _ = _
    simp [encode]

theorem EncodingAgrees.beq (rs : RegNum) (rt : RegNum) (offset : Imm) : EncodingAgrees.Statement (.beq rs rt offset) := by
  intro _
  refine ⟨opcodeRows[46], List.getElem_mem _, ?_, ?_⟩
  · refine beq_iff_eq.2 ?_
    change encode _ &&& immediateWord 0b111111 0b00000 0b00000 0b0000000000000000 = immediateWord 0b000100 0b00000 0b00000 0b0000000000000000
    simp [encode, immediateWord_and]
  · change Instr.beq _ _ _ = _
    simp [encode]

theorem EncodingAgrees.bne (rs : RegNum) (rt : RegNum) (offset : Imm) : EncodingAgrees.Statement (.bne rs rt offset) := by
  intro _
  refine ⟨opcodeRows[47], List.getElem_mem _, ?_, ?_⟩
  · refine beq_iff_eq.2 ?_
    change encode _ &&& immediateWord 0b111111 0b00000 0b00000 0b0000000000000000 = immediateWord 0b000101 0b00000 0b00000 0b0000000000000000
    simp [encode, immediateWord_and]
  · change Instr.bne _ _ _ = _
    simp [encode]

theorem EncodingAgrees.blez (rs : RegNum) (offset : Imm) : EncodingAgrees.Statement (.blez rs offset) := by
  intro _
  refine ⟨opcodeRows[48], List.getElem_mem _, ?_, ?_⟩
  · refine beq_iff_eq.2 ?_
    change encode _ &&& immediateWord 0b111111 0b00000 0b11111 0b0000000000000000 = immediateWord 0b000110 0b00000 0b00000 0b0000000000000000
    simp [encode, immediateWord_and]
  · change Instr.blez _ _ = _
    simp [encode]

theorem EncodingAgrees.bgtz (rs : RegNum) (offset : Imm) : EncodingAgrees.Statement (.bgtz rs offset) := by
  intro _
  refine ⟨opcodeRows[49], List.getElem_mem _, ?_, ?_⟩
  · refine beq_iff_eq.2 ?_
    change encode _ &&& immediateWord 0b111111 0b00000 0b11111 0b0000000000000000 = immediateWord 0b000111 0b00000 0b00000 0b0000000000000000
    simp [encode, immediateWord_and]
  · change Instr.bgtz _ _ = _
    simp [encode]

theorem EncodingAgrees.bltz (rs : RegNum) (offset : Imm) : EncodingAgrees.Statement (.bltz rs offset) := by
  intro _
  refine ⟨opcodeRows[50], List.getElem_mem _, ?_, ?_⟩
  · refine beq_iff_eq.2 ?_
    change encode _ &&& immediateWord 0b111111 0b00000 0b11111 0b0000000000000000 = immediateWord 0b000001 0b00000 0b00000 0b0000000000000000
    simp [encode, immediateWord_and]
  · change Instr.bltz _ _ = _
    simp [encode]

theorem EncodingAgrees.bgez (rs : RegNum) (offset : Imm) : EncodingAgrees.Statement (.bgez rs offset) := by
  intro _
  refine ⟨opcodeRows[51], List.getElem_mem _, ?_, ?_⟩
  · refine beq_iff_eq.2 ?_
    change encode _ &&& immediateWord 0b111111 0b00000 0b11111 0b0000000000000000 = immediateWord 0b000001 0b00000 0b00001 0b0000000000000000
    simp [encode, immediateWord_and]
  · change Instr.bgez _ _ = _
    simp [encode]

theorem EncodingAgrees.bltzal (rs : RegNum) (offset : Imm) : EncodingAgrees.Statement (.bltzal rs offset) := by
  intro _
  refine ⟨opcodeRows[52], List.getElem_mem _, ?_, ?_⟩
  · refine beq_iff_eq.2 ?_
    change encode _ &&& immediateWord 0b111111 0b00000 0b11111 0b0000000000000000 = immediateWord 0b000001 0b00000 0b10000 0b0000000000000000
    simp [encode, immediateWord_and]
  · change Instr.bltzal _ _ = _
    simp [encode]

theorem EncodingAgrees.bgezal (rs : RegNum) (offset : Imm) : EncodingAgrees.Statement (.bgezal rs offset) := by
  intro _
  refine ⟨opcodeRows[53], List.getElem_mem _, ?_, ?_⟩
  · refine beq_iff_eq.2 ?_
    change encode _ &&& immediateWord 0b111111 0b00000 0b11111 0b0000000000000000 = immediateWord 0b000001 0b00000 0b10001 0b0000000000000000
    simp [encode, immediateWord_and]
  · change Instr.bgezal _ _ = _
    simp [encode]

theorem EncodingAgrees.jr (rs : RegNum) : EncodingAgrees.Statement (.jr rs) := by
  intro _
  refine ⟨opcodeRows[54], List.getElem_mem _, ?_, ?_⟩
  · refine beq_iff_eq.2 ?_
    change encode _ &&& registerWord 0b111111 0b00000 0b11111 0b11111 0b11111 0b111111 = registerWord 0b000000 0b00000 0b00000 0b00000 0b00000 0b001000
    simp [encode, registerWord_and]
  · change Instr.jr _ = _
    simp [encode]

theorem EncodingAgrees.jalr (rd : RegNum) (rs : RegNum) : EncodingAgrees.Statement (.jalr rd rs) := by
  intro _
  refine ⟨opcodeRows[55], List.getElem_mem _, ?_, ?_⟩
  · refine beq_iff_eq.2 ?_
    change encode _ &&& registerWord 0b111111 0b00000 0b11111 0b00000 0b11111 0b111111 = registerWord 0b000000 0b00000 0b00000 0b00000 0b00000 0b001001
    simp [encode, registerWord_and]
  · change Instr.jalr _ _ = _
    simp [encode]

theorem EncodingAgrees.syscall : EncodingAgrees.Statement .syscall := by
  intro _
  refine ⟨opcodeRows[56], List.getElem_mem _, ?_, ?_⟩
  · refine beq_iff_eq.2 ?_
    change encode _ &&& registerWord 0b111111 0b11111 0b11111 0b11111 0b11111 0b111111 = registerWord 0b000000 0b00000 0b00000 0b00000 0b00000 0b001100
    simp [encode, registerWord_and]
  · rfl

theorem EncodingAgrees.j (target : Target) : EncodingAgrees.Statement (.j target) := by
  intro _
  refine ⟨opcodeRows[57], List.getElem_mem _, ?_, ?_⟩
  · refine beq_iff_eq.2 ?_
    change encode _ &&& jumpWord 0b111111 0b00000000000000000000000000 = jumpWord 0b000010 0b00000000000000000000000000
    simp [encode, jumpWord_and]
  · change Instr.j _ = _
    simp [encode]

theorem EncodingAgrees.jal (target : Target) : EncodingAgrees.Statement (.jal target) := by
  intro _
  refine ⟨opcodeRows[58], List.getElem_mem _, ?_, ?_⟩
  · refine beq_iff_eq.2 ?_
    change encode _ &&& jumpWord 0b111111 0b00000000000000000000000000 = jumpWord 0b000011 0b00000000000000000000000000
    simp [encode, jumpWord_and]
  · change Instr.jal _ = _
    simp [encode]

end Sys2Proof.Laws
end

