-- ==== Sys2Proof/Tests/Slice0.lean ====
section
/-! SUPPORT. The author's tests: words written out from the encodings of spec/30_encoding.md and the instruction rules, steps
whose results are those of spec/95_test_vectors.md or worked out by hand from the rule named, and for each statement of
Certificates/Slice0/Obligations.lean with hypotheses a state that meets them. -/

namespace Sys2Proof.Tests

open Sys2Proof.Machine

/-! ## Well-formedness (R87) -/

theorem test_sll_32_illFormed : (Instr.sll 1 2 32).wellFormed = false := by decide
theorem test_srl_32_illFormed : (Instr.srl 1 2 32).wellFormed = false := by decide
theorem test_sra_32_illFormed : (Instr.sra 1 2 32).wellFormed = false := by decide

/-! ## Decoding: the fields of each word are the source's picture with Rs = 5, Rt = 18, Rd = Cd = 27, shift amount 11, immediate
0x8003 and target 0x2000001 (R88) -/

theorem test_decode_add : decodeWord 0b000000_00101_10010_11011_00000_100000#32 = .ok (.add 27 5 18) := rfl
theorem test_decode_addu : decodeWord 0b000000_00101_10010_11011_00000_100001#32 = .ok (.addu 27 5 18) := rfl
theorem test_decode_sub : decodeWord 0b000000_00101_10010_11011_00000_100010#32 = .ok (.sub 27 5 18) := rfl
theorem test_decode_subu : decodeWord 0b000000_00101_10010_11011_00000_100011#32 = .ok (.subu 27 5 18) := rfl
theorem test_decode_mult : decodeWord 0b000000_00101_10010_00000_00000_011000#32 = .ok (.mult 5 18) := rfl
theorem test_decode_multu : decodeWord 0b000000_00101_10010_00000_00000_011001#32 = .ok (.multu 5 18) := rfl
theorem test_decode_div : decodeWord 0b000000_00101_10010_00000_00000_011010#32 = .ok (.div 5 18) := rfl
theorem test_decode_divu : decodeWord 0b000000_00101_10010_00000_00000_011011#32 = .ok (.divu 5 18) := rfl
theorem test_decode_addi : decodeWord 0b001000_00101_10010_1000000000000011#32 = .ok (.addi 18 5 0x8003) := rfl
theorem test_decode_addiu : decodeWord 0b001001_00101_10010_1000000000000011#32 = .ok (.addiu 18 5 0x8003) := rfl
theorem test_decode_lb : decodeWord 0b100000_00101_10010_1000000000000011#32 = .ok (.lb 18 0x8003 5) := rfl
theorem test_decode_lh : decodeWord 0b100001_00101_10010_1000000000000011#32 = .ok (.lh 18 0x8003 5) := rfl
theorem test_decode_lwl : decodeWord 0b100010_00101_10010_1000000000000011#32 = .ok (.lwl 18 0x8003 5) := rfl
theorem test_decode_lw : decodeWord 0b100011_00101_10010_1000000000000011#32 = .ok (.lw 18 0x8003 5) := rfl
theorem test_decode_lbu : decodeWord 0b100100_00101_10010_1000000000000011#32 = .ok (.lbu 18 0x8003 5) := rfl
theorem test_decode_lhu : decodeWord 0b100101_00101_10010_1000000000000011#32 = .ok (.lhu 18 0x8003 5) := rfl
theorem test_decode_lwr : decodeWord 0b100110_00101_10010_1000000000000011#32 = .ok (.lwr 18 0x8003 5) := rfl
theorem test_decode_sb : decodeWord 0b101000_00101_10010_1000000000000011#32 = .ok (.sb 18 0x8003 5) := rfl
theorem test_decode_sh : decodeWord 0b101001_00101_10010_1000000000000011#32 = .ok (.sh 18 0x8003 5) := rfl
theorem test_decode_swl : decodeWord 0b101010_00101_10010_1000000000000011#32 = .ok (.swl 18 0x8003 5) := rfl
theorem test_decode_sw : decodeWord 0b101011_00101_10010_1000000000000011#32 = .ok (.sw 18 0x8003 5) := rfl
theorem test_decode_swr : decodeWord 0b101110_00101_10010_1000000000000011#32 = .ok (.swr 18 0x8003 5) := rfl
theorem test_decode_lui : decodeWord 0b001111_00000_10010_1000000000000011#32 = .ok (.lui 18 0x8003) := rfl
theorem test_decode_mfhi : decodeWord 0b000000_00000_00000_11011_00000_010000#32 = .ok (.mfhi 27) := rfl
theorem test_decode_mthi : decodeWord 0b000000_00101_00000_00000_00000_010001#32 = .ok (.mthi 5) := rfl
theorem test_decode_mflo : decodeWord 0b000000_00000_00000_11011_00000_010010#32 = .ok (.mflo 27) := rfl
theorem test_decode_mtlo : decodeWord 0b000000_00101_00000_00000_00000_010011#32 = .ok (.mtlo 5) := rfl
theorem test_decode_mfc0 : decodeWord 0b010000_00000_10010_11011_00000_000000#32 = .ok (.mfc0 18 27) := rfl
theorem test_decode_mtc0 : decodeWord 0b010000_00100_10010_11011_00000_000000#32 = .ok (.mtc0 18 27) := rfl
theorem test_decode_and : decodeWord 0b000000_00101_10010_11011_00000_100100#32 = .ok (.and 27 5 18) := rfl
theorem test_decode_or : decodeWord 0b000000_00101_10010_11011_00000_100101#32 = .ok (.or 27 5 18) := rfl
theorem test_decode_xor : decodeWord 0b000000_00101_10010_11011_00000_100110#32 = .ok (.xor 27 5 18) := rfl
theorem test_decode_nor : decodeWord 0b000000_00101_10010_11011_00000_100111#32 = .ok (.nor 27 5 18) := rfl
theorem test_decode_slt : decodeWord 0b000000_00101_10010_11011_00000_101010#32 = .ok (.slt 27 5 18) := rfl
theorem test_decode_sltu : decodeWord 0b000000_00101_10010_11011_00000_101011#32 = .ok (.sltu 27 5 18) := rfl
theorem test_decode_slti : decodeWord 0b001010_00101_10010_1000000000000011#32 = .ok (.slti 18 5 0x8003) := rfl
theorem test_decode_sltiu : decodeWord 0b001011_00101_10010_1000000000000011#32 = .ok (.sltiu 18 5 0x8003) := rfl
theorem test_decode_andi : decodeWord 0b001100_00101_10010_1000000000000011#32 = .ok (.andi 18 5 0x8003) := rfl
theorem test_decode_ori : decodeWord 0b001101_00101_10010_1000000000000011#32 = .ok (.ori 18 5 0x8003) := rfl
theorem test_decode_xori : decodeWord 0b001110_00101_10010_1000000000000011#32 = .ok (.xori 18 5 0x8003) := rfl
theorem test_decode_sll : decodeWord 0b000000_00000_10010_11011_01011_000000#32 = .ok (.sll 27 18 11) := rfl
theorem test_decode_srl : decodeWord 0b000000_00000_10010_11011_01011_000010#32 = .ok (.srl 27 18 11) := rfl
theorem test_decode_sra : decodeWord 0b000000_00000_10010_11011_01011_000011#32 = .ok (.sra 27 18 11) := rfl
theorem test_decode_sllv : decodeWord 0b000000_00101_10010_11011_00000_000100#32 = .ok (.sllv 27 18 5) := rfl
theorem test_decode_srlv : decodeWord 0b000000_00101_10010_11011_00000_000110#32 = .ok (.srlv 27 18 5) := rfl
theorem test_decode_srav : decodeWord 0b000000_00101_10010_11011_00000_000111#32 = .ok (.srav 27 18 5) := rfl
theorem test_decode_beq : decodeWord 0b000100_00101_10010_1000000000000011#32 = .ok (.beq 5 18 0x8003) := rfl
theorem test_decode_bne : decodeWord 0b000101_00101_10010_1000000000000011#32 = .ok (.bne 5 18 0x8003) := rfl
theorem test_decode_blez : decodeWord 0b000110_00101_00000_1000000000000011#32 = .ok (.blez 5 0x8003) := rfl
theorem test_decode_bgtz : decodeWord 0b000111_00101_00000_1000000000000011#32 = .ok (.bgtz 5 0x8003) := rfl
theorem test_decode_bltz : decodeWord 0b000001_00101_00000_1000000000000011#32 = .ok (.bltz 5 0x8003) := rfl
theorem test_decode_bgez : decodeWord 0b000001_00101_00001_1000000000000011#32 = .ok (.bgez 5 0x8003) := rfl
theorem test_decode_bltzal : decodeWord 0b000001_00101_10000_1000000000000011#32 = .ok (.bltzal 5 0x8003) := rfl
theorem test_decode_bgezal : decodeWord 0b000001_00101_10001_1000000000000011#32 = .ok (.bgezal 5 0x8003) := rfl
theorem test_decode_jr : decodeWord 0b000000_00101_00000_00000_00000_001000#32 = .ok (.jr 5) := rfl
theorem test_decode_jalr : decodeWord 0b000000_00101_00000_11011_00000_001001#32 = .ok (.jalr 27 5) := rfl
theorem test_decode_syscall : decodeWord 0b000000_00000_00000_00000_00000_001100#32 = .ok (.syscall) := rfl
theorem test_decode_j : decodeWord 0b000010_10000000000000000000000001#32 = .ok (.j 0x2000001) := rfl
theorem test_decode_jal : decodeWord 0b000011_10000000000000000000000001#32 = .ok (.jal 0x2000001) := rfl

/-- Words outside the table, one for each line of R93. -/
theorem test_reserved_words :
    decodeWord 0b111111_00000_00000_0000000000000000#32 = .error (.unlistedOpcode 0b111111) ∧
    decodeWord 0b000000_00000_00000_00000_00000_001101#32 = .error (.unlistedFunction 0b001101) ∧
    decodeWord 0b000001_00000_00010_0000000000000000#32 = .error (.unlistedBranchSelector 0b00010) ∧
    decodeWord 0b010000_10000_00000_00000_00000_011000#32 = .error (.unlistedCop0Selector 0b10000) ∧
    decodeWord 0b000000_00000_00000_00000_00001_001100#32 = .error .fixedFieldNotZero :=
  ⟨rfl, rfl, rfl, rfl, rfl⟩

/-- The first word is in the low bytes, lowest address first (R54): `add $3,$1,$2` is the bytes 20 18 22 00. -/
theorem test_decode_bytes : decode [0x20, 0x18, 0x22, 0x00, 0x7F] = .ok (.add 3 1 2, [0x7F]) := rfl
theorem test_decode_truncated : decode [0x20, 0x18, 0x22] = .error .truncated := rfl
theorem test_decodeTableWord : decodeTableWord 32 0x00221820 = some (.add 3 1 2) := by decide
theorem test_withFetchWord_runs :
    (match step (State.reset.withFetchWord 32 0x24020007) with | .next t => some (t.readReg 2, t.pc) | _ => none)
      = some (0x00000007, 0x00001004) := by decide

/-! ## Steps: before each, the fixture of spec/95_test_vectors.md section 2 with two registers set -/

/-- The fixture: the word of `add $3,$1,$2` at 0x1000, eight bytes at 0x2000, everything else unpopulated. -/
def fixture (a b : Word) : State :=
  ((State.resetWith 0x00001000
    { populated := [⟨0x1000, 0x1004⟩, ⟨0x2000, 0x2008⟩],
      cells := [(0x1000, 0x20), (0x1001, 0x18), (0x1002, 0x22), (0x2000, 0x44), (0x2001, 0x33), (0x2002, 0x22),
        (0x2003, 0x11), (0x2004, 0x88), (0x2005, 0x99), (0x2006, 0xAA), (0x2007, 0xFF)] }
    Config.Params.standard (.scripted [])).writeReg 1 a).writeReg 2 b

/-- What a register holds after an instruction that takes no trap. -/
def regAfter (i : Instr) (s : State) (r : RegNum) : Option Word :=
  match exec i s with
  | .next t => if t.trap = none then some (t.readReg r) else none
  | _ => none

/-- `hi` and `lo` after an instruction that takes no trap. -/
def hiLoAfter (i : Instr) (s : State) : Option (Word × Word) :=
  match exec i s with
  | .next t => if t.trap = none then some (t.hi, t.lo) else none
  | _ => none

/-- `pc` after an instruction that takes no trap. -/
def pcAfter (i : Instr) (s : State) : Option Word :=
  match exec i s with
  | .next t => if t.trap = none then some t.pc else none
  | _ => none

/-- The eight fixture bytes after an instruction, lowest address first. -/
def bytesAfter (i : Instr) (s : State) : Option (List (Option Byte)) :=
  match exec i s with
  | .next t => some ([0x2000, 0x2001, 0x2002, 0x2003, 0x2004, 0x2005, 0x2006, 0x2007].map t.mem.read)
  | _ => none

/-- The trap an instruction takes. -/
def trapAfter (i : Instr) (s : State) : Option Trap :=
  match exec i s with
  | .next t => t.trap
  | _ => none

-- spec/95_test_vectors.md section 2.1
theorem test_add_discards_x0_yet_traps :
    trapAfter (.add 0 1 2) (fixture 0x7FFFFFFF 0x7FFFFFFF) = some ⟨.integerOverflow, 0x1000⟩ := by decide
theorem test_add_minus_one_plus_one : regAfter (.add 3 1 2) (fixture 0xFFFFFFFF 1) 3 = some 0 := by decide
theorem test_addu_wraps : regAfter (.addu 3 1 2) (fixture 0x7FFFFFFF 1) 3 = some 0x80000000 := by decide
theorem test_sub_negative : regAfter (.sub 3 1 2) (fixture 5 7) 3 = some 0xFFFFFFFE := by decide
theorem test_sub_overflow :
    trapAfter (.sub 3 1 2) (fixture 0 0x80000000) = some ⟨.integerOverflow, 0x1000⟩ := by decide
theorem test_subu_wraps : regAfter (.subu 3 1 2) (fixture 0x80000000 1) 3 = some 0x7FFFFFFF := by decide
theorem test_mult_signed : hiLoAfter (.mult 1 2) (fixture 0xFFFFFFFE 3) = some (0xFFFFFFFF, 0xFFFFFFFA) := by decide
theorem test_multu_unsigned : hiLoAfter (.multu 1 2) (fixture 0xFFFFFFFE 3) = some (2, 0xFFFFFFFA) := by decide
theorem test_div_truncates : hiLoAfter (.div 1 2) (fixture 0xFFFFFFF9 2) = some (0xFFFFFFFF, 0xFFFFFFFD) := by decide
theorem test_div_overflow : hiLoAfter (.div 1 2) (fixture 0x80000000 0xFFFFFFFF) = some (0, 0x80000000) := by decide
theorem test_divu_floors : hiLoAfter (.divu 1 2) (fixture 0xFFFFFFF9 2) = some (1, 0x7FFFFFFC) := by decide
theorem test_divu_by_zero_advances : pcAfter (.divu 1 2) (fixture 5 0) = some 0x1004 := by decide
theorem test_addi_overflow :
    trapAfter (.addi 2 1 0x8000) (fixture 0x80000000 0) = some ⟨.integerOverflow, 0x1000⟩ := by decide
theorem test_addi_signExtends : regAfter (.addi 2 1 0x8000) (fixture 0xFFFFFFFF 0) 2 = some 0xFFFF7FFF := by decide
theorem test_addiu_signExtends : regAfter (.addiu 2 1 0x8000) (fixture 0x00010000 0) 2 = some 0x00008000 := by decide

-- spec/41_data_transfer.md and spec/95_test_vectors.md section 2.2
theorem test_lb_signExtends : regAfter (.lb 3 4 1) (fixture 0x2000 0) 3 = some 0xFFFFFF88 := by decide
theorem test_lbu_zeroExtends : regAfter (.lbu 3 4 1) (fixture 0x2000 0) 3 = some 0x00000088 := by decide
theorem test_lh_signExtends : regAfter (.lh 3 6 1) (fixture 0x2000 0) 3 = some 0xFFFFFFAA := by decide
theorem test_lh_odd : trapAfter (.lh 3 1 1) (fixture 0x2000 0) = some ⟨.addressErrorLoad 0x2001, 0x1000⟩ := by decide
theorem test_lhu_zeroExtends : regAfter (.lhu 3 6 1) (fixture 0x2000 0) 3 = some 0x0000FFAA := by decide
theorem test_lw_littleEndian : regAfter (.lw 3 0 1) (fixture 0x2000 0) 3 = some 0x11223344 := by decide
theorem test_lw_misaligned_before_unpopulated :
    trapAfter (.lw 3 2 1) (fixture 0x3000 0) = some ⟨.addressErrorLoad 0x3002, 0x1000⟩ := by decide
theorem test_lwl_merges : regAfter (.lwl 2 1 1) (fixture 0x2000 0xDEADBEEF) 2 = some 0x3344BEEF := by decide
theorem test_lwr_merges : regAfter (.lwr 2 1 1) (fixture 0x2000 0xDEADBEEF) 2 = some 0xDE112233 := by decide
theorem test_sb_lowByte : bytesAfter (.sb 2 7 1) (fixture 0x2000 0xDEADBE00) =
    some [some 0x44, some 0x33, some 0x22, some 0x11, some 0x88, some 0x99, some 0xAA, some 0x00] := by decide
theorem test_sh_littleEndian : bytesAfter (.sh 2 2 1) (fixture 0x2000 0xDEADBEEF) =
    some [some 0x44, some 0x33, some 0xEF, some 0xBE, some 0x88, some 0x99, some 0xAA, some 0xFF] := by decide
theorem test_sh_odd : trapAfter (.sh 2 1 1) (fixture 0x2000 0) = some ⟨.addressErrorStore 0x2001, 0x1000⟩ := by decide
theorem test_sw_littleEndian : bytesAfter (.sw 2 4 1) (fixture 0x2000 0xDEADBEEF) =
    some [some 0x44, some 0x33, some 0x22, some 0x11, some 0xEF, some 0xBE, some 0xAD, some 0xDE] := by decide
theorem test_sw_unpopulated : exec (.sw 2 8 1) (fixture 0x2000 0) = .fault (.memoryFault 0x2008) := rfl
theorem test_swl_down : bytesAfter (.swl 2 1 1) (fixture 0x2000 0xDEADBEEF) =
    some [some 0xAD, some 0xDE, some 0x22, some 0x11, some 0x88, some 0x99, some 0xAA, some 0xFF] := by decide
theorem test_swr_up : bytesAfter (.swr 2 1 1) (fixture 0x2000 0xDEADBEEF) =
    some [some 0x44, some 0xEF, some 0xBE, some 0xAD, some 0x88, some 0x99, some 0xAA, some 0xFF] := by decide
theorem test_lui_shifts : regAfter (.lui 3 0x8003) (fixture 0 0) 3 = some 0x80030000 := by decide
theorem test_mfhi : regAfter (.mfhi 3) { fixture 0 0 with hi := 7 } 3 = some 7 := by decide
theorem test_mflo : regAfter (.mflo 3) { fixture 0 0 with lo := 9 } 3 = some 9 := by decide
theorem test_mthi : hiLoAfter (.mthi 1) { fixture 6 0 with lo := 9 } = some (6, 9) := by decide
theorem test_mtlo : hiLoAfter (.mtlo 1) { fixture 6 0 with hi := 9 } = some (9, 6) := by decide
theorem test_mfc0 : regAfter (.mfc0 3 13) ((fixture 0 0).writeCp0 13 5) 3 = some 5 := by decide
theorem test_mtc0 : (match exec (.mtc0 1 13) (fixture 6 0) with | .next t => t.readCp0 13 | _ => 0) = 6 := by decide

-- spec/42_logical.md and spec/95_test_vectors.md section 2.3
theorem test_and : regAfter (.and 3 1 2) (fixture 0xF0F0FF00 0xFF00F0F0) 3 = some 0xF000F000 := by decide
theorem test_or : regAfter (.or 3 1 2) (fixture 0xF0F0FF00 0xFF00F0F0) 3 = some 0xFFF0FFF0 := by decide
theorem test_xor : regAfter (.xor 3 1 2) (fixture 0xF0F0FF00 0xFF00F0F0) 3 = some 0x0FF00FF0 := by decide
theorem test_nor : regAfter (.nor 3 1 2) (fixture 0xF0F0FF00 0xFF00F0F0) 3 = some 0x000F000F := by decide
theorem test_slt_signed : regAfter (.slt 3 1 2) (fixture 0x80000000 1) 3 = some 1 := by decide
theorem test_sltu_unsigned : regAfter (.sltu 3 1 2) (fixture 0x80000000 1) 3 = some 0 := by decide
theorem test_slti_signExtends : regAfter (.slti 2 1 0xFFFF) (fixture 0xFFFFFFFE 0) 2 = some 1 := by decide
theorem test_sltiu_zeroExtends : regAfter (.sltiu 2 1 0xFFFF) (fixture 0x0000FFFF 0) 2 = some 0 := by decide
theorem test_sltiu_other_setting : regAfter (.sltiu 2 1 0xFFFF)
    { fixture 0x0000FFFF 0 with params := { Config.Params.standard with sltiuImmExt := .sign } } 2 = some 1 := by decide
theorem test_andi_zeroExtends : regAfter (.andi 2 1 0xF0F0) (fixture 0xFFFFFF00 0) 2 = some 0x0000F000 := by decide
theorem test_ori_zeroExtends : regAfter (.ori 2 1 0xF0F0) (fixture 0x12340F00 0) 2 = some 0x1234FFF0 := by decide
theorem test_xori_zeroExtends : regAfter (.xori 2 1 0xF0F0) (fixture 0x1234FFFF 0) 2 = some 0x12340F0F := by decide

-- spec/43_shift.md
theorem test_sll_31 : regAfter (.sll 3 1 31) (fixture 3 0) 3 = some 0x80000000 := by decide
theorem test_srl_31 : regAfter (.srl 3 1 31) (fixture 0x80000000 0) 3 = some 1 := by decide
theorem test_sra_31 : regAfter (.sra 3 1 31) (fixture 0x80000000 0) 3 = some 0xFFFFFFFF := by decide
theorem test_sllv_ignores_high_bits : regAfter (.sllv 3 1 2) (fixture 3 0xFFFFFFE1) 3 = some 6 := by decide
theorem test_srlv_ignores_high_bits : regAfter (.srlv 3 1 2) (fixture 0x80000000 0xFFFFFFE1) 3 = some 0x40000000 := by decide
theorem test_srav_ignores_high_bits : regAfter (.srav 3 1 2) (fixture 0x80000000 0xFFFFFFE1) 3 = some 0xC0000000 := by decide

-- spec/44_branch.md: offsets count words from pc + 4
theorem test_beq_taken_back : pcAfter (.beq 1 2 0xFFFF) (fixture 5 5) = some 0x1000 := by decide
theorem test_bne_not_taken : pcAfter (.bne 1 2 0x0010) (fixture 5 5) = some 0x1004 := by decide
theorem test_blez_zero : pcAfter (.blez 1 2) (fixture 0 0) = some 0x100C := by decide
theorem test_bgtz_negative : pcAfter (.bgtz 1 2) (fixture 0x80000000 0) = some 0x1004 := by decide
theorem test_bltz_negative : pcAfter (.bltz 1 2) (fixture 0x80000000 0) = some 0x100C := by decide
theorem test_bgez_zero : pcAfter (.bgez 1 2) (fixture 0 0) = some 0x100C := by decide
theorem test_bltzal_links_not_taken : regAfter (.bltzal 1 2) (fixture 0 0) 31 = some 0x1004 := by decide
theorem test_bltzal_taken : pcAfter (.bltzal 1 2) (fixture 0xFFFFFFFF 0) = some 0x100C := by decide
theorem test_bgezal_tests_old_ra :
    pcAfter (.bgezal 31 2) ((fixture 0 0).writeReg 31 0x80000000) = some 0x1004 := by decide
theorem test_bgezal_links : regAfter (.bgezal 1 2) (fixture 0 0) 31 = some 0x1004 := by decide

-- spec/45_jump.md
theorem test_j_keeps_region : pcAfter (.j 1) { fixture 0 0 with pc := 0x9FFFFFFC } = some 0xA0000004 := by decide
theorem test_jal_links : regAfter (.jal 1) (fixture 0 0) 31 = some 0x1004 := by decide
theorem test_jal_target : pcAfter (.jal 0x3FFFFFF) (fixture 0 0) = some 0x0FFFFFFC := by decide
theorem test_jr_any_address : pcAfter (.jr 1) (fixture 0x00003001 0) = some 0x00003001 := by decide
theorem test_jalr_same_register : pcAfter (.jalr 1 1) (fixture 0x2000 0) = some 0x2000 := by decide
theorem test_jalr_links : regAfter (.jalr 1 1) (fixture 0x2000 0) 1 = some 0x1004 := by decide
theorem test_syscall : trapAfter .syscall (fixture 0 0) = some ⟨.systemCall, 0x1000⟩ := by decide
theorem test_syscall_exits :
    step { fixture 0 0 with trap := some ⟨.systemCall, 0x1000⟩ } = .fault (.exit 0x1000) := rfl

-- spec/10_state.md R27, spec/20_memory.md R69
theorem test_step_fetches_and_runs :
    (match step (fixture 1 2) with | .next t => some (t.readReg 3, t.pc) | _ => none) = some (3, 0x1004) := by decide
theorem test_step_refuses_stored_bytes :
    step { fixture 1 2 with stored := [0x1002] } = .refused (.storedFetch 0x1002) := rfl

-- spec/60_exceptions.md R276
/-- An operating system that ends the run if `$2` holds 10, and else writes some places and goes on past the `syscall`. -/
def smallSystem : EnvTrap := fun t s =>
  if s.readReg 2 = 10 then none
  else some { writes := [.reg 2 6, .reg 2 5, .reg 0 9, .hi 1, .byte 0x2000 7, .byte 0x3000 7], pc := t.epc + 4 }

theorem test_environment_ends :
    stepUnder smallSystem { fixture 0 10 with trap := some ⟨.systemCall, 0x1000⟩ } = .fault (.exit 0x1000) := rfl
theorem test_environment_resumes :
    (match stepUnder smallSystem { fixture 0 4 with trap := some ⟨.systemCall, 0x1000⟩ } with
      | .next t => some (t.pc, t.readReg 2, t.readReg 0, t.hi, t.mem.read 0x2000, t.mem.read 0x3000)
      | _ => none) = some (0x1004, 5, 0, 1, some 7, none) := by decide

/-! ## States that meet the hypotheses of the statements, each clause at a boundary of its range -/

/-- The fixture with all of the address space populated. -/
def wide (a b : Word) : State :=
  ((State.resetWith 0x00001000 { populated := [⟨0, 2 ^ 32⟩], cells := [(0x1000, 0x20), (0x1001, 0x18), (0x1002, 0x22)] }
    Config.Params.standard (.scripted [])).writeReg 1 a).writeReg 2 b

/-- The parameters away from their defaults. -/
def otherParams : Config.Params := { cp0Model := .refuse, sltiuImmExt := .sign, divOvf := .draw }

/-- TrappingAddSubAreSigned, OverflowBitTestIsExactRange: sums and differences at both ends of the range and just outside. -/
theorem test_witness_TrappingAddSubAreSigned :
    FitsSigned (((fixture 0x7FFFFFFE 1).readReg 1).toInt + ((fixture 0x7FFFFFFE 1).readReg 2).toInt) ∧
    ¬ FitsSigned (((fixture 0x7FFFFFFF 1).readReg 1).toInt + ((fixture 0x7FFFFFFF 1).readReg 2).toInt) ∧
    FitsSigned (((fixture 0x80000001 1).readReg 1).toInt - ((fixture 0x80000001 1).readReg 2).toInt) ∧
    ¬ FitsSigned (((fixture 0x80000000 1).readReg 1).toInt - ((fixture 0x80000000 1).readReg 2).toInt) ∧
    FitsSigned (((fixture 0x80008000 0).readReg 1).toInt + (0x8000 : Imm).toInt) ∧
    ¬ FitsSigned (((fixture 0x80007FFF 0).readReg 1).toInt + (0x8000 : Imm).toInt) := by
  unfold FitsSigned; decide

theorem test_witness_SignedDivisionTruncates :
    (((fixture 0x80000000 1).readReg 2).toInt ≠ 0 ∧
      ¬ (((fixture 0x80000000 1).readReg 1).toInt = -2 ^ 31 ∧ ((fixture 0x80000000 1).readReg 2).toInt = -1)) ∧
    (((fixture 0x80000000 0xFFFFFFFF).readReg 1).toInt = -2 ^ 31 ∧
      ((fixture 0x80000000 0xFFFFFFFF).readReg 2).toInt = -1 ∧
      (fixture 0x80000000 0xFFFFFFFF).params.divOvf = .value 0x80000000 0) ∧
    ({ fixture 0x80000000 0xFFFFFFFF with params := otherParams } : State).params.divOvf = .draw ∧
    ((fixture 5 0).readReg 2).toInt = 0 := by decide

theorem test_witness_UnsignedDivisionFloors :
    ((fixture 5 1).readReg 2).toNat ≠ 0 ∧ ((fixture 5 0).readReg 2).toNat = 0 := by decide

theorem test_witness_DivisionIdentity :
    (fixture 0x80000000 0xFFFFFFFF).readReg 2 ≠ 0#32 ∧
    (fixture 0x80000000 0xFFFFFFFF).params.divOvf = .value 0x80000000#32 0#32 ∧
    ({ fixture 0x80000001 0xFFFFFFFF with params := otherParams } : State).params.divOvf = .draw ∧
    ¬ (((fixture 0x80000001 0xFFFFFFFF).readReg 1).toInt = -2 ^ 31 ∧
      ((fixture 0x80000001 0xFFFFFFFF).readReg 2).toInt = -1) := by decide

theorem test_witness_ByteLoadsExtend :
    (fixture 0x2000 0).mem.read ((fixture 0x2000 0).readReg 1 + (7 : Imm).signExtend 32) = some 0xFF := by decide

/-- HalfwordLoadsExtendOrTrap: the last halfword of the region, and the odd address after it. -/
theorem test_witness_HalfwordLoadsExtendOrTrap :
    ((0x2006#32 = (fixture 0x2000 0).readReg 1 + (6 : Imm).signExtend 32) ∧ (0x2006#32).getLsbD 0 = false ∧
      (fixture 0x2000 0).mem.read 0x2006#32 = some 0xAA ∧ (fixture 0x2000 0).mem.read (0x2006#32 + 1#32) = some 0xFF) ∧
    ((0x2007#32 = (fixture 0x2000 0).readReg 1 + (7 : Imm).signExtend 32) ∧ (0x2007#32).getLsbD 0 = true) := by decide

/-- WordLoadOrTrap: the last word of the region, and the address before it. -/
theorem test_witness_WordLoadOrTrap :
    ((0x2004#32 = (fixture 0x2000 0).readReg 1 + (4 : Imm).signExtend 32) ∧ (0x2004#32).toNat % 4 = 0 ∧
      (fixture 0x2000 0).mem.read 0x2004#32 = some 0x88 ∧ (fixture 0x2000 0).mem.read (0x2004#32 + 1#32) = some 0x99 ∧
      (fixture 0x2000 0).mem.read (0x2004#32 + 2#32) = some 0xAA ∧
      (fixture 0x2000 0).mem.read (0x2004#32 + 3#32) = some 0xFF) ∧
    ((0x2003#32 = (fixture 0x2000 0).readReg 1 + (3 : Imm).signExtend 32) ∧ (0x2003#32).toNat % 4 ≠ 0) := by decide

/-- LoadWordLeftMerges, LoadWordRightMerges: the last word of the region, and an effective address at each of its bytes. -/
theorem test_witness_LoadWordMerges :
    (0x2004#32).toNat % 4 = 0 ∧
    ((fixture 0x2000 0).mem.read 0x2004#32 = some 0x88 ∧ (fixture 0x2000 0).mem.read (0x2004#32 + 1#32) = some 0x99 ∧
      (fixture 0x2000 0).mem.read (0x2004#32 + 2#32) = some 0xAA ∧
      (fixture 0x2000 0).mem.read (0x2004#32 + 3#32) = some 0xFF) ∧
    (fixture 0x2000 0).readReg 1 + (4 : Imm).signExtend 32 = 0x2004#32 ∧
    (fixture 0x2000 0).readReg 1 + (5 : Imm).signExtend 32 = 0x2004#32 + 1#32 ∧
    (fixture 0x2000 0).readReg 1 + (6 : Imm).signExtend 32 = 0x2004#32 + 2#32 ∧
    (fixture 0x2000 0).readReg 1 + (7 : Imm).signExtend 32 = 0x2004#32 + 3#32 := by decide

theorem test_witness_UnalignedLoadPair :
    ((2 : RegNum) = 0#5 ∨ (2 : RegNum) ≠ 1) ∧ ((0 : RegNum) = 0#5 ∨ (0 : RegNum) ≠ 1) ∧ (fixture 0x2003 0).readReg 1 = 0x2003#32 ∧
    (fixture 0x2003 0).mem.read 0x2003#32 = some 0x11 ∧ (fixture 0x2003 0).mem.read (0x2003#32 + 1#32) = some 0x88 ∧
    (fixture 0x2003 0).mem.read (0x2003#32 + 2#32) = some 0x99 ∧
    (fixture 0x2003 0).mem.read (0x2003#32 + 3#32) = some 0xAA := by decide

/-- AlignedStores: the last byte, halfword and word of the region, and misaligned addresses. -/
theorem test_witness_AlignedStores :
    (fixture 0x2000 7).wf = true ∧
    ((0x2007#32 = (fixture 0x2000 7).readReg 1 + (7 : Imm).signExtend 32) ∧
      (fixture 0x2000 7).mem.isPopulated 0x2007#32 = true ∧ (0x2007#32).getLsbD 0 = true ∧ (0x2007#32).toNat % 4 ≠ 0) ∧
    ((0x2006#32 = (fixture 0x2000 7).readReg 1 + (6 : Imm).signExtend 32) ∧ (0x2006#32).getLsbD 0 = false ∧
      (fixture 0x2000 7).mem.isPopulated 0x2006#32 = true ∧ (fixture 0x2000 7).mem.isPopulated (0x2006#32 + 1#32) = true) ∧
    ((0x2004#32 = (fixture 0x2000 7).readReg 1 + (4 : Imm).signExtend 32) ∧ (0x2004#32).toNat % 4 = 0 ∧
      (fixture 0x2000 7).mem.isPopulated 0x2004#32 = true ∧ (fixture 0x2000 7).mem.isPopulated (0x2004#32 + 1#32) = true ∧
      (fixture 0x2000 7).mem.isPopulated (0x2004#32 + 2#32) = true ∧
      (fixture 0x2000 7).mem.isPopulated (0x2004#32 + 3#32) = true) := by decide

/-- StoreWordLeftBytes, StoreWordRightBytes: the last word of the region, and an effective address at each of its bytes. -/
theorem test_witness_StoreWordParts :
    (fixture 0x2000 7).wf = true ∧ (0x2004#32).toNat % 4 = 0 ∧ (7#32 = (fixture 0x2000 7).readReg 2) ∧
    ((fixture 0x2000 7).mem.isPopulated 0x2004#32 = true ∧ (fixture 0x2000 7).mem.isPopulated (0x2004#32 + 1#32) = true ∧
      (fixture 0x2000 7).mem.isPopulated (0x2004#32 + 2#32) = true ∧
      (fixture 0x2000 7).mem.isPopulated (0x2004#32 + 3#32) = true) ∧
    (fixture 0x2000 7).readReg 1 + (4 : Imm).signExtend 32 = 0x2004#32 ∧
    (fixture 0x2000 7).readReg 1 + (5 : Imm).signExtend 32 = 0x2004#32 + 1#32 ∧
    (fixture 0x2000 7).readReg 1 + (6 : Imm).signExtend 32 = 0x2004#32 + 2#32 ∧
    (fixture 0x2000 7).readReg 1 + (7 : Imm).signExtend 32 = 0x2004#32 + 3#32 := by decide

/-- UnalignedStorePair: an address whose four bytes wrap around the end of the address space. -/
theorem test_witness_UnalignedStorePair :
    (wide 0xFFFFFFFD 7).wf = true ∧ (wide 0xFFFFFFFD 7).readReg 1 = 0xFFFFFFFD#32 ∧ (wide 0xFFFFFFFD 7).readReg 2 = 7#32 ∧
    (wide 0xFFFFFFFD 7).mem.isPopulated 0xFFFFFFFD#32 = true ∧
    (wide 0xFFFFFFFD 7).mem.isPopulated (0xFFFFFFFD#32 + 1#32) = true ∧
    (wide 0xFFFFFFFD 7).mem.isPopulated (0xFFFFFFFD#32 + 2#32) = true ∧
    (wide 0xFFFFFFFD 7).mem.isPopulated (0xFFFFFFFD#32 + 3#32) = true := by decide

theorem test_witness_MixedWidthReads :
    (fixture 0x2000 7).wf = true ∧ (0x2004#32 = (fixture 0x2000 7).readReg 1 + (4 : Imm).signExtend 32) ∧
    (7#32 = (fixture 0x2000 7).readReg 2) ∧ (0x2004#32).toNat % 4 = 0 ∧
    ∃ t, exec (.sw 2 4 1) (fixture 0x2000 7) = .next t ∧ t.trap = (fixture 0x2000 7).trap :=
  ⟨by decide, by decide, by decide, by decide, _, rfl, rfl⟩

/-- UnpopulatedAccessFaults: the first word after the region, and an `sh` to the last halfword before it. -/
theorem test_witness_UnpopulatedAccessFaults :
    ((Instr.lw 3 8 1).aligned (fixture 0x2000 0) = true ∧
      ∃ a ∈ (Instr.lw 3 8 1).touchedAddresses (fixture 0x2000 0), (fixture 0x2000 0).mem.isPopulated a = false) ∧
    ((Instr.sh 2 0xFFFE 1).aligned (fixture 0x2000 0) = true ∧
      ∃ a ∈ (Instr.sh 2 0xFFFE 1).touchedAddresses (fixture 0x2000 0), (fixture 0x2000 0).mem.isPopulated a = false) :=
  ⟨⟨by decide, 0x2008, by decide, by decide⟩, by decide, 0x1FFF, by decide, by decide⟩

theorem test_witness_ControlRegisterMoves :
    (fixture 0 0).params.cp0Model = .storage ∧
    ({ fixture 0 0 with params := otherParams } : State).params.cp0Model = .refuse := by decide

theorem test_witness_BitwiseImmediateResults : (fixture 0xFFFF8000 0).readReg 1 = 0xFFFF#16 ++ 0x8000#16 := by decide

theorem test_witness_SltiuBothSettings :
    (fixture 0 0).params.sltiuImmExt = .zero ∧ (0x7FFF : Imm).getLsbD 15 = false ∧
    ({ fixture 0 0 with params := otherParams } : State).params.sltiuImmExt = .sign ∧
    (0x8000 : Imm).getLsbD 15 = true := by decide

theorem test_witness_ConstantShifts : 0 < 32 ∧ 31 < 32 := by decide

theorem test_witness_VariableShifts :
    (31 = ((fixture 3 0xFFFFFFFF).readReg 2).toNat % 32) ∧ (0 = ((fixture 3 0xFFFFFFE0).readReg 2).toNat % 32) := by decide

/-- ConditionalBranches, LinkingBranches, RegionJumps: a `pc` at the end of the address space, and the farthest branch back. -/
theorem test_witness_Targets :
    (0#32 = ({ fixture 0 0 with pc := 0xFFFFFFFC } : State).pc + 4#32) ∧
    (0xFFFE0000#32 = 0#32 + ((0x8000 : Imm).signExtend 32 <<< 2)) ∧
    (0x0FFFFFFC#32 = (0#32 &&& 0xF0000000#32) ||| ((0x3FFFFFF : Target).setWidth 32 <<< 2)) := by decide

theorem test_witness_SyscallTakesSystemCall : (fixture 0 0).env = .scripted [] := by decide

theorem test_witness_StepRunsDecodedInstruction :
    (fixture 1 2).trap = none ∧ (fixture 1 2).pc.toNat % 4 = 0 ∧ (fixture 1 2).mem.read (fixture 1 2).pc = some 0x20 ∧
    (fixture 1 2).mem.read ((fixture 1 2).pc + 1#32) = some 0x18 ∧
    (fixture 1 2).mem.read ((fixture 1 2).pc + 2#32) = some 0x22 ∧
    (fixture 1 2).mem.read ((fixture 1 2).pc + 3#32) = some 0x00 ∧
    (∀ a ∈ fetchAddresses (fixture 1 2).pc, a.toNat ∉ (fixture 1 2).stored) ∧
    decode [0x20, 0x18, 0x22, 0x00] = .ok (.add 3 1 2, []) :=
  ⟨by decide, by decide, by decide, by decide, by decide, by decide, fun _ _ => List.not_mem_nil, rfl⟩

/-- FetchPriority: a misaligned `pc`, the first word after the populated one, a stored last byte, a reserved word. -/
theorem test_witness_FetchPriority :
    (({ fixture 0 0 with pc := 0x1003 } : State).trap = none ∧
      ({ fixture 0 0 with pc := 0x1003 } : State).pc.toNat % 4 ≠ 0) ∧
    (({ fixture 0 0 with pc := 0x1004 } : State).pc.toNat % 4 = 0 ∧
      ∃ a ∈ fetchAddresses ({ fixture 0 0 with pc := 0x1004 } : State).pc, (fixture 0 0).mem.isPopulated a = false) ∧
    ((fixture 0 0).pc.toNat % 4 = 0 ∧ (∀ a ∈ fetchAddresses (fixture 0 0).pc, (fixture 0 0).mem.isPopulated a = true) ∧
      ∃ a ∈ fetchAddresses (fixture 0 0).pc, a.toNat ∈ ({ fixture 0 0 with stored := [0x1003] } : State).stored) ∧
    (({ fixture 0 0 with pc := 0x2004 } : State).readWord 0x2004 = .ok 0xFFAA9988#32 ∧
      (∀ a ∈ fetchAddresses 0x2004#32, a.toNat ∉ (fixture 0 0).stored) ∧ ∀ i, decodeWord 0xFFAA9988#32 ≠ .ok i) :=
  ⟨by decide, ⟨by decide, 0x1004, by decide, by decide⟩,
    ⟨by decide, fun a ha => by
      simp only [fetchAddresses, List.mem_cons, List.not_mem_nil, or_false] at ha
      rcases ha with rfl | rfl | rfl | rfl <;> decide, 0x1003, by decide, by decide⟩,
    rfl, fun _ _ => List.not_mem_nil, fun _ h => by cases h⟩

/-- TrapsArePrecise: an overflow and a misaligned `pc`. -/
theorem test_witness_TrapsArePrecise :
    ((fixture 0x7FFFFFFF 1).trap = none ∧ ∃ t, step (fixture 0x7FFFFFFF 1) = .next t ∧ t.trap ≠ none) ∧
    ∃ t, step { fixture 0 0 with pc := 0x1002 } = .next t ∧ t.trap ≠ none :=
  ⟨⟨rfl, _, rfl, nofun⟩, _, rfl, nofun⟩

theorem test_witness_WhoRaisesWhat :
    (fixture 0x7FFFFFFF 1).trap = none ∧
    (∃ t, exec (.add 3 1 2) (fixture 0x7FFFFFFF 1) = .next t ∧
      t.trap = some { cause := .integerOverflow, epc := 0x1000 }) ∧
    (∃ t, exec (.lh 3 1 1) (fixture 0x2000 0) = .next t ∧
      t.trap = some { cause := .addressErrorLoad 0x2001, epc := 0x1000 }) ∧
    (∃ t, exec (.sw 2 3 1) (fixture 0x2000 0) = .next t ∧
      t.trap = some { cause := .addressErrorStore 0x2003, epc := 0x1000 }) ∧
    ∃ t, exec .syscall (fixture 0 0) = .next t ∧ t.trap = some { cause := .systemCall, epc := 0x1000 } :=
  ⟨rfl, ⟨_, rfl, by decide⟩, ⟨_, rfl, by decide⟩, ⟨_, rfl, by decide⟩, _, rfl, by decide⟩

theorem test_witness_ExecStopsOnlyAsSpecSays :
    exec (.lbu 3 8 1) (fixture 0x2000 0) = .fault (.memoryFault 0x2008) ∧
    exec (.mfc0 3 0) { fixture 0 0 with params := otherParams } = .refused .cp0Refused := ⟨rfl, rfl⟩

/-- A state in which a trap waits, in a given environment. -/
def trapped (e : Exception) (env : Environment) : State :=
  { fixture 0 10 with trap := some { cause := e, epc := 0x1000 }, env := env }

theorem test_witness_TrapIsHandedToEnvironment :
    ((trapped .systemCall (.scripted [])).trap = some { cause := .systemCall, epc := 0x1000 } ∧
      smallSystem { cause := .systemCall, epc := 0x1000 } (trapped .systemCall (.scripted [])) = none ∧
      (trapped .systemCall (.scripted [])).env = .scripted []) ∧
    (trapped .integerOverflow .supplied).trap = some { cause := .integerOverflow, epc := 0x1000 } ∧
    Exception.integerOverflow ≠ .systemCall := by decide

/-- EnvironmentResumesSystemCall: a reply that writes and one that does not, in each environment. -/
theorem test_witness_EnvironmentResumesSystemCall :
    (∃ r, smallSystem { cause := .systemCall, epc := 0x1000 } { trapped .systemCall .supplied with x := State.reset.x } =
      some r) ∧
    ({ trapped .systemCall .supplied with x := State.reset.x } : State).trap =
      some { cause := .systemCall, epc := 0x1000 } ∧
    (trapped .systemCall .supplied).env = .supplied ∧ (trapped .systemCall .supplied).mem.wf = true ∧
    State.answer { cause := .systemCall, epc := 0x1000 } (trapped .systemCall (.scripted [⟨[], 0x1004⟩])) =
      some ⟨[], 0x1004⟩ ∧
    (trapped .systemCall (.scripted [⟨[], 0x1004⟩])).env = .scripted [⟨[], 0x1004⟩] ∧
    (⟨[], 0x1004⟩ : EnvReply).writes = [] :=
  ⟨⟨_, rfl⟩, rfl, rfl, by decide, rfl, rfl, rfl⟩

/-- GoodEndIsSystemCall: a run that ends well at once, one that ends badly, and two that execute `syscall` first: one resumed
once before it ends, under an environment that changes what it reads. -/
theorem test_witness_GoodEndIsSystemCall :
    ((trapped .systemCall (.scripted [])).wf = true ∧
      runUnder smallSystem 1 (trapped .systemCall (.scripted [])) = .exit (trapped .systemCall (.scripted []))) ∧
    ((fixture 0x7FFFFFFF 1).wf = true ∧ ∃ t u, runUnder smallSystem 2 (fixture 0x7FFFFFFF 1) = .fault t u) ∧
    ((State.reset.withFetchWord 32 0x0000000C).trap = none ∧
      ∃ u, runOutcome 2 (State.reset.withFetchWord 32 0x0000000C) = .exit u) ∧
    ∃ u, runUnder (fun t s => if s.readReg 2 = 10 then none else some ⟨[.reg 2 10], t.epc⟩) 4
      (State.reset.withFetchWord 32 0x0000000C) = .exit u :=
  ⟨⟨by decide, rfl⟩, ⟨by decide, _, _, rfl⟩, ⟨rfl, _, rfl⟩, _, rfl⟩

/-- StepKeepsWellFormed, ControlRegistersOnlyByMtc0, OnlyRegisterJumpsMisalignPc, ParametersAndMarksPersist: a step that
executes an instruction. -/
theorem test_witness_step :
    (fixture 1 2).wf = true ∧ (fixture 1 2).trap = none ∧ (fixture 1 2).pc.toNat % 4 = 0 ∧
    (fixture 1 2).fetchInstr = .ok (.add 3 1 2) ∧ ∃ t, step (fixture 1 2) = .next t :=
  ⟨by decide, rfl, by decide, rfl, _, rfl⟩

/-- ControlRegistersOnlyByMtc0: a step that executes `mtc0 $1,13`, and one that takes a trap. -/
theorem test_witness_ControlRegistersOnlyByMtc0 :
    ((State.reset.withFetchWord 32 0x40816800).trap = none ∧
      (State.reset.withFetchWord 32 0x40816800).fetchInstr = .ok (.mtc0 1 13) ∧
      ∃ t, step (State.reset.withFetchWord 32 0x40816800) = .next t) ∧
    ∃ t, step { fixture 0 0 with pc := 0x1002 } = .next t ∧ t.trap ≠ none :=
  ⟨⟨rfl, rfl, _, rfl⟩, _, rfl, nofun⟩

theorem test_witness_ResetIsWellFormed : (fixture 0 0).mem.wf = true := by decide

theorem test_witness_ResetState : (0x00001003#32).toNat % 4 ≠ 0 := by decide

/-- OneGeneralRegisterWritten, HiLoReadersAndWriters, OthersAdvancePc: an instruction that completes. -/
theorem test_witness_exec :
    (∃ t, exec (.add 3 1 2) (fixture 1 2) = .next t ∧ t.trap = none) ∧ (Instr.add 3 1 2).destReg ≠ some 4 ∧
    (Instr.add 3 1 2).writesHiLo = false ∧ (∀ rd, Instr.add 3 1 2 ≠ .mfhi rd ∧ Instr.add 3 1 2 ≠ .mflo rd) ∧
    (Instr.add 3 1 2).assignsPc = false ∧ (fixture 1 2).trap = none ∧
    (∃ t, exec (.add 3 1 2) (fixture 0x7FFFFFFF 1) = .next t ∧ t.trap ≠ (fixture 0x7FFFFFFF 1).trap) ∧
    (∃ t, exec (.mthi 1) (fixture 1 2) = .next t) ∧ ∃ t, exec (.mtlo 1) (fixture 1 2) = .next t :=
  ⟨⟨_, rfl, rfl⟩, by decide, rfl, fun _ => ⟨nofun, nofun⟩, rfl, rfl, ⟨_, rfl, nofun⟩, ⟨_, rfl⟩, _, rfl⟩

theorem test_witness_OnlyStoredBytesChange :
    (∃ t, exec (.sb 2 7 1) (fixture 0x2000 0) = .next t ∧ t.trap = none) ∧ (fixture 0x2000 0).trap = none ∧
    0x2007#32 ∈ (Instr.sb 2 7 1).storedAddresses (fixture 0x2000 0) ∧
    0x2006#32 ∉ (Instr.sb 2 7 1).storedAddresses (fixture 0x2000 0) := ⟨⟨_, rfl, rfl⟩, rfl, by decide, by decide⟩

theorem test_witness_DecodeOfEncode : (Instr.sll 1 2 31).wellFormed = true ∧ (Instr.sll 1 2 0).wellFormed = true := by decide

theorem test_witness_EncodeOfDecode : decodeWord 0x0000000C#32 = .ok .syscall := rfl

theorem test_witness_OpcodeRowsDisjoint : ∃ r ∈ opcodeRows, r.hits 0x0000000C#32 = true := by decide

theorem test_witness_PlacedWordRunsNext :
    State.reset.mem.wf = true ∧ decodeWord (BitVec.ofNat 32 0x0000000C) = .ok .syscall ∧ State.reset.pc.toNat % 4 = 0 :=
  ⟨by decide, rfl, by decide⟩

/-- PseudoExpansionsAchieveMeaning: a value, a value for register 0, the overflow of `neg`, a branch taken and one not taken. -/
theorem test_witness_PseudoExpansionsAchieveMeaning :
    ((fixture 0 7).trap = none ∧ (Pseudo.neg 3 2).effect (fixture 0 7) = .value 3 0xFFFFFFF9 ∧ (3 : RegNum) ≠ scratchReg ∧
      (3 : RegNum) ≠ 0#5 ∧ (Pseudo.neg 3 2).avoidsScratch = true ∧ (fixture 0 7).readReg 2 ≠ 0x80000000#32) ∧
    ((Pseudo.move 0 2).effect (fixture 0 7) = .value 0 7 ∧ (0 : RegNum) ≠ scratchReg ∧
      (Pseudo.move 0 2).avoidsScratch = true) ∧
    (fixture 0 0x80000000).readReg 2 = 0x80000000#32 ∧
    ((Pseudo.blt 2 3 0x8000).effect (fixture 0 0x80000000) = .branch true ∧
      (Pseudo.blt 2 3 0x8000).branchOffset = some 0x8000#16 ∧ (Pseudo.blt 2 3 0x8000).avoidsScratch = true) ∧
    ((Pseudo.bnez 2 0x7FFF).effect (fixture 0 0) = .branch false ∧
      (Pseudo.bnez 2 0x7FFF).branchOffset = some 0x7FFF#16 ∧ (Pseudo.bnez 2 0x7FFF).avoidsScratch = true) := by decide

/-- AssembledTargetsAreReached: the farthest targets a branch and a jump can reach. -/
theorem test_witness_AssembledTargetsAreReached :
    branchField 0x00001000#32 0x00021000#32 = some 0x7FFF ∧ branchField 0x00001000#32 0xFFFE1004#32 = some 0x8000 ∧
    jumpField 0x00001000#32 0x0FFFFFFC#32 = some 0x3FFFFFF ∧
    (0x00021000#32 = 0x00001000#32 + 4#32 + BitVec.ofInt 32 (4 * 32767)) ∧
    (0x0FFFFFFC#32).toNat % 4 = 0 ∧ (0x0FFFFFFC#32).toNat / 2 ^ 28 = (0x00001000#32 + 4#32).toNat / 2 ^ 28 := by decide

end Sys2Proof.Tests
end

section
/-! SUPPORT. Proofs of the state family (spec/10_state.md): what a step keeps of the well-formedness of the state, what the
fetch answers in each of its cases, and which part of the state an instruction writes and reads. -/

namespace Sys2Proof.Machine

/-! ## Alignment (R56, R57) -/

/-- The two low bits decide the fetch's alignment check. -/
theorem notWordAddress_eq_false_iff (a : Word) : notWordAddress a = false ↔ a.toNat % 4 = 0 := by
  have hlow : (a.extractLsb' 0 2).toNat = a.toNat % 4 := by simp [BitVec.extractLsb'_toNat]
  rw [← hlow]
  simp [notWordAddress, ← BitVec.toNat_inj]

theorem notWordAddress_eq_true_iff (a : Word) : notWordAddress a = true ↔ a.toNat % 4 ≠ 0 := by
  rw [← Bool.not_eq_false, notWordAddress_eq_false_iff]

theorem add_aligned {a b : Word} (ha : a.toNat % 4 = 0) (hb : b.toNat % 4 = 0) : (a + b).toNat % 4 = 0 := by
  rw [BitVec.toNat_add]; omega

theorem incremented_aligned {pc : Word} (h : pc.toNat % 4 = 0) : (incremented pc).toNat % 4 = 0 :=
  add_aligned h rfl

/-- A branch offset counts words (R220). -/
theorem branchTarget_aligned {pc : Word} (offset : Imm) (h : pc.toNat % 4 = 0) :
    (branchTarget pc offset).toNat % 4 = 0 := by
  refine add_aligned (incremented_aligned h) ?_
  rw [BitVec.toNat_shiftLeft, Nat.shiftLeft_eq]
  omega

/-- A word whose two low bits are appended as zeros is a multiple of 4. -/
theorem append_zeros_aligned (v : BitVec 30) : (v ++ 0#2 : Word).toNat % 4 = 0 := by
  rw [BitVec.toNat_append, Nat.shiftLeft_eq, BitVec.toNat_ofNat]
  simp

/-- A jump target ends in two zero bits (R253). -/
theorem jumpTarget_aligned (pc : Word) (target : Target) : (jumpTarget pc target).toNat % 4 = 0 :=
  append_zeros_aligned _

theorem wordStart_aligned (pc : Word) : (wordStart pc).toNat % 4 = 0 :=
  append_zeros_aligned _

/-- An aligned address is the start of its word. -/
theorem wordStart_of_aligned {pc : Word} (h : pc.toNat % 4 = 0) : wordStart pc = pc := by
  have hlow : pc.extractLsb' 0 2 = 0#2 := by simpa [notWordAddress] using (notWordAddress_eq_false_iff pc).2 h
  calc wordStart pc
    _ = pc.extractLsb' 2 30 ++ pc.extractLsb' 0 2 := by rw [hlow, wordStart]
    _ = pc.extractLsb' 0 32 := BitVec.extractLsb'_append_extractLsb'_eq_extractLsb' rfl
    _ = pc := BitVec.extractLsb'_eq_self

theorem State.branch_pc_aligned {s : State} (c : Bool) (o : Imm) (h : s.pc.toNat % 4 = 0) :
    (s.branch c o).pc.toNat % 4 = 0 := by
  rw [State.branch_pc]
  split
  · exact branchTarget_aligned o h
  · exact incremented_aligned h

/-! ## The parts of a well-formed state -/

theorem State.wf_iff (s : State) :
    s.wf = true ↔ s.mem.wf = true ∧ marksFrom s.mem.populated 0 s.stored = true ∧ s.x[0] = 0#32 ∧
      ∀ tr, s.trap = some tr → tr.epc = s.pc := by
  unfold State.wf
  cases s.trap <;> simp [and_assoc]

/-- A trap taken at `pc` leaves the state well-formed (R275). -/
theorem State.wf_trapped {s : State} (e : Exception) (hs : s.wf = true) :
    ({ s with trap := some { cause := e, epc := s.pc } } : State).wf = true := by
  obtain ⟨hmem, hmarks, hzero, -⟩ := s.wf_iff.1 hs
  refine (State.wf_iff _).2 ⟨hmem, hmarks, hzero, fun tr h => ?_⟩
  cases h
  rfl

/-- A state with no pending trap is well-formed if its memory, its store marks and its slot of register 0 are those of a
well-formed state. -/
theorem State.wf_of_same {s t : State} (hs : s.wf = true) (hmem : t.mem = s.mem) (hstored : t.stored = s.stored)
    (hzero : t.x[0] = s.x[0]) (htrap : t.trap = none) : t.wf = true := by
  obtain ⟨hm, hmarks, hz, -⟩ := s.wf_iff.1 hs
  exact t.wf_iff.2 ⟨hmem ▸ hm, by rw [hmem, hstored]; exact hmarks, hzero.trans hz, fun tr h => by simp [htrap] at h⟩

/-- No write reaches the slot of register 0 (R21). -/
@[simp] theorem State.writeReg_x_zero (s : State) (r : RegNum) (v : Word) : (s.writeReg r v).x[0] = s.x[0] := by
  unfold State.writeReg
  split
  · rfl
  · rename_i hr
    have : r.toNat ≠ 0 := fun h => hr (BitVec.eq_of_toNat_eq h)
    simp [this]

@[simp] theorem State.link_x_zero (s : State) (r : RegNum) : (s.link r).x[0] = s.x[0] :=
  s.writeReg_x_zero r _

@[simp] theorem State.envWrite_x_zero (s : State) (w : EnvWrite) : (s.envWrite w).x[0] = s.x[0] := by
  cases w with
  | reg r v => exact s.writeReg_x_zero r v
  | hi | lo | cp0 | byte => rfl

@[simp] theorem State.envWrites_x_zero (s : State) (ws : List EnvWrite) : (s.envWrites ws).x[0] = s.x[0] := by
  induction ws generalizing s with
  | nil => rfl
  | cons w rest ih => exact (ih (s.envWrite w)).trans (s.envWrite_x_zero w)

theorem State.wf_mem_envWrites (s : State) (ws : List EnvWrite) (h : s.mem.wf = true) :
    (s.envWrites ws).mem.wf = true := by
  induction ws generalizing s with
  | nil => exact h
  | cons w rest ih => exact ih (s.envWrite w) (s.wf_envWrite w h)

/-- Whatever the environment answers, the state it resumes in is well-formed (R276). -/
theorem State.wf_resume {s : State} (r : EnvReply) (hs : s.wf = true) : (s.resume r).wf = true := by
  obtain ⟨hmem, hmarks, hzero, -⟩ := s.wf_iff.1 hs
  refine (State.wf_iff _).2 ⟨s.wf_mem_envWrites r.writes hmem, ?_, ?_, ?_⟩
  · simpa using hmarks
  · simpa using hzero
  · simp

/-- Storing populated bytes and advancing keeps a state with no pending trap well-formed (R53, R69). -/
theorem State.wf_storeBytes_advance {s : State} {l : List (Word × Byte)} (hs : s.wf = true) (htrap : s.trap = none)
    (hp : ∀ p ∈ l, s.mem.isPopulated p.1 = true) : (s.storeBytes l).advance.wf = true := by
  obtain ⟨hmem, hmarks, hzero, -⟩ := s.wf_iff.1 hs
  refine (State.wf_iff _).2 ⟨s.storeBytes_wf_mem l hmem, ?_, ?_, ?_⟩
  · simpa using s.storeBytes_marks l hmarks hp
  · simpa using hzero
  · simp [htrap]

theorem exec_keeps_wf {i : Instr} {s t : State} (hs : s.wf = true) (htrap : s.trap = none) (h : exec i s = .next t) :
    t.wf = true := by
  cases exec_shape h with
  | trap e => exact State.wf_trapped e hs
  | reg d v => exact State.wf_of_same hs (by simp) (by simp) (by simp) (by simpa using htrap)
  | hiLo hiNew loNew draws => exact State.wf_of_same hs rfl rfl rfl htrap
  | cp0 rt c => exact State.wf_of_same hs rfl rfl rfl htrap
  | store l _ hp => exact State.wf_storeBytes_advance hs htrap hp
  | jump p => exact State.wf_of_same hs rfl rfl rfl htrap
  | linkJump d p => exact State.wf_of_same hs (by simp) (by simp) (by simp) (by simpa using htrap)

/-- Settles O41: the three ways a step answers a next state each keep the invariant. -/
theorem stepKeepsWellFormed : Obligations.StepKeepsWellFormed := by
  intro s t hs h
  obtain ⟨tr, r, -, -, -, rfl⟩ | ⟨e, -, rfl⟩ | ⟨i, htrap, -, hexec⟩ := step_next h
  · exact State.wf_resume r hs
  · exact State.wf_trapped e hs
  · exact exec_keeps_wf hs htrap hexec

/-! ## What the fetch answers, case by case (R283) -/

theorem State.fetchInstr_misaligned {s : State} (h : s.pc.toNat % 4 ≠ 0) :
    s.fetchInstr = .error (s.raise (.addressErrorFetch s.pc)) := by
  simp [State.fetchInstr, (notWordAddress_eq_true_iff _).2 h]

theorem State.fetchInstr_absent {s : State} {a : Word} (hpc : s.pc.toNat % 4 = 0) (h : s.readWord s.pc = .error a) :
    s.fetchInstr = .error (.fault (.memoryFault a)) := by
  simp [State.fetchInstr, (notWordAddress_eq_false_iff _).2 hpc, h]

theorem State.fetchInstr_stored {s : State} {w a : Word} (hpc : s.pc.toNat % 4 = 0) (hw : s.readWord s.pc = .ok w)
    (h : s.storedInFetch = some a) : s.fetchInstr = .error (.refused (.storedFetch a)) := by
  simp [State.fetchInstr, (notWordAddress_eq_false_iff _).2 hpc, hw, h]

theorem State.fetchInstr_reserved {s : State} {w : Word} {e : DecodeError} (hpc : s.pc.toNat % 4 = 0)
    (hw : s.readWord s.pc = .ok w) (hn : s.storedInFetch = none) (h : decodeWord w = .error e) :
    s.fetchInstr = .error (s.raise (.reservedInstruction w)) := by
  simp [State.fetchInstr, (notWordAddress_eq_false_iff _).2 hpc, hw, hn, h]

theorem State.fetchInstr_ok {s : State} {w : Word} {i : Instr} (hpc : s.pc.toNat % 4 = 0)
    (hw : s.readWord s.pc = .ok w) (hn : s.storedInFetch = none) (h : decodeWord w = .ok i) :
    s.fetchInstr = .ok i := by
  simp [State.fetchInstr, (notWordAddress_eq_false_iff _).2 hpc, hw, hn, h]

theorem State.storedInFetch_eq_none_iff (s : State) :
    s.storedInFetch = none ↔ ∀ a ∈ fetchAddresses s.pc, a.toNat ∉ s.stored := by
  simp [State.storedInFetch]

/-- The byte the refusal names is one of the instruction's and bears a mark (R69). -/
theorem State.storedInFetch_eq_some {s : State} {a : Word} (h : s.storedInFetch = some a) :
    a ∈ fetchAddresses s.pc ∧ a.toNat ∈ s.stored :=
  ⟨List.mem_of_find?_eq_some h, by simpa using List.find?_some h⟩

theorem step_of_fetch_error {s : State} {o : Result} (htrap : s.trap = none) (h : s.fetchInstr = .error o) :
    step s = o := by
  simp [step, stepUnder, htrap, h]

theorem step_of_fetch_ok {s : State} {i : Instr} (htrap : s.trap = none) (h : s.fetchInstr = .ok i) :
    step s = exec i s := by
  simp [step, stepUnder, htrap, h]

theorem Memory.isPopulated_of_read {m : Memory} {a : Word} {b : Byte} (h : m.read a = some b) :
    m.isPopulated a = true := by
  rw [← Memory.read_isSome, h]; rfl

/-- If an instruction's byte is not populated, reading its word answers the address of such a byte. -/
theorem State.readWord_absent {s : State} (h : ∃ a ∈ fetchAddresses s.pc, s.mem.isPopulated a = false) :
    ∃ a ∈ fetchAddresses s.pc, s.mem.isPopulated a = false ∧ s.readWord s.pc = .error a := by
  obtain ⟨b0, b1, b2, b3, h0, h1, h2, h3, -⟩ | ⟨a, ha, hp, hw⟩ := s.readWord_cases s.pc
  · obtain ⟨a, ha, hp⟩ := h
    have hall : ∀ a ∈ fetchAddresses s.pc, s.mem.isPopulated a = true := by
      simp [fetchAddresses, Memory.isPopulated_of_read h0, Memory.isPopulated_of_read h1,
        Memory.isPopulated_of_read h2, Memory.isPopulated_of_read h3]
    simp [hall a ha] at hp
  · exact ⟨a, ha, hp, hw⟩

/-- If all of an instruction's bytes are populated, reading its word answers one. -/
theorem State.readWord_populated {s : State} (h : ∀ a ∈ fetchAddresses s.pc, s.mem.isPopulated a = true) :
    ∃ w, s.readWord s.pc = .ok w := by
  obtain ⟨b0, b1, b2, b3, -, -, -, -, hw⟩ | ⟨a, ha, hp, -⟩ := s.readWord_cases s.pc
  · exact ⟨_, hw⟩
  · simp [h a ha] at hp

/-- Settles O34: each clause is one case of the fetch. -/
theorem fetchPriority : Obligations.FetchPriority := by
  intro s htrap
  refine ⟨fun hpc => ?misaligned, fun hpc habsent => ?absent, fun hpc hall hstored => ?stored,
    fun w hpc hw hnone hbad => ?reserved⟩
  case misaligned => exact step_of_fetch_error htrap (State.fetchInstr_misaligned hpc)
  case absent =>
    obtain ⟨a, ha, hp, hw⟩ := State.readWord_absent habsent
    exact ⟨a, ha, hp, step_of_fetch_error htrap (State.fetchInstr_absent hpc hw)⟩
  case stored =>
    obtain ⟨w, hw⟩ := State.readWord_populated hall
    cases hfind : s.storedInFetch with
    | none =>
      obtain ⟨a, ha, hmark⟩ := hstored
      exact absurd hmark (s.storedInFetch_eq_none_iff.1 hfind a ha)
    | some a =>
      obtain ⟨ha, hmark⟩ := State.storedInFetch_eq_some hfind
      exact ⟨a, ha, hmark, step_of_fetch_error htrap (State.fetchInstr_stored hpc hw hfind)⟩
  case reserved =>
    cases hd : decodeWord w with
    | ok i => exact absurd hd (hbad i)
    | error e =>
      exact step_of_fetch_error htrap (State.fetchInstr_reserved hpc hw (s.storedInFetch_eq_none_iff.2 hnone) hd)

/-- The bytes at `pc` decide what a step runs (R27, R54). -/
theorem step_of_bytes {s : State} {i : Instr} {b0 b1 b2 b3 : Byte} (htrap : s.trap = none) (hpc : s.pc.toNat % 4 = 0)
    (h0 : s.mem.read s.pc = some b0) (h1 : s.mem.read (s.pc + 1#32) = some b1)
    (h2 : s.mem.read (s.pc + 2#32) = some b2) (h3 : s.mem.read (s.pc + 3#32) = some b3)
    (hmarks : ∀ a ∈ fetchAddresses s.pc, a.toNat ∉ s.stored) (hd : decodeWord (wordOfBytes b0 b1 b2 b3) = .ok i) :
    step s = exec i s :=
  step_of_fetch_ok htrap
    (State.fetchInstr_ok hpc (State.readWord_ok h0 h1 h2 h3) (s.storedInFetch_eq_none_iff.2 hmarks) hd)

/-- Four bytes decode to an instruction exactly when their little-endian word does (R54). -/
theorem decode_four_bytes (b0 b1 b2 b3 : Byte) (i : Instr) :
    decode [b0, b1, b2, b3] = .ok (i, []) ↔ decodeWord (wordOfBytes b0 b1 b2 b3) = .ok i := by
  cases hd : decodeWord (wordOfBytes b0 b1 b2 b3) <;> simp [decode, hd, Except.map]

/-- Settles O33. -/
theorem stepRunsDecodedInstruction : Obligations.StepRunsDecodedInstruction := by
  intro s i b0 b1 b2 b3 htrap hpc h0 h1 h2 h3 hmarks hd
  exact step_of_bytes htrap hpc h0 h1 h2 h3 hmarks ((decode_four_bytes ..).1 hd)

/-! ## The word that is placed -/

/-- A word is made of its four bytes (R51, R53). -/
theorem wordOfBytes_byteOfWord (v : Word) :
    wordOfBytes (byteOfWord v 0) (byteOfWord v 1) (byteOfWord v 2) (byteOfWord v 3) = v := by
  ext k hk
  simp only [wordOfBytes, byteOfWord]
  grind

theorem tableWord_thirtyTwo (w : Nat) : tableWord 32 w = BitVec.ofNat 32 w := by
  simp [tableWord, ← BitVec.toNat_inj]

/-- The four placed bytes are read back: each is placed at an address of its own, so the later ones leave it. -/
theorem State.withFetchWord_read (s : State) (nbits w : Nat) (hm : s.mem.wf = true) :
    (s.withFetchWord nbits w).mem.read (wordStart s.pc) = some (byteOfWord (tableWord nbits w) 0) ∧
    (s.withFetchWord nbits w).mem.read (wordStart s.pc + 1#32) = some (byteOfWord (tableWord nbits w) 1) ∧
    (s.withFetchWord nbits w).mem.read (wordStart s.pc + 2#32) = some (byteOfWord (tableWord nbits w) 2) ∧
    (s.withFetchWord nbits w).mem.read (wordStart s.pc + 3#32) = some (byteOfWord (tableWord nbits w) 3) := by
  have hd := wordStores_nodup (wordStart s.pc) (tableWord nbits w)
  rw [State.withFetchWord_mem]
  simp only [wordStores, List.map_cons, List.map_nil, List.nodup_cons, List.mem_cons, List.not_mem_nil, or_false,
    not_or] at hd
  obtain ⟨⟨h01, h02, h03⟩, ⟨h12, h13⟩, h23, -⟩ := hd
  refine ⟨?_, ?_, ?_, ?_⟩
  · rw [Memory.read_place_other _ _ _ _ h03, Memory.read_place_other _ _ _ _ h02, Memory.read_place_other _ _ _ _ h01,
      Memory.read_place_same _ _ _ hm]
  · rw [Memory.read_place_other _ _ _ _ h13, Memory.read_place_other _ _ _ _ h12,
      Memory.read_place_same _ _ _ (Memory.wf_place _ _ _ hm)]
  · rw [Memory.read_place_other _ _ _ _ h23,
      Memory.read_place_same _ _ _ (Memory.wf_place _ _ _ (Memory.wf_place _ _ _ hm))]
  · exact Memory.read_place_same _ _ _ (Memory.wf_place _ _ _ (Memory.wf_place _ _ _ (Memory.wf_place _ _ _ hm)))

/-- Placing an instruction leaves every byte outside its word as it was. -/
theorem State.withFetchWord_read_other (s : State) (nbits w : Nat) {a : Word}
    (h : a ∉ fetchAddresses (wordStart s.pc)) : (s.withFetchWord nbits w).mem.read a = s.mem.read a := by
  simp only [fetchAddresses, List.mem_cons, List.not_mem_nil, or_false, not_or] at h
  obtain ⟨h0, h1, h2, h3⟩ := h
  rw [State.withFetchWord_mem, Memory.read_place_other _ _ _ _ h3, Memory.read_place_other _ _ _ _ h2,
    Memory.read_place_other _ _ _ _ h1, Memory.read_place_other _ _ _ _ h0]

theorem step_withFetchWord {s : State} {nbits w : Nat} {i : Instr} (hm : s.mem.wf = true)
    (hd : decodeWord (tableWord nbits w) = .ok i) :
    step (s.withFetchWord nbits w) = exec i (s.withFetchWord nbits w) := by
  obtain ⟨h0, h1, h2, h3⟩ := s.withFetchWord_read nbits w hm
  have hmarks := s.withFetchWord_unmarked nbits w
  have hpc := wordStart_aligned s.pc
  rw [← s.withFetchWord_pc nbits w] at h0 h1 h2 h3 hmarks hpc
  rw [← wordOfBytes_byteOfWord (tableWord nbits w)] at hd
  exact step_of_bytes (s.withFetchWord_trap nbits w) hpc h0 h1 h2 h3 hmarks hd

/-- Settles O58. -/
theorem placedWordRunsNext : Obligations.PlacedWordRunsNext := by
  intro s w i hm hd
  exact ⟨step_withFetchWord hm (by rwa [tableWord_thirtyTwo]), State.readReg_congr rfl, ⟨rfl, rfl⟩,
    State.readCp0_congr rfl, wordStart_of_aligned, fun a ha => s.withFetchWord_read_other 32 w ha⟩

/-! ## General registers (R21, R24) -/

/-- Settles O44. -/
theorem registerZeroIsHardwired : Obligations.RegisterZeroIsHardwired := by
  intro s r q v
  by_cases hq : q = 0#5
  · subst hq; simp
  · simp [State.readReg_writeReg, hq]

/-- Settles O45: only the shapes that write a register write one, and it is the table's. -/
theorem oneGeneralRegisterWritten : Obligations.OneGeneralRegisterWritten := by
  intro i s t h r hr
  cases exec_shape h with
  | trap e => rfl
  | reg d v hd =>
    have hne : r ≠ d := fun e => hr (e ▸ hd)
    simp [State.readReg_writeReg_other _ _ _ _ hne]
  | hiLo hiNew loNew draws => rfl
  | cp0 rt c => rfl
  | store l => simp
  | jump p => rfl
  | linkJump d p hd =>
    have hne : r ≠ d := fun e => hr (e ▸ hd)
    simp [State.readReg_link, hne]

/-! ## The program counter (R27, R28) -/

/-- An instruction that assigns no `pc` leaves it when it takes an exception, and else advances it. -/
theorem exec_pc_of_not_assignsPc {i : Instr} {s t : State} (hi : i.assignsPc = false) (h : exec i s = .next t) :
    (t.trap ≠ none ∧ t.pc = s.pc) ∨ t.pc = s.pc + 4#32 := by
  cases exec_shape h with
  | trap e => exact .inl ⟨nofun, rfl⟩
  | reg d v => exact .inr (by simp [incremented])
  | hiLo hiNew loNew draws => exact .inr rfl
  | cp0 rt c => exact .inr rfl
  | store l => exact .inr (by simp [incremented])
  | jump p hp => simp [hp] at hi
  | linkJump d p _ hp => simp [hp] at hi

/-- Settles O49. -/
theorem othersAdvancePc : Obligations.OthersAdvancePc := by
  intro i s t hi _ h ht
  obtain ⟨htrap, -⟩ | hpc := exec_pc_of_not_assignsPc hi h
  · exact absurd ht htrap
  · exact hpc

/-- The branches and the jumps within a region go from an aligned `pc` to an aligned one; `jr` and `jalr` take any register. -/
theorem exec_pc_aligned {i : Instr} {s t : State} (hpc : s.pc.toNat % 4 = 0) (hjr : ∀ rs, i ≠ .jr rs)
    (hjalr : ∀ rd rs, i ≠ .jalr rd rs) (h : exec i s = .next t) : t.pc.toNat % 4 = 0 := by
  cases hi : i.assignsPc with
  | false =>
    obtain ⟨-, htpc⟩ | htpc := exec_pc_of_not_assignsPc hi h
    · exact htpc ▸ hpc
    · exact htpc ▸ add_aligned hpc rfl
  | true =>
    cases i with
    | beq | bne | blez | bgtz | bltz | bgez =>
      cases h
      exact State.branch_pc_aligned _ _ hpc
    | bltzal | bgezal =>
      cases h
      exact State.branch_pc_aligned _ _ (by simpa using hpc)
    | j | jal =>
      cases h
      exact jumpTarget_aligned _ _
    | jr rs => exact absurd rfl (hjr rs)
    | jalr rd rs => exact absurd rfl (hjalr rd rs)
    | _ => cases hi

/-- Settles O50. -/
theorem onlyRegisterJumpsMisalignPc : Obligations.OnlyRegisterJumpsMisalignPc := by
  intro s t htrap hpc h hjump
  obtain ⟨tr, r, hsome, -⟩ | ⟨e, -, rfl⟩ | ⟨i, -, hfetch, hexec⟩ := step_next h
  · simp [htrap] at hsome
  · exact hpc
  · obtain ⟨hjr, hjalr⟩ := hjump i hfetch
    exact exec_pc_aligned hpc hjr hjalr hexec

/-! ## What no step changes (R37, R60, R69) -/

/-- From `s` to `t` the parameters and the populated addresses are the same, and no store mark is cleared. -/
def Persists (s t : State) : Prop :=
  t.params = s.params ∧ t.mem.populated = s.mem.populated ∧ ∀ k ∈ s.stored, k ∈ t.stored

theorem exec_persists {i : Instr} {s t : State} (h : exec i s = .next t) : Persists s t := by
  cases exec_shape h with
  | trap e => exact ⟨rfl, rfl, fun _ hk => hk⟩
  | reg d v => exact ⟨by simp, by simp, by simp⟩
  | hiLo hiNew loNew draws => exact ⟨rfl, rfl, fun _ hk => hk⟩
  | cp0 rt c => exact ⟨rfl, rfl, fun _ hk => hk⟩
  | store l => exact ⟨by simp, by simp, fun k hk => (s.mem_storeBytes_stored l k).2 (.inl hk)⟩
  | jump p => exact ⟨rfl, rfl, fun _ hk => hk⟩
  | linkJump d p => exact ⟨by simp, by simp, by simp⟩

theorem step_persists {s t : State} (h : step s = .next t) : Persists s t := by
  obtain ⟨tr, r, -, -, -, rfl⟩ | ⟨e, -, rfl⟩ | ⟨i, -, -, hexec⟩ := step_next h
  · exact ⟨by simp, by simp, by simp⟩
  · exact ⟨rfl, rfl, fun _ hk => hk⟩
  · exact exec_persists hexec

/-- Settles O51. -/
theorem parametersAndMarksPersist : Obligations.ParametersAndMarksPersist := by
  intro s t h
  obtain ⟨hparams, hpop, hmarks⟩ := step_persists h
  exact ⟨hparams, fun a => by rw [Memory.isPopulated, Memory.isPopulated, hpop], hmarks⟩

/-! ## Who writes `hi` and `lo` (R31) -/

/-- An instruction outside the six of R31, and one that takes an exception, leaves `hi` and `lo`. -/
theorem exec_sameHiLo {i : Instr} {s t : State} (h : exec i s = .next t) (hi : i.writesHiLo = false ∨ t.trap ≠ s.trap) :
    SameHiLo s t := by
  cases exec_shape h with
  | trap e => exact ⟨rfl, rfl⟩
  | reg d v => exact ⟨by simp, by simp⟩
  | hiLo hiNew loNew draws hw =>
    obtain hno | htrap := hi
    · simp [hw] at hno
    · exact absurd rfl htrap
  | cp0 rt c => exact ⟨rfl, rfl⟩
  | store l => exact ⟨by simp, by simp⟩
  | jump p => exact ⟨rfl, rfl⟩
  | linkJump d p => exact ⟨by simp, by simp⟩

/-! ## Who reads `hi` and `lo` (R31): every operation but the reads of `hi` and `lo` commutes with setting them -/

/-- The answer with other values in `hi` and `lo` of the next state, if there is one. -/
def withHiLo (h l : Word) : Result → Result
  | .next t => .next (t.writeHiLo h l)
  | .fault r => .fault r
  | .refused r => .refused r

section Commute

variable (s : State) (h l : Word)

theorem State.writeReg_writeHiLo (r : RegNum) (v : Word) :
    (s.writeHiLo h l).writeReg r v = (s.writeReg r v).writeHiLo h l := by
  unfold State.writeReg
  split <;> rfl

theorem State.storeBytes_writeHiLo (bs : List (Word × Byte)) :
    (s.writeHiLo h l).storeBytes bs = (s.storeBytes bs).writeHiLo h l := by
  induction bs generalizing s with
  | nil => rfl
  | cons p rest ih => exact ih (s.storeByte p.1 p.2)

theorem State.branch_writeHiLo (c : Bool) (o : Imm) :
    (s.writeHiLo h l).branch c o = (s.branch c o).writeHiLo h l := by
  unfold State.branch
  split <;> rfl

theorem State.readBytes_writeHiLo (as : List Word) : (s.writeHiLo h l).readBytes as = s.readBytes as := by
  induction as with
  | nil => rfl
  | cons a rest ih => unfold State.readBytes; rw [ih]; rfl

theorem State.raise_writeHiLo (e : Exception) : (s.writeHiLo h l).raise e = withHiLo h l (s.raise e) := rfl

theorem State.result_writeHiLo (r : RegNum) (v : Word) :
    (s.writeHiLo h l).result r v = withHiLo h l (s.result r v) := by
  unfold State.result
  rw [State.writeReg_writeHiLo]
  rfl

theorem State.load_writeHiLo (r : RegNum) (e : Except Word Word) :
    (s.writeHiLo h l).load r e = withHiLo h l (s.load r e) := by
  cases e with
  | ok v => exact s.result_writeHiLo h l r v
  | error a => rfl

theorem State.store_writeHiLo (bs : List (Word × Byte)) :
    (s.writeHiLo h l).store bs = withHiLo h l (s.store bs) := by
  unfold State.store
  rw [State.storeBytes_writeHiLo, State.writeHiLo_mem]
  split <;> rfl

theorem State.cp0Access_writeHiLo (o : Result) :
    (s.writeHiLo h l).cp0Access (withHiLo h l o) = withHiLo h l (s.cp0Access o) := by
  unfold State.cp0Access
  rw [State.writeHiLo_params]
  split <;> rfl

/-- A choice between two answers that each commute with setting `hi` and `lo` does so too. -/
theorem ite_withHiLo (c : Bool) {a b a' b' : Result} (ha : a' = withHiLo h l a) (hb : b' = withHiLo h l b) :
    (if c then a' else b') = withHiLo h l (if c then a else b) := by
  split
  · exact ha
  · exact hb

/-- An instruction that neither writes nor reads `hi` and `lo` does the same whatever they hold. -/
theorem exec_writeHiLo {i : Instr} (hw : i.writesHiLo = false) (hr : ∀ rd, i ≠ .mfhi rd ∧ i ≠ .mflo rd) :
    exec i (s.writeHiLo h l) = withHiLo h l (exec i s) := by
  cases i with
  | add | sub | addi => exact ite_withHiLo h l _ rfl (s.result_writeHiLo h l _ _)
  | addu | subu | addiu | lui | and | or | xor | nor | slt | sltu | slti | sltiu | andi | ori | xori | sll | srl | sra
  | sllv | srlv | srav => exact s.result_writeHiLo h l _ _
  | mult | multu | div | divu | mthi | mtlo => cases hw
  | lb | lbu => exact s.load_writeHiLo h l _ _
  | lwl | lwr =>
    simp only [exec, execLwl, execLwr, State.readBytes_writeHiLo]
    exact s.load_writeHiLo h l _ _
  | lh | lhu | lw => exact ite_withHiLo h l _ rfl (s.load_writeHiLo h l _ _)
  | sb | swl | swr => exact s.store_writeHiLo h l _
  | sh | sw => exact ite_withHiLo h l _ rfl (s.store_writeHiLo h l _)
  | mfhi rd => exact absurd rfl (hr rd).1
  | mflo rd => exact absurd rfl (hr rd).2
  | mfc0 =>
    simp only [exec, execMfc0, State.result_writeHiLo]
    exact s.cp0Access_writeHiLo h l _
  | mtc0 rt c => exact s.cp0Access_writeHiLo h l (.next (s.writeCp0 c (s.readReg rt)).advance)
  | beq | bne | blez | bgtz | bltz | bgez => exact congrArg Host.Outcome.next (s.branch_writeHiLo h l _ _)
  | bltzal rs offset | bgezal rs offset =>
    simp only [exec, execBltzal, execBgezal, State.link, State.writeReg_writeHiLo, State.branch_writeHiLo]
    rfl
  | jalr | jal =>
    simp only [exec, execJalr, execJal, State.link, State.writeReg_writeHiLo]
    rfl
  | jr | j | syscall => rfl

theorem State.divOverflow_writeHiLo : (s.writeHiLo h l).divOverflow = s.divOverflow := by
  unfold State.divOverflow
  rw [State.writeHiLo_params]
  split <;> rfl

/-- The multiplications and divisions overwrite both `hi` and `lo`, so what these held is lost. -/
theorem exec_writeHiLo_of_overwrites (rs rt : RegNum) :
    exec (.mult rs rt) (s.writeHiLo h l) = exec (.mult rs rt) s ∧
    exec (.multu rs rt) (s.writeHiLo h l) = exec (.multu rs rt) s ∧
    exec (.div rs rt) (s.writeHiLo h l) = exec (.div rs rt) s ∧
    exec (.divu rs rt) (s.writeHiLo h l) = exec (.divu rs rt) s := by
  refine ⟨rfl, rfl, ?_, rfl⟩
  simp only [exec, execDiv, State.divOverflow_writeHiLo]
  rfl

end Commute

/-- `t` and `t'`, the next states from `s` and from `s` with `h` and `l` in `hi` and `lo`, differ only in `hi` and `lo`, and
each of those two is the same in both or is left alone in both. -/
def AgreeApartHiLo (s : State) (h l : Word) (t t' : State) : Prop :=
  t = { t' with hi := t.hi, lo := t.lo } ∧ (t'.hi = t.hi ∨ t.hi = s.hi ∧ t'.hi = h) ∧
    (t'.lo = t.lo ∨ t.lo = s.lo ∧ t'.lo = l)

/-- The six that write `hi` and `lo` put in each a value that depends on neither, or leave it. -/
theorem exec_agree_of_writesHiLo {i : Instr} {s t : State} (h l : Word) (hw : i.writesHiLo = true)
    (hexec : exec i s = .next t) : ∃ t', exec i (s.writeHiLo h l) = .next t' ∧ AgreeApartHiLo s h l t t' := by
  cases i with
  | mult | multu | div | divu =>
    rename_i rs rt
    obtain ⟨hmult, hmultu, hdiv, hdivu⟩ := exec_writeHiLo_of_overwrites s h l rs rt
    exact ⟨t, by simpa only [hmult, hmultu, hdiv, hdivu] using hexec, rfl, .inl rfl, .inl rfl⟩
  | mthi =>
    cases hexec
    exact ⟨_, rfl, rfl, .inl rfl, .inr ⟨rfl, rfl⟩⟩
  | mtlo =>
    cases hexec
    exact ⟨_, rfl, rfl, .inr ⟨rfl, rfl⟩, .inl rfl⟩
  | _ => cases hw

/-- Any other instruction leaves `hi` and `lo`, so each of the two next states holds what its own start held. -/
theorem exec_agree_of_not_writesHiLo {i : Instr} {s t : State} (h l : Word) (hw : i.writesHiLo = false)
    (hr : ∀ rd, i ≠ .mfhi rd ∧ i ≠ .mflo rd) (hexec : exec i s = .next t) :
    ∃ t', exec i (s.writeHiLo h l) = .next t' ∧ AgreeApartHiLo s h l t t' := by
  obtain ⟨hhi, hlo⟩ := exec_sameHiLo hexec (.inl hw)
  refine ⟨t.writeHiLo h l, ?_, rfl, .inr ⟨hhi, rfl⟩, .inr ⟨hlo, rfl⟩⟩
  rw [exec_writeHiLo s h l hw hr, hexec]
  rfl

/-- Settles O46. -/
theorem hiLoReadersAndWriters : Obligations.HiLoReadersAndWriters := by
  refine ⟨fun i s t hexec => ⟨exec_sameHiLo hexec, ?mthi, ?mtlo⟩, fun i s t h l hr hexec => ?readers⟩
  case mthi =>
    rintro rs rfl
    cases hexec
    rfl
  case mtlo =>
    rintro rs rfl
    cases hexec
    rfl
  case readers =>
    cases hw : i.writesHiLo with
    | true => exact exec_agree_of_writesHiLo h l hw hexec
    | false => exact exec_agree_of_not_writesHiLo h l hw hr hexec

end Sys2Proof.Machine
end

section
/-! SUPPORT. Proofs of the memory family (spec/20_memory.md): which bytes an instruction changes and marks (R58, R69), what
an access to an unpopulated byte answers (R62), and what reads of any width see of a stored word (R55). -/

namespace Sys2Proof.Machine

/-! ## The bytes an instruction changes (R58, R69) -/

/-- An instruction that writes a general register, `hi`, `lo` or `pc` stores nothing: the tables of R24, R31 and R27 do not
meet that of R58. -/
theorem storedAddresses_eq_nil {i : Instr} (s : State)
    (h : i.destReg.isSome = true ∨ i.writesHiLo = true ∨ i.assignsPc = true) : i.storedAddresses s = [] := by
  cases i with
  | sb | sh | swl | sw | swr => simp [Instr.destReg, Instr.writesHiLo, Instr.assignsPc] at h
  | _ => rfl

/-- What executing an instruction does to memory and the store marks: nothing, and then it took an exception or is no store;
or it stores a byte at each of its addresses. -/
theorem exec_memory {i : Instr} {s t : State} (h : exec i s = .next t) :
    (t.mem = s.mem ∧ t.stored = s.stored ∧ (t.trap = none → i.storedAddresses s = [])) ∨
    ∃ l, l.map Prod.fst = i.storedAddresses s ∧ t.mem = (s.storeBytes l).mem ∧ t.stored = (s.storeBytes l).stored := by
  cases exec_shape h with
  | trap e => exact .inl ⟨rfl, rfl, nofun⟩
  | reg d v hd => exact .inl ⟨by simp, by simp, fun _ => storedAddresses_eq_nil s (.inl (by simp [hd]))⟩
  | hiLo hiNew loNew draws hw => exact .inl ⟨rfl, rfl, fun _ => storedAddresses_eq_nil s (.inr (.inl hw))⟩
  | cp0 rt c hi => exact .inl ⟨rfl, rfl, fun _ => by rw [hi]; rfl⟩
  | store l ha => exact .inr ⟨l, ha, rfl, rfl⟩
  | jump p hp => exact .inl ⟨rfl, rfl, fun _ => storedAddresses_eq_nil s (.inr (.inr hp))⟩
  | linkJump d p hd hp =>
    exact .inl ⟨by simp, by simp, fun _ => storedAddresses_eq_nil s (.inr (.inr hp))⟩

/-- The marks after a store, by address: `toNat` loses nothing. -/
theorem State.marked_storeBytes (s : State) (l : List (Word × Byte)) (a : Word) :
    a.toNat ∈ (s.storeBytes l).stored ↔ a.toNat ∈ s.stored ∨ a ∈ l.map Prod.fst := by
  simp [State.mem_storeBytes_stored, BitVec.toNat_inj]

/-- Settles O48. -/
theorem onlyStoredBytesChange : Obligations.OnlyStoredBytesChange := by
  intro i s t h
  obtain ⟨hmem, hstored, hnil⟩ | ⟨l, hl, hmem, hstored⟩ := exec_memory h
  · rw [hmem, hstored]
    exact ⟨fun _ _ => ⟨rfl, Iff.rfl⟩, fun _ => rfl, fun _ ht a ha => by simp [hnil ht] at ha⟩
  · rw [hmem, hstored, ← hl]
    refine ⟨fun a ha => ⟨s.storeBytes_read_other l a ha, ?_⟩, s.storeBytes_isPopulated l,
      fun _ _ a ha => (s.marked_storeBytes l a).2 (.inr ha)⟩
    rw [State.marked_storeBytes, or_iff_left ha]

/-! ## Accesses to unpopulated bytes (R62) -/

/-- If some byte of the access `as` is not populated, the answer `o` is `stop a` for such a byte `a`. -/
def ReportsAbsent {α : Type} (m : Memory) (as : List Word) (stop : Word → α) (o : α) : Prop :=
  (∃ a ∈ as, m.isPopulated a = false) → ∃ a ∈ as, m.isPopulated a = false ∧ o = stop a

theorem ReportsAbsent.comp {α β : Type} {m : Memory} {as : List Word} {stop : Word → α} {o : α} (f : α → β)
    (h : ReportsAbsent m as stop o) : ReportsAbsent m as (f ∘ stop) (f o) := by
  intro habsent
  obtain ⟨a, ha, hp, rfl⟩ := h habsent
  exact ⟨a, ha, hp, rfl⟩

theorem ReportsAbsent.nil {α : Type} {m : Memory} {stop : Word → α} {o : α} : ReportsAbsent m [] stop o := by
  rintro ⟨a, ha, -⟩
  cases ha

/-- A read of one byte more, before the others: it stops the read if that byte is absent, else an absent byte is among the
others. -/
theorem ReportsAbsent.readByte_bind {α : Type} {s : State} {a : Word} {as : List Word} {rest : Byte → Except Word α}
    (h : ∀ b, ReportsAbsent s.mem as .error (rest b)) :
    ReportsAbsent s.mem (a :: as) .error (s.readByte a >>= rest) := by
  rintro ⟨c, hc, hcabsent⟩
  cases hread : s.readByte a with
  | error e =>
    obtain ⟨habsent, rfl⟩ := State.readByte_error.1 hread
    exact ⟨e, List.mem_cons_self, habsent, rfl⟩
  | ok b =>
    have hpop : s.mem.isPopulated a = true := Memory.isPopulated_of_read (State.readByte_ok.1 hread)
    obtain rfl | hin := List.mem_cons.1 hc
    · simp [hpop] at hcabsent
    · obtain ⟨d, hd, hdabsent, hrest⟩ := h b ⟨c, hin, hcabsent⟩
      exact ⟨d, List.mem_cons_of_mem a hd, hdabsent, hrest⟩

theorem State.readByte_reportsAbsent (s : State) (a : Word) : ReportsAbsent s.mem [a] .error (s.readByte a) := by
  rw [← bind_pure (s.readByte a)]
  exact .readByte_bind fun _ => .nil

theorem State.readHalf_reportsAbsent (s : State) (a : Word) :
    ReportsAbsent s.mem [a, a + 1#32] .error (s.readHalf a) :=
  .readByte_bind fun _ => .readByte_bind fun _ => .nil

theorem State.readWord_reportsAbsent (s : State) (a : Word) :
    ReportsAbsent s.mem [a, a + 1#32, a + 2#32, a + 3#32] .error (s.readWord a) :=
  .readByte_bind fun _ => .readByte_bind fun _ => .readByte_bind fun _ => .readByte_bind fun _ => .nil

theorem State.readBytes_reportsAbsent (s : State) (as : List Word) :
    ReportsAbsent s.mem as .error (s.readBytes as) := by
  induction as with
  | nil => exact .nil
  | cons a rest ih => exact .readByte_bind fun b => ih.comp (Except.map (b :: ·))

/-- A load of what a read answers is a fault where the read meets an absent byte, whatever is made of the value. -/
theorem State.load_reportsAbsent {α : Type} {s : State} {as : List Word} {e : Except Word α} (rt : RegNum)
    (f : α → Word) (h : ReportsAbsent s.mem as .error e) :
    ReportsAbsent s.mem as (fun a => .fault (.memoryFault a)) (s.load rt (e.map f)) :=
  h.comp fun read : Except Word α => s.load rt (read.map f)

/-- A store checks all its bytes before it writes one. -/
theorem State.store_reportsAbsent (s : State) (l : List (Word × Byte)) :
    ReportsAbsent s.mem (l.map Prod.fst) (fun a => .fault (.memoryFault a)) (s.store l) := by
  rintro ⟨c, hc, hcabsent⟩
  cases hfind : s.mem.firstAbsent (l.map Prod.fst) with
  | none => simp [(Memory.firstAbsent_eq_none _ _).1 hfind c hc] at hcabsent
  | some a =>
    refine ⟨a, List.mem_of_find?_eq_some hfind, by simpa using List.find?_some hfind, ?_⟩
    simp [State.store, hfind]

/-- A halfword or word access that passes its alignment check goes on to the access itself (R56). -/
theorem ReportsAbsent.of_aligned {m : Memory} {as : List Word} {stop : Word → Result} {misaligned : Bool} {trap o : Result}
    (hal : (!misaligned) = true) (h : ReportsAbsent m as stop o) :
    ReportsAbsent m as stop (if misaligned then trap else o) := by
  rwa [if_neg (by simpa using hal)]

/-- Every instruction that passes its alignment check reports an absent byte among those it touches; one that is neither load
nor store touches none. -/
theorem exec_reportsAbsent {i : Instr} {s : State} (hal : i.aligned s = true) :
    ReportsAbsent s.mem (i.touchedAddresses s) (fun a => .fault (.memoryFault a)) (exec i s) := by
  cases i with
  | lb rt imm rs | lbu rt imm rs => exact State.load_reportsAbsent rt _ (s.readByte_reportsAbsent _)
  | lh rt imm rs | lhu rt imm rs => exact .of_aligned hal (State.load_reportsAbsent rt _ (s.readHalf_reportsAbsent _))
  | lw rt imm rs => exact .of_aligned hal ((s.readWord_reportsAbsent _).comp (s.load rt))
  | lwl rt imm rs | lwr rt imm rs =>
    simp only [Instr.touchedAddresses, Instr.loadedAddresses, Instr.storedAddresses, List.append_nil]
    exact State.load_reportsAbsent rt _ (s.readBytes_reportsAbsent _)
  | sb | swl | swr => exact s.store_reportsAbsent _
  | sh | sw => exact .of_aligned hal (s.store_reportsAbsent _)
  | _ => exact .nil

/-- Settles O19. -/
theorem unpopulatedAccessFaults : Obligations.UnpopulatedAccessFaults :=
  fun _ _ hal => exec_reportsAbsent hal

/-! ## Reads of every width after a store (R55) -/

/-- The memory holds the four bytes at `a` and the three addresses after it. -/
def Memory.HoldsBytes (m : Memory) (a : Word) (b0 b1 b2 b3 : Byte) : Prop :=
  m.read a = some b0 ∧ m.read (a + 1#32) = some b1 ∧ m.read (a + 2#32) = some b2 ∧ m.read (a + 3#32) = some b3

/-- Storing a word puts its bytes in memory, least significant first (R53). -/
theorem State.storeBytes_wordStores_holds {s : State} {a v : Word} (hm : s.mem.wf = true)
    (hp : ∀ p ∈ wordStores a v, s.mem.isPopulated p.1 = true) :
    (s.storeBytes (wordStores a v)).mem.HoldsBytes a (byteOfWord v 0) (byteOfWord v 1) (byteOfWord v 2)
      (byteOfWord v 3) := by
  have hread := s.storeBytes_read_same _ hm hp (wordStores_nodup a v)
  simpa [wordStores, Memory.HoldsBytes] using hread

/-- A write to the second of the four bytes leaves the other three. -/
theorem Memory.HoldsBytes.write_second {m : Memory} {a : Word} {b0 b1 b2 b3 : Byte} (h : m.HoldsBytes a b0 b1 b2 b3)
    (hm : m.wf = true) (b : Byte) : (m.write (a + 1#32) b).HoldsBytes a b0 b b2 b3 := by
  obtain ⟨h0, h1, h2, h3⟩ := h
  refine ⟨?_, Memory.read_write_same _ _ _ hm (Memory.isPopulated_of_read h1), ?_, ?_⟩
  · rwa [Memory.read_write_other _ _ _ _ (by simp)]
  · rwa [Memory.read_write_other _ _ _ _ (by simp)]
  · rwa [Memory.read_write_other _ _ _ _ (by simp)]

/-- A word read after a further byte store to the second of the four bytes. -/
theorem State.readWord_storeBytes_second {s : State} {a : Word} {b0 b1 b2 b3 : Byte} (hm : s.mem.wf = true)
    (h : s.mem.HoldsBytes a b0 b1 b2 b3) (b : Byte) :
    (s.storeBytes [(a + 1#32, b)]).readWord a = .ok (wordOfBytes b0 b b2 b3) := by
  obtain ⟨h0, h1, h2, h3⟩ := h.write_second hm b
  exact State.readWord_ok h0 h1 h2 h3

/-- An `sw` that completes at an aligned address has stored the word there. -/
theorem exec_sw_next {rt rs : RegNum} {imm : Imm} {s t : State} (hal : (s.address imm rs).toNat % 4 = 0)
    (h : exec (.sw rt imm rs) s = .next t) :
    (∀ p ∈ wordStores (s.address imm rs) (s.readReg rt), s.mem.isPopulated p.1 = true) ∧
      t = (s.storeBytes (wordStores (s.address imm rs) (s.readReg rt))).advance := by
  simp only [exec, execSw, (notWordAddress_eq_false_iff _).2 hal] at h
  exact State.store_next h

theorem halfOfBytes_byteOfWord_low (v : Word) : halfOfBytes (byteOfWord v 0) (byteOfWord v 1) = v.extractLsb' 0 16 :=
  BitVec.extractLsb'_append_extractLsb'_eq_extractLsb' rfl

theorem halfOfBytes_byteOfWord_high (v : Word) : halfOfBytes (byteOfWord v 2) (byteOfWord v 3) = v.extractLsb' 16 16 :=
  BitVec.extractLsb'_append_extractLsb'_eq_extractLsb' rfl

/-- A word whose second byte is another. -/
theorem wordOfBytes_byteOfWord_second (v : Word) (b : Byte) :
    wordOfBytes (byteOfWord v 0) b (byteOfWord v 2) (byteOfWord v 3) = v.extractLsb' 16 16 ++ b ++ v.extractLsb' 0 8 := by
  rw [← halfOfBytes_byteOfWord_high]
  rfl

/-- Settles O18: the four bytes the word store leaves decide every later read. -/
theorem mixedWidthReads : Obligations.MixedWidthReads := by
  rintro rt rs imm s t ea v hs rfl rfl h - hal
  obtain ⟨hp, rfl⟩ := exec_sw_next hal h
  obtain ⟨hm, -⟩ := s.wf_iff.1 hs
  have hholds := State.storeBytes_wordStores_holds hm hp
  have ⟨h0, h1, h2, h3⟩ := hholds
  refine ⟨State.readByte_ok.2 h0, State.readByte_ok.2 h1, State.readByte_ok.2 h2, State.readByte_ok.2 h3, ?low, ?high,
    ?word, fun b => ?second⟩
  case low => exact (State.readHalf_ok h0 h1).trans (congrArg _ (halfOfBytes_byteOfWord_low _))
  case high =>
    refine (State.readHalf_ok h2 ?_).trans (congrArg _ (halfOfBytes_byteOfWord_high _))
    rw [BitVec.add_assoc]
    exact h3
  case word => exact (State.readWord_ok h0 h1 h2 h3).trans (congrArg _ (wordOfBytes_byteOfWord _))
  case second =>
    rw [← wordOfBytes_byteOfWord_second]
    exact State.readWord_storeBytes_second (s.storeBytes_wf_mem _ hm) hholds b

end Sys2Proof.Machine
end

section
/-! SUPPORT. Proofs of the encoding family (spec/30_encoding.md): the opcode table, the decoder and the encoder (R84, R88, R89,
R93), code addresses (R95), and the pseudo-instructions (R97). -/

namespace Sys2Proof.Machine

/-! ## The table (R84, R88): at most one row hits a word -/

/-- Some bit that both rows fix is drawn differently in them. -/
def Apart (r r' : Row) : Prop := r.pattern &&& r'.mask ≠ r'.pattern &&& r.mask

theorem not_apart_of_hits {r r' : Row} {w : Word} (h : r.hits w = true) (h' : r'.hits w = true) : ¬ Apart r r' := by
  unfold Apart
  rw [← beq_iff_eq.1 h, ← beq_iff_eq.1 h', BitVec.and_assoc, BitVec.and_assoc, BitVec.and_comm r.mask, not_not]

theorem opcodeRows_apart : opcodeRows.Pairwise Apart := by unfold Apart; decide

/-- The row that hits a word is the only one. -/
theorem eq_of_hits {r r' : Row} {w : Word} (hr : r ∈ opcodeRows) (hr' : r' ∈ opcodeRows) (h : r.hits w = true)
    (h' : r'.hits w = true) : r = r' := by
  have : Std.Symm Apart := ⟨fun _ _ => Ne.symm⟩
  by_contra hne
  exact not_apart_of_hits h h' (opcodeRows_apart.forall hr hr' hne)

/-- Settles O54. -/
theorem opcodeRowsDisjoint : Obligations.OpcodeRowsDisjoint :=
  ⟨rfl, fun _ _ hr _ hr' h h' => congrArg Row.mnemonic (eq_of_hits hr hr' h h')⟩

/-! ## The decoder as a relation to the table -/

/-- The decoder answers what a row of the table that hits the word builds from it. -/
theorem decodeWord_ok_iff (w : Word) (i : Instr) :
    decodeWord w = .ok i ↔ ∃ r ∈ opcodeRows, r.hits w = true ∧ r.build w = i := by
  unfold decodeWord
  split
  next r hfind =>
    have hr := List.mem_of_find?_eq_some hfind
    have hhit := List.find?_some hfind
    simp only [Except.ok.injEq]
    constructor
    · exact fun h => ⟨r, hr, hhit, h⟩
    · rintro ⟨r', hr', hhit', h⟩
      rwa [eq_of_hits hr hr' hhit hhit']
  next hfind =>
    simp only [reduceCtorEq, false_iff, not_exists, not_and]
    exact fun r hr hhit => absurd hhit (List.find?_eq_none.1 hfind r hr)

/-- The decoder answers an instruction exactly when some row hits the word. -/
theorem decodes_iff (w : Word) : (∃ i, decodeWord w = .ok i) ↔ ∃ r ∈ opcodeRows, r.hits w = true := by
  simp only [decodeWord_ok_iff]
  exact ⟨fun ⟨_, r, hr, h, _⟩ => ⟨r, hr, h⟩, fun ⟨r, hr, h⟩ => ⟨_, r, hr, h, rfl⟩⟩

open Sys2Proof.Laws in
/-- Every instruction's own row hits its encoding and builds it back. -/
theorem encodingAgrees : ∀ i : Instr, EncodingAgrees.Statement i
  | .add rd rs rt => EncodingAgrees.add rd rs rt
  | .addu rd rs rt => EncodingAgrees.addu rd rs rt
  | .sub rd rs rt => EncodingAgrees.sub rd rs rt
  | .subu rd rs rt => EncodingAgrees.subu rd rs rt
  | .mult rs rt => EncodingAgrees.mult rs rt
  | .multu rs rt => EncodingAgrees.multu rs rt
  | .div rs rt => EncodingAgrees.div rs rt
  | .divu rs rt => EncodingAgrees.divu rs rt
  | .addi rt rs imm => EncodingAgrees.addi rt rs imm
  | .addiu rt rs imm => EncodingAgrees.addiu rt rs imm
  | .lb rt imm rs => EncodingAgrees.lb rt imm rs
  | .lh rt imm rs => EncodingAgrees.lh rt imm rs
  | .lwl rt imm rs => EncodingAgrees.lwl rt imm rs
  | .lw rt imm rs => EncodingAgrees.lw rt imm rs
  | .lbu rt imm rs => EncodingAgrees.lbu rt imm rs
  | .lhu rt imm rs => EncodingAgrees.lhu rt imm rs
  | .lwr rt imm rs => EncodingAgrees.lwr rt imm rs
  | .sb rt imm rs => EncodingAgrees.sb rt imm rs
  | .sh rt imm rs => EncodingAgrees.sh rt imm rs
  | .swl rt imm rs => EncodingAgrees.swl rt imm rs
  | .sw rt imm rs => EncodingAgrees.sw rt imm rs
  | .swr rt imm rs => EncodingAgrees.swr rt imm rs
  | .lui rt imm => EncodingAgrees.lui rt imm
  | .mfhi rd => EncodingAgrees.mfhi rd
  | .mthi rs => EncodingAgrees.mthi rs
  | .mflo rd => EncodingAgrees.mflo rd
  | .mtlo rs => EncodingAgrees.mtlo rs
  | .mfc0 rt cd => EncodingAgrees.mfc0 rt cd
  | .mtc0 rt cd => EncodingAgrees.mtc0 rt cd
  | .and rd rs rt => EncodingAgrees.and rd rs rt
  | .or rd rs rt => EncodingAgrees.or rd rs rt
  | .xor rd rs rt => EncodingAgrees.xor rd rs rt
  | .nor rd rs rt => EncodingAgrees.nor rd rs rt
  | .slt rd rs rt => EncodingAgrees.slt rd rs rt
  | .sltu rd rs rt => EncodingAgrees.sltu rd rs rt
  | .slti rt rs imm => EncodingAgrees.slti rt rs imm
  | .sltiu rt rs imm => EncodingAgrees.sltiu rt rs imm
  | .andi rt rs imm => EncodingAgrees.andi rt rs imm
  | .ori rt rs imm => EncodingAgrees.ori rt rs imm
  | .xori rt rs imm => EncodingAgrees.xori rt rs imm
  | .sll rd rt amount => EncodingAgrees.sll rd rt amount
  | .srl rd rt amount => EncodingAgrees.srl rd rt amount
  | .sra rd rt amount => EncodingAgrees.sra rd rt amount
  | .sllv rd rt rs => EncodingAgrees.sllv rd rt rs
  | .srlv rd rt rs => EncodingAgrees.srlv rd rt rs
  | .srav rd rt rs => EncodingAgrees.srav rd rt rs
  | .beq rs rt offset => EncodingAgrees.beq rs rt offset
  | .bne rs rt offset => EncodingAgrees.bne rs rt offset
  | .blez rs offset => EncodingAgrees.blez rs offset
  | .bgtz rs offset => EncodingAgrees.bgtz rs offset
  | .bltz rs offset => EncodingAgrees.bltz rs offset
  | .bgez rs offset => EncodingAgrees.bgez rs offset
  | .bltzal rs offset => EncodingAgrees.bltzal rs offset
  | .bgezal rs offset => EncodingAgrees.bgezal rs offset
  | .jr rs => EncodingAgrees.jr rs
  | .jalr rd rs => EncodingAgrees.jalr rd rs
  | .syscall => EncodingAgrees.syscall
  | .j target => EncodingAgrees.j target
  | .jal target => EncodingAgrees.jal target

/-- Settles O52. -/
theorem decodeOfEncode : Obligations.DecodeOfEncode :=
  fun i hi => (decodeWord_ok_iff _ i).2 (encodingAgrees i hi)

/-! ## A word is the encoding of what its row builds (R88, R89) -/

theorem registerWord_eq_iff (op : BitVec 6) (rs rt rd sh : BitVec 5) (fn : BitVec 6) (w : Word) :
    registerWord op rs rt rd sh fn = w ↔ op = fieldOp w ∧ rs = fieldRs w ∧ rt = fieldRt w ∧ rd = fieldRd w ∧
      sh = w.extractLsb' 6 5 ∧ fn = fieldFunct w := by
  conv_lhs => rw [← registerWord_fields w]
  exact registerWord_inj

theorem immediateWord_eq_iff (op : BitVec 6) (rs rt : BitVec 5) (imm : Imm) (w : Word) :
    immediateWord op rs rt imm = w ↔ op = fieldOp w ∧ rs = fieldRs w ∧ rt = fieldRt w ∧ imm = fieldImm w := by
  conv_lhs => rw [← immediateWord_fields w]
  exact immediateWord_inj

theorem jumpWord_eq_iff (op : BitVec 6) (target : Target) (w : Word) :
    jumpWord op target = w ↔ op = fieldOp w ∧ target = fieldTarget w := by
  conv_lhs => rw [← jumpWord_fields w]
  exact jumpWord_inj

/-- A row hits a word exactly when each field, under the mask's field, is the pattern's. -/
theorem hits_iff_fields (r : Row) (w : Word) :
    r.hits w = true ↔ fieldOp w &&& fieldOp r.mask = fieldOp r.pattern ∧ fieldRs w &&& fieldRs r.mask = fieldRs r.pattern ∧
      fieldRt w &&& fieldRt r.mask = fieldRt r.pattern ∧ fieldRd w &&& fieldRd r.mask = fieldRd r.pattern ∧
      w.extractLsb' 6 5 &&& r.mask.extractLsb' 6 5 = r.pattern.extractLsb' 6 5 ∧
      fieldFunct w &&& fieldFunct r.mask = fieldFunct r.pattern := by
  unfold Row.hits
  rw [beq_iff_eq, ← registerRow_hits, registerWord_fields, registerWord_fields]

/-- The row's instruction, from any word the row hits, fits its encoding and encodes to that word. -/
def Rebuilds (r : Row) : Prop := ∀ w, r.hits w = true → (r.build w).wellFormed = true ∧ encode (r.build w) = w

theorem and_six (x : BitVec 6) : x &&& 63#6 = x := BitVec.and_allOnes
theorem and_five (x : BitVec 5) : x &&& 31#5 = x := BitVec.and_allOnes

theorem fieldShamt_lt (w : Word) : fieldShamt w < 32 := (w.extractLsb' 6 5).isLt

theorem ofNat_fieldShamt (w : Word) : BitVec.ofNat 5 (fieldShamt w) = w.extractLsb' 6 5 := BitVec.ofNat_toNat _ _

/-- Row by row: a hit gives the fixed fields the pattern's values, so that the encoder's format picture, filled with them and
with the operands read from the word, is the word. -/
theorem opcodeRows_rebuild : ∀ r ∈ opcodeRows, Rebuilds r := by
  simp only [opcodeRows, arithmeticRows, dataTransferRows, logicalRows, shiftRows, branchRows, jumpRows, List.cons_append,
    List.nil_append, List.forall_mem_cons, List.not_mem_nil, false_implies, implies_true, and_true]
  and_intros
  all_goals
    intro w h
    rw [hits_iff_fields] at h
    simp [fieldOp, fieldRs, fieldRt, fieldRd, fieldFunct, and_six, and_five] at h
    simp [Instr.wellFormed, encode, registerWord_eq_iff, immediateWord_eq_iff, jumpWord_eq_iff, fieldOp, fieldRs, fieldRt,
      fieldRd, fieldFunct, fieldShamt_lt, ofNat_fieldShamt, h]

/-- Settles O53. -/
theorem encodeOfDecode : Obligations.EncodeOfDecode := by
  intro w i h
  obtain ⟨r, hr, hhit, rfl⟩ := (decodeWord_ok_iff w i).1 h
  exact opcodeRows_rebuild r hr w hhit

/-! ## Reserved words (R93) -/

/-- A 5-bit field of a mask: every bit of the field is fixed, or none is. -/
def fixedField (fixed : Prop) [Decidable fixed] : BitVec 5 := if fixed then 31#5 else 0#5

theorem and_fixedField (x : BitVec 5) (fixed : Prop) [Decidable fixed] :
    x &&& fixedField fixed = 0#5 ↔ (fixed → x = 0#5) := by
  unfold fixedField
  split <;> simp_all [and_five]

/-- The mask of the row of a function code under op-code 000000: fixed are the op-code, the function code and the fields the
source draws as zeros. -/
def functionMask (fn : BitVec 6) : Word :=
  registerWord 63#6
    (fixedField (fn ∈ [0b000000#6, 0b000010#6, 0b000011#6] ∨ fn ∈ [0b010000#6, 0b010010#6] ∨ fn = 0b001100#6))
    (fixedField (fn ∈ [0b001000#6, 0b001001#6, 0b010001#6, 0b010011#6] ∨ fn ∈ [0b010000#6, 0b010010#6] ∨ fn = 0b001100#6))
    (fixedField (fn ∈ [0b001000#6, 0b010001#6, 0b010011#6, 0b011000#6, 0b011001#6, 0b011010#6, 0b011011#6] ∨
      fn = 0b001100#6))
    (fixedField (fn ∉ [0b000000#6, 0b000010#6, 0b000011#6])) 63#6

theorem functionRow_exists : ∀ fn ∈ listedFunctions, ∃ r ∈ opcodeRows,
    r.pattern = registerWord 0b000000#6 0#5 0#5 0#5 0#5 fn ∧ r.mask = functionMask fn := by decide

theorem branchSelectorRow_exists : ∀ rt ∈ listedBranchSelectors, ∃ r ∈ opcodeRows,
    r.pattern = immediateWord 0b000001#6 0#5 rt 0#16 ∧ r.mask = immediateWord 63#6 0#5 31#5 0#16 := by decide

theorem cop0SelectorRow_exists : ∀ rs ∈ listedCop0Selectors, ∃ r ∈ opcodeRows,
    r.pattern = registerWord 0b010000#6 rs 0#5 0#5 0#5 0#6 ∧ r.mask = registerWord 63#6 31#5 0#5 0#5 31#5 63#6 := by
  decide

/-- Every other listed op-code has one row. -/
theorem opcodeRow_exists : ∀ op ∈ listedOpcodes, op ∉ [0b000000#6, 0b000001#6, 0b010000#6] → ∃ r ∈ opcodeRows,
    r.pattern = immediateWord op 0#5 0#5 0#16 ∧
      r.mask = immediateWord 63#6 (fixedField (op = 0b001111#6)) (fixedField (op ∈ [0b000110#6, 0b000111#6])) 0#16 := by
  decide

theorem fieldShamt_eq_zero_iff (w : Word) : fieldShamt w = 0 ↔ w.extractLsb' 6 5 = 0#5 :=
  ⟨fun h => BitVec.eq_of_toNat_eq h, congrArg BitVec.toNat⟩

/-- Bits 10:0 are the shift amount and the function code. -/
theorem lowBits_eq_zero_iff (w : Word) : w.extractLsb' 0 11 = 0#11 ↔ fieldShamt w = 0 ∧ fieldFunct w = 0#6 := by
  rw [fieldShamt_eq_zero_iff]
  constructor
  · intro h
    constructor
    · rw [← BitVec.extractLsb'_extractLsb'_of_le (len' := 11) (by decide), h]; rfl
    · rw [fieldFunct, ← BitVec.extractLsb'_extractLsb'_of_le (len' := 11) (by decide), h]; rfl
  · rintro ⟨hsh, hfn⟩
    rw [← BitVec.extractLsb'_append_extractLsb'_eq_extractLsb' (start₂ := 6) (len₂ := 5) (len₁ := 6) rfl, hsh]
    exact congrArg (0#5 ++ ·) hfn

section Hits

variable {r : Row} {op op' : BitVec 6} {rs rs' rt rt' rd rd' sh sh' : BitVec 5} {fn fn' : BitVec 6} {imm imm' : Imm}
  {w : Word}

theorem hits_of_registerRow (hp : r.pattern = registerWord op rs rt rd sh fn)
    (hm : r.mask = registerWord op' rs' rt' rd' sh' fn') :
    r.hits w = true ↔ fieldOp w &&& op' = op ∧ fieldRs w &&& rs' = rs ∧ fieldRt w &&& rt' = rt ∧ fieldRd w &&& rd' = rd ∧
      w.extractLsb' 6 5 &&& sh' = sh ∧ fieldFunct w &&& fn' = fn := by
  unfold Row.hits
  rw [hp, hm, beq_iff_eq, registerRow_hits]

theorem hits_of_immediateRow (hp : r.pattern = immediateWord op rs rt imm) (hm : r.mask = immediateWord op' rs' rt' imm') :
    r.hits w = true ↔
      fieldOp w &&& op' = op ∧ fieldRs w &&& rs' = rs ∧ fieldRt w &&& rt' = rt ∧ fieldImm w &&& imm' = imm := by
  unfold Row.hits
  rw [hp, hm, beq_iff_eq, immediateRow_hits]

end Hits

/-- A listed function code whose fixed fields hold names a row that hits the word. -/
theorem hit_of_function {w : Word} (hop : fieldOp w = 0b000000#6) (hfn : fieldFunct w ∈ listedFunctions)
    (hfixed : fixedFieldsHold w) : ∃ r ∈ opcodeRows, r.hits w = true := by
  obtain ⟨⟨hshift, hshamt, hrt, hrd, hmoves, hsyscall⟩, -⟩ := hfixed.imp_left (· hop)
  obtain ⟨r, hr, hp, hm⟩ := functionRow_exists _ hfn
  refine ⟨r, hr, (hits_of_registerRow hp hm).2 ⟨?op, (and_fixedField ..).2 ?rs, (and_fixedField ..).2 ?rt,
    (and_fixedField ..).2 ?rd, (and_fixedField ..).2 ?shamt, ?funct⟩⟩
  case op => rw [hop]; rfl
  case rs => exact fun h => h.elim hshift fun h => h.elim (fun h => (hmoves h).1) fun h => (hsyscall h).1
  case rt => exact fun h => h.elim hrt fun h => h.elim (fun h => (hmoves h).2) fun h => (hsyscall h).2.1
  case rd => exact fun h => h.elim hrd fun h => (hsyscall h).2.2
  case shamt => exact fun h => (fieldShamt_eq_zero_iff w).1 (hshamt h)
  case funct => exact and_six _

/-- A word off the list of R93 is hit by the row its op-code and selectors name. -/
theorem hit_of_not_reserved {w : Word} (h : ¬ ReservedByR93 w) : ∃ r ∈ opcodeRows, r.hits w = true := by
  simp only [ReservedByR93, not_or, not_and, not_not] at h
  obtain ⟨hop, hfn, hrt, hcop0, hfixed⟩ := h
  by_cases h0 : fieldOp w = 0b000000#6
  case pos => exact hit_of_function h0 (hfn h0) hfixed
  by_cases h1 : fieldOp w = 0b000001#6
  case pos =>
    obtain ⟨r, hr, hp, hm⟩ := branchSelectorRow_exists _ (hrt h1)
    exact ⟨r, hr, (hits_of_immediateRow hp hm).2 (by simp [h1, and_five])⟩
  by_cases h16 : fieldOp w = 0b010000#6
  case pos =>
    obtain ⟨hrs, hlow⟩ := hcop0 h16
    obtain ⟨hsh, hfn⟩ := (lowBits_eq_zero_iff w).1 hlow
    obtain ⟨r, hr, hp, hm⟩ := cop0SelectorRow_exists _ hrs
    exact ⟨r, hr, (hits_of_registerRow hp hm).2 (by simp [h16, and_five, (fieldShamt_eq_zero_iff w).1 hsh, hfn])⟩
  obtain ⟨-, hbranch, hlui, -⟩ := hfixed
  obtain ⟨r, hr, hp, hm⟩ := opcodeRow_exists _ hop (by simp [h0, h1, h16])
  exact ⟨r, hr, (hits_of_immediateRow hp hm).2
    ⟨and_six _, (and_fixedField ..).2 hlui, (and_fixedField ..).2 hbranch, BitVec.and_zero⟩⟩

/-- No encoding is on the list of R93: constructor by constructor, its op-code and selectors are listed and its fixed fields
are zero. -/
theorem encode_not_reserved (i : Instr) : ¬ ReservedByR93 (encode i) := by
  unfold ReservedByR93 fixedFieldsHold
  cases i with
  | add | addu | sub | subu | mult | multu | div | divu | mfhi | mthi | mflo | mtlo | and | or | xor | nor | slt | sltu | sll
  | srl | sra | sllv | srlv | srav | jr | jalr | syscall => simp [encode, listedOpcodes, listedFunctions]
  | bltz | bgez | bltzal | bgezal => simp [encode, listedOpcodes, listedBranchSelectors]
  | mfc0 | mtc0 => simp [encode, listedOpcodes, listedCop0Selectors, lowBits_eq_zero_iff]
  | _ => simp [encode, listedOpcodes]

/-- Settles O55. -/
theorem reservedWordsAreR93s : Obligations.ReservedWordsAreR93s := by
  intro w
  constructor
  · rintro ⟨e, he⟩
    by_contra hres
    obtain ⟨i, hi⟩ := (decodes_iff w).2 (hit_of_not_reserved hres)
    simp [hi] at he
  · intro hres
    cases hdec : decodeWord w with
    | error e => exact ⟨e, rfl⟩
    | ok i =>
      obtain ⟨-, rfl⟩ := encodeOfDecode w i hdec
      exact absurd hres (encode_not_reserved i)

/-! ## Written words (R88, R90) -/

/-- Settles O56. -/
theorem writtenWordsDecode : Obligations.WrittenWordsDecode := by
  have hbreak : decodeWord 0x0000000D#32 = .error (.unlistedFunction 0b001101#6) := rfl
  refine ⟨rfl, rfl, rfl, rfl, rfl, rfl, fun i h => ?_, rfl⟩
  cases hbreak.symm.trans h

/-- Settles O57: the write to register 0 is discarded, and what is left is a jump to the next instruction. -/
theorem zeroWordDoesNothing : Obligations.ZeroWordDoesNothing :=
  ⟨rfl, fun s => ⟨s.jumpTo (s.pc + 4#32), rfl, s.jumpTo_writesPc _⟩⟩

/-! ## Code addresses (R95, R220, R253) -/

theorem extractLsb'_two_eq_zero_iff (a : Word) : a.extractLsb' 0 2 = 0#2 ↔ a.toNat % 4 = 0 := by
  rw [← notWordAddress_eq_false_iff]
  simp [notWordAddress]

/-- The word offset cut out of an aligned distance in a branch's range leads back to the distance. -/
theorem signExtendImm_extract_shiftLeft {d : Word} (haligned : d.toNat % 4 = 0) (hlow : -131072 ≤ d.toInt)
    (hhigh : d.toInt ≤ 131068) : signExtendImm (d.extractLsb' 2 16) <<< 2 = d := by
  apply BitVec.eq_of_toNat_eq
  rw [signExtendImm, BitVec.toNat_shiftLeft, BitVec.toNat_signExtend, BitVec.msb_eq_decide, BitVec.toNat_setWidth,
    BitVec.extractLsb'_toNat, Nat.shiftRight_eq_div_pow, Nat.shiftLeft_eq]
  rw [BitVec.toInt_eq_toNat_cond] at hlow hhigh
  have hd := d.isLt
  simp only [decide_eq_true_eq]
  split at hlow <;> split <;> omega

theorem branchTarget_of_branchField {a addr : Word} {f : Imm} (h : branchField a addr = some f) :
    branchTarget a f = addr := by
  simp only [branchField, Option.ite_none_right_eq_some, Option.some.injEq, extractLsb'_two_eq_zero_iff] at h
  obtain ⟨⟨haligned, hlow, hhigh⟩, rfl⟩ := h
  rw [branchTarget, signExtendImm_extract_shiftLeft haligned hlow hhigh, BitVec.add_comm, BitVec.sub_add_cancel]

theorem jumpTarget_of_jumpField {a addr : Word} {f : Target} (h : jumpField a addr = some f) :
    jumpTarget a f = addr := by
  simp only [jumpField, Option.ite_none_right_eq_some, Option.some.injEq] at h
  obtain ⟨⟨haligned, hregion⟩, rfl⟩ := h
  calc jumpTarget a (addr.extractLsb' 2 26)
    _ = addr.extractLsb' 28 4 ++ addr.extractLsb' 2 26 ++ addr.extractLsb' 0 2 := by rw [jumpTarget, hregion, haligned]
    _ = addr.extractLsb' 2 30 ++ addr.extractLsb' 0 2 :=
      congrArg (· ++ addr.extractLsb' 0 2) (BitVec.extractLsb'_append_extractLsb'_eq_extractLsb' rfl)
    _ = addr.extractLsb' 0 32 := BitVec.extractLsb'_append_extractLsb'_eq_extractLsb' rfl
    _ = addr := BitVec.extractLsb'_eq_self

/-- A whole number of words within a branch's range is a target the assembler accepts. -/
theorem branchField_isSome (a : Word) {k : Int} (hlow : -32768 ≤ k) (hhigh : k ≤ 32767) :
    (branchField a (a + 4#32 + BitVec.ofInt 32 (4 * k))).isSome = true := by
  have hd : a + 4#32 + BitVec.ofInt 32 (4 * k) - incremented a = BitVec.ofInt 32 (4 * k) := by
    rw [incremented, BitVec.add_comm, BitVec.add_sub_cancel]
  have hint : (BitVec.ofInt 32 (4 * k)).toInt = 4 * k := BitVec.toInt_ofInt_eq_self (by decide) (by omega) (by omega)
  have haligned : (BitVec.ofInt 32 (4 * k)).toNat % 4 = 0 := by
    rw [BitVec.toNat_ofInt]
    omega
  simp only [branchField, hd, hint, extractLsb'_two_eq_zero_iff]
  rw [if_pos ⟨haligned, by omega, by omega⟩]
  rfl

/-- An aligned address in the region of the next instruction is a target the assembler accepts. -/
theorem jumpField_isSome {a addr : Word} (haligned : addr.toNat % 4 = 0)
    (hregion : addr.toNat / 2 ^ 28 = (a + 4#32).toNat / 2 ^ 28) : (jumpField a addr).isSome = true := by
  have hupper : addr.extractLsb' 28 4 = (incremented a).extractLsb' 28 4 := by
    apply BitVec.eq_of_toNat_eq
    simp only [BitVec.extractLsb'_toNat, Nat.shiftRight_eq_div_pow, incremented, hregion]
  rw [jumpField, if_pos ⟨(extractLsb'_two_eq_zero_iff addr).2 haligned, hupper⟩]
  rfl

/-- Settles O60. -/
theorem assembledTargetsAreReached : Obligations.AssembledTargetsAreReached := by
  intro a addr
  refine ⟨fun f => branchTarget_of_branchField, fun f => jumpTarget_of_jumpField, ?_, jumpField_isSome⟩
  rintro k hlow hhigh rfl
  exact branchField_isSome a hlow hhigh

/-! ## Pseudo-instructions (R97): the words their expansions compute -/

theorem zeroExtendImm_low_of_le {v : Word} (h : v.toNat ≤ 65535) : zeroExtendImm (v.extractLsb' 0 16) = v := by
  apply BitVec.eq_of_toNat_eq
  rw [zeroExtendImm, BitVec.toNat_setWidth, BitVec.extractLsb'_toNat, Nat.shiftRight_zero]
  omega

theorem signExtendImm_low_of_range {v : Word} (hlow : -32768 ≤ v.toInt) (hneg : v.toInt < 0) :
    signExtendImm (v.extractLsb' 0 16) = v := by
  apply BitVec.eq_of_toNat_eq
  rw [signExtendImm, BitVec.toNat_signExtend, BitVec.msb_eq_decide, BitVec.toNat_setWidth, BitVec.extractLsb'_toNat,
    Nat.shiftRight_zero]
  rw [BitVec.toInt_eq_toNat_cond] at hlow hneg
  have hv := v.isLt
  simp only [decide_eq_true_eq]
  split at hlow <;> split <;> omega

theorem upperImm_high_of_low_zero {v : Word} (h : v.extractLsb' 0 16 = 0#16) : upperImm (v.extractLsb' 16 16) = v := by
  rw [upperImm, ← h]
  exact (BitVec.extractLsb'_append_extractLsb'_eq_extractLsb' rfl).trans BitVec.extractLsb'_eq_self

/-- `lui` and `ori` put a word's halves together. -/
theorem upperImm_or_zeroExtendImm (v : Word) :
    upperImm (v.extractLsb' 16 16) ||| zeroExtendImm (v.extractLsb' 0 16) = v := by
  ext i hi
  simp [upperImm, zeroExtendImm]
  grind

/-- Negation overflows for the least integer only. -/
theorem subOverflows_zero (b : Word) : subOverflows 0#32 b = decide (b = 0x80000000#32) := by
  have hsign (v : Word) : signBit v = v.msb := (BitVec.msb_eq_getLsbD_last v).symm
  have hzero : b.msb = true → b ≠ 0#32 := by rintro h rfl; simp at h
  rw [subOverflows, BitVec.zero_sub, hsign, hsign, hsign, BitVec.msb_neg, show BitVec.intMin 32 = 0x80000000#32 from rfl]
  by_cases h : b = 0x80000000#32
  · subst h; rfl
  · cases hb : b.msb <;> simp [h, hb, hzero]

theorem shiftRightSign_31 (v : Word) : shiftRightSign v 31 = if v.toInt < 0 then BitVec.allOnes 32 else 0#32 := by
  apply BitVec.eq_of_toInt_eq
  have := v.toInt_lt
  have := v.le_toInt
  rw [shiftRightSign, BitVec.toInt_sshiftRight, Int.shiftRight_eq_div_pow]
  split
  · rw [show (BitVec.allOnes 32).toInt = -1 from rfl]
    omega
  · rw [BitVec.toInt_zero]
    omega

/-- Exclusive-or with the sign and subtracting it negates a negative word and no other. -/
theorem xor_sub_sign (v : Word) :
    (shiftRightSign v 31 ^^^ v) - shiftRightSign v 31 = if v.toInt < 0 then 0#32 - v else v := by
  rw [shiftRightSign_31]
  split
  · rw [BitVec.allOnes_xor, BitVec.zero_sub, BitVec.neg_eq_not_add, BitVec.sub_eq_add_neg]
    rfl
  · rw [BitVec.zero_xor, BitVec.sub_zero]

theorem truthWord_xor_one (c : Bool) : truthWord c ^^^ zeroExtendImm 1#16 = truthWord (!c) := by
  cases c <;> rfl

theorem truthWord_beq_zero (c : Bool) : (truthWord c == 0#32) = !c := by
  cases c <;> rfl

theorem truthWord_bne_zero (c : Bool) : (truthWord c != 0#32) = c := by
  cases c <;> rfl

theorem not_lessSigned (a b : Word) : (!lessSigned a b) = decide (a.toInt ≥ b.toInt) := by
  rw [lessSigned, ← decide_not]
  exact decide_eq_decide.2 Int.not_lt

theorem State.sltiuOperand_one (s : State) : s.sltiuOperand 1#16 = 1#32 := by
  unfold State.sltiuOperand
  split <;> rfl

theorem lessUnsigned_xor_one (a b : Word) : lessUnsigned (a ^^^ b) 1#32 = (a == b) := by
  rw [lessUnsigned, Bool.eq_iff_iff, decide_eq_true_eq, beq_iff_eq, ← BitVec.xor_eq_zero_iff, ← BitVec.toNat_inj]
  simp

theorem lessUnsigned_zero_xor (a b : Word) : lessUnsigned 0#32 (a ^^^ b) = (a != b) := by
  rw [lessUnsigned, Bool.eq_iff_iff, decide_eq_true_eq, bne_iff_ne, ne_eq, ← BitVec.xor_eq_zero_iff, ← BitVec.toNat_inj]
  simp [Nat.pos_iff_ne_zero]

/-- The low five bits of the negated amount are the complementary amount. -/
theorem shiftAmount_neg (v : Word) : shiftAmount (0#32 - v) = (32 - shiftAmount v) % 32 := by
  have hamount (u : Word) : shiftAmount u = u.toNat % 32 := by simp [shiftAmount, BitVec.extractLsb'_toNat]
  rw [hamount, hamount, BitVec.toNat_sub, BitVec.toNat_ofNat]
  omega

/-! ## Running an expansion -/

/-- `x[d] <- v`, then `pc <- npc`: the next state of `State.result`. -/
def State.put (s : State) (d : RegNum) (v : Word) : State := (s.writeReg d v).advance

theorem State.result_eq_put (s : State) (d : RegNum) (v : Word) : s.result d v = .next (s.put d v) := rfl

theorem State.put_writesReg (s : State) (d : RegNum) (v : Word) : WritesReg d v (s.pc + 4#32) s (s.put d v) :=
  s.result_writesReg d v

@[simp] theorem State.put_pc (s : State) (d : RegNum) (v : Word) : (s.put d v).pc = s.pc + 4#32 :=
  (s.put_writesReg d v).1

@[simp] theorem State.put_trap (s : State) (d : RegNum) (v : Word) : (s.put d v).trap = s.trap := by simp [State.put]

theorem State.readReg_put (s : State) (d q : RegNum) (v : Word) :
    (s.put d v).readReg q = if q = d ∧ q ≠ 0#5 then v else s.readReg q := by
  simp [State.put, State.readReg_writeReg]

theorem State.readReg_put_same (s : State) {d : RegNum} (v : Word) (hd : d ≠ 0#5) : (s.put d v).readReg d = v := by
  simp [State.readReg_put, hd]

theorem State.readReg_put_other (s : State) {d q : RegNum} (v : Word) (h : q ≠ d) : (s.put d v).readReg q = s.readReg q := by
  simp [State.readReg_put, h]

@[simp] theorem State.readReg_put_scratch (s : State) (v : Word) : (s.put scratchReg v).readReg scratchReg = v :=
  s.readReg_put_same v (by decide)

/-- From `s` to `t` nothing differs but `pc`, `$at` and the register `rd`. -/
def SameBut (rd : RegNum) (s t : State) : Prop :=
  (∀ r, r ≠ rd → r ≠ scratchReg → t.readReg r = s.readReg r) ∧ SameHiLo s t ∧ SameCp0 s t ∧ SameMem s t ∧ SameRest s t

theorem SameBut.refl (rd : RegNum) (s : State) : SameBut rd s s :=
  ⟨fun _ _ _ => rfl, ⟨rfl, rfl⟩, fun _ => rfl, ⟨fun _ => rfl, fun _ => Iff.rfl⟩, rfl, rfl, rfl, rfl⟩

theorem SameBut.trans {rd : RegNum} {s t u : State} (h : SameBut rd s t) (h' : SameBut rd t u) : SameBut rd s u := by
  obtain ⟨hreg, ⟨hhi, hlo⟩, hcp0, ⟨hmem, hmark⟩, htrap, henv, hdraws, hparams⟩ := h
  obtain ⟨hreg', ⟨hhi', hlo'⟩, hcp0', ⟨hmem', hmark'⟩, htrap', henv', hdraws', hparams'⟩ := h'
  exact ⟨fun r hr hat => (hreg' r hr hat).trans (hreg r hr hat), ⟨hhi'.trans hhi, hlo'.trans hlo⟩,
    fun c => (hcp0' c).trans (hcp0 c), ⟨fun a => (hmem' a).trans (hmem a), fun a => (hmark' a).trans (hmark a)⟩,
    htrap'.trans htrap, henv'.trans henv, hdraws'.trans hdraws, hparams'.trans hparams⟩

theorem SameBut.put {rd d : RegNum} (s : State) (v : Word) (hd : d = rd ∨ d = scratchReg) :
    SameBut rd s (s.put d v) := by
  obtain ⟨-, -, hrest⟩ := s.put_writesReg d v
  refine ⟨fun r hr hat => s.readReg_put_other v ?_, hrest⟩
  rintro rfl
  exact hd.elim hr hat

theorem SameBut.branch (rd : RegNum) (s : State) (c : Bool) (o : Imm) : SameBut rd s (s.branch c o) := by
  rw [State.branch_eq_jumpTo]
  obtain ⟨-, hregs, hrest⟩ := s.jumpTo_writesPc (if c then branchTarget s.pc o else incremented s.pc)
  exact ⟨fun r _ _ => hregs r, hrest⟩

/-- The instructions run to a next state with `P`, and only `pc`, `$at` and `rd` may differ on the way. -/
def Runs (rd : RegNum) (is : List Instr) (s : State) (P : State → Prop) : Prop :=
  ∃ t, execAll is s = .next t ∧ SameBut rd s t ∧ P t

theorem Runs.nil {rd : RegNum} {s : State} {P : State → Prop} (h : P s) : Runs rd [] s P := ⟨s, rfl, .refl rd s, h⟩

theorem execAll_cons {i : Instr} {s t : State} (is : List Instr) (hi : exec i s = .next t) (ht : t.trap = none) :
    execAll (i :: is) s = execAll is t := by
  simp [execAll, hi, ht]

/-- An instruction that writes `rd` or `$at` and advances, and then the rest. -/
theorem Runs.cons {rd d : RegNum} {v : Word} {i : Instr} {is : List Instr} {s : State} {P : State → Prop}
    (hi : exec i s = s.result d v) (hd : d = rd ∨ d = scratchReg) (hs : s.trap = none) (h : Runs rd is (s.put d v) P) :
    Runs rd (i :: is) s P := by
  obtain ⟨t, hrun, hsame, hP⟩ := h
  have hnext : exec i s = .next (s.put d v) := hi.trans (s.result_eq_put d v)
  exact ⟨t, (execAll_cons is hnext (by simpa)).trans hrun, (SameBut.put s v hd).trans hsame, hP⟩

/-- A branch at the end. -/
theorem Runs.branch {rd : RegNum} {c : Bool} {o : Imm} {i : Instr} {s : State} {P : State → Prop}
    (hi : exec i s = .next (s.branch c o)) (hs : s.trap = none) (h : P (s.branch c o)) : Runs rd [i] s P :=
  ⟨s.branch c o, execAll_cons [] hi (by simpa), .branch rd s c o, h⟩

/-! ## What the expansions deliver -/

/-- After `n` instructions `rd` holds `v`, unless it is register 0, and `pc` is past them. -/
def Delivers (s : State) (n : Nat) (rd : RegNum) (v : Word) (t : State) : Prop :=
  t.pc = s.pc + BitVec.ofNat 32 (4 * n) ∧ (rd ≠ 0#5 → t.readReg rd = v)

section Expansions

variable {s : State} {rd rs rt : RegNum} {v : Word}

theorem runs_one {i : Instr} (hs : s.trap = none) (hi : exec i s = s.result rd v) : Runs rd [i] s (Delivers s 1 rd v) :=
  .cons hi (.inl rfl) hs (.nil ⟨by simp, s.readReg_put_same v⟩)

/-- Two instructions, the second over the register the first has written. -/
theorem runs_two {i j : Instr} {u : Word} (f : State → Word → Word) (hs : s.trap = none) (hi : exec i s = s.result rd u)
    (hj : ∀ t, exec j t = t.result rd (f t (t.readReg rd))) (hf : ∀ t, f t u = v) :
    Runs rd [i, j] s (Delivers s 2 rd v) := by
  refine .cons hi (.inl rfl) hs (.cons (hj _) (.inl rfl) (by simpa) (.nil ⟨by simp [BitVec.add_assoc], fun h0 => ?_⟩))
  rw [State.readReg_put_same _ _ h0, State.readReg_put_same _ _ h0, hf]

theorem runs_loadConstant (hs : s.trap = none) : Runs rd (loadConstant rd v) s (Delivers s 2 rd v) :=
  runs_two (fun _ u => u ||| zeroExtendImm (v.extractLsb' 0 16)) hs rfl (fun _ => rfl)
    fun _ => upperImm_or_zeroExtendImm v

theorem runs_expandLi (hs : s.trap = none) : Runs rd (expandLi rd v) s (Delivers s (expandLi rd v).length rd v) := by
  unfold expandLi
  split
  next h => exact runs_one hs (congrArg (s.result rd) (BitVec.zero_or.trans (zeroExtendImm_low_of_le h)))
  split
  next h =>
    obtain ⟨hlow, hneg⟩ := h
    exact runs_one hs (congrArg (s.result rd) ((BitVec.zero_add _).trans (signExtendImm_low_of_range hlow hneg)))
  split
  next h => exact runs_one hs (congrArg (s.result rd) (upperImm_high_of_low_zero h))
  next => exact runs_loadConstant hs

theorem runs_neg (hs : s.trap = none) (hb : s.readReg rs ≠ 0x80000000#32) :
    Runs rd [.sub rd 0#5 rs] s (Delivers s 1 rd (0#32 - s.readReg rs)) := by
  refine runs_one hs ?_
  have hno : subOverflows 0#32 (s.readReg rs) = false := by simp [subOverflows_zero, hb]
  simp [exec, execSub, hno]

theorem runs_abs (hs : s.trap = none) (hrd : rd ≠ scratchReg) (hrs : rs ≠ scratchReg) :
    Runs rd (Pseudo.abs rd rs).expand s
      (Delivers s 3 rd (if (s.readReg rs).toInt < 0 then 0#32 - s.readReg rs else s.readReg rs)) := by
  refine .cons rfl (.inr rfl) hs (.cons rfl (.inl rfl) (by simpa) (.cons rfl (.inl rfl) (by simpa)
    (.nil ⟨by simp [BitVec.add_assoc], fun h0 => ?_⟩)))
  simp only [State.readReg_put_same _ _ h0, State.readReg_put_other _ _ hrd.symm, State.readReg_put_other _ _ hrs,
    State.readReg_put_scratch, xor_sub_sign]

/-- The two parts of a rotation, the first through `$at` with the complementary amount. -/
theorem runs_rotate {i j : Instr} (f g : Word → Nat → Word) (hs : s.trap = none) (hrd : rd ≠ scratchReg)
    (hrs : rs ≠ scratchReg) (hrt : rt ≠ scratchReg)
    (hi : ∀ t, exec i t = t.result scratchReg (f (t.readReg rs) (shiftAmount (t.readReg scratchReg))))
    (hj : ∀ t, exec j t = t.result rd (g (t.readReg rs) (shiftAmount (t.readReg rt)))) :
    Runs rd [.subu scratchReg 0#5 rt, i, j, .or rd rd scratchReg] s (Delivers s 4 rd
      (g (s.readReg rs) (shiftAmount (s.readReg rt)) ||| f (s.readReg rs) ((32 - shiftAmount (s.readReg rt)) % 32))) := by
  refine .cons rfl (.inr rfl) hs (.cons (hi _) (.inr rfl) (by simpa) (.cons (hj _) (.inl rfl) (by simpa)
    (.cons rfl (.inl rfl) (by simpa) (.nil ⟨by simp [BitVec.add_assoc], fun h0 => ?_⟩))))
  simp only [State.readReg_put_same _ _ h0, State.readReg_put_other _ _ hrd.symm, State.readReg_put_other _ _ hrs,
    State.readReg_put_other _ _ hrt, State.readReg_put_scratch, State.readReg_zero, shiftAmount_neg]

end Expansions

/-- Every pseudo-instruction with a value delivers it. -/
theorem runs_expand_value {p : Pseudo} {s : State} {rd : RegNum} {v : Word} (hs : s.trap = none)
    (he : p.effect s = .value rd v) (hrd : rd ≠ scratchReg) (hp : p.avoidsScratch = true)
    (hneg : ∀ rs, p = .neg rd rs → s.readReg rs ≠ 0x80000000#32) :
    Runs rd p.expand s (Delivers s p.expand.length rd v) := by
  cases p <;> simp only [Pseudo.effect, PseudoEffect.value.injEq, reduceCtorEq] at he
  all_goals
    obtain ⟨rfl, rfl⟩ := he
    simp only [Pseudo.avoidsScratch, bne_iff_ne, Bool.and_eq_true] at hp
  case li => exact runs_expandLi hs
  case la a =>
    cases a with
    | absolute a => exact runs_loadConstant hs
    | based imm rs => exact runs_one hs rfl
  case move => exact runs_one hs (congrArg (s.result _) (BitVec.zero_add _))
  case neg rs => exact runs_neg hs (hneg rs rfl)
  case abs => exact runs_abs hs hrd hp
  case not => exact runs_one hs (congrArg (fun u => s.result _ (~~~u)) BitVec.or_zero)
  case seq =>
    exact runs_two (fun t u => truthWord (lessUnsigned u (t.sltiuOperand 1#16))) hs rfl (fun _ => rfl) fun t => by
      rw [t.sltiuOperand_one, lessUnsigned_xor_one]
  case sge =>
    exact runs_two (fun _ u => u ^^^ zeroExtendImm 1#16) hs rfl (fun _ => rfl) fun _ =>
      (truthWord_xor_one _).trans (congrArg truthWord (not_lessSigned _ _))
  case sgt => exact runs_one hs rfl
  case sle =>
    exact runs_two (fun _ u => u ^^^ zeroExtendImm 1#16) hs rfl (fun _ => rfl) fun _ =>
      (truthWord_xor_one _).trans (congrArg truthWord (not_lessSigned _ _))
  case sne =>
    exact runs_two (fun _ u => truthWord (lessUnsigned 0#32 u)) hs rfl (fun _ => rfl) fun _ => by rw [lessUnsigned_zero_xor]
  case ror =>
    obtain ⟨hrs, hrt⟩ := hp
    exact runs_rotate shiftLeft shiftRightZero hs hrd hrs hrt (fun _ => rfl) fun _ => rfl
  case rol =>
    obtain ⟨hrs, hrt⟩ := hp
    exact runs_rotate shiftRightZero shiftLeft hs hrd hrs hrt (fun _ => rfl) fun _ => rfl

/-- After `n` instructions `pc` is past them, and the branch's word offset further if it is taken. -/
def BranchesTo (s : State) (n : Nat) (taken : Bool) (offset : Imm) (t : State) : Prop :=
  t.pc = s.pc + BitVec.ofNat 32 (4 * n) + (if taken then offset.signExtend 32 <<< 2 else 0#32)

section Branches

variable {s : State} {taken : Bool} {offset : Imm}

theorem State.branch_branchesTo (s : State) (taken : Bool) (offset : Imm) :
    BranchesTo s 1 taken offset (s.branch taken offset) := by
  cases taken <;> simp [BranchesTo, branchTarget, incremented, signExtendImm]

theorem runs_branch {i : Instr} (hs : s.trap = none) (hi : exec i s = .next (s.branch taken offset)) :
    Runs scratchReg [i] s (BranchesTo s 1 taken offset) :=
  .branch hi hs (s.branch_branchesTo taken offset)

/-- A comparison into `$at` and a branch on it. -/
theorem runs_compareBranch {i j : Instr} {c : Bool} (f : Word → Bool) (hs : s.trap = none)
    (hi : exec i s = s.result scratchReg (truthWord c))
    (hj : ∀ t, exec j t = .next (t.branch (f (t.readReg scratchReg)) offset)) (hf : f (truthWord c) = taken) :
    Runs scratchReg [i, j] s (BranchesTo s 2 taken offset) := by
  refine .cons hi (.inl rfl) hs (.branch (hj _) (by simpa) ?_)
  have hbranch := (s.put scratchReg (truthWord c)).branch_branchesTo taken offset
  rw [State.readReg_put_scratch, hf]
  simpa [BranchesTo, BitVec.add_assoc] using hbranch

end Branches

/-- Every branch pseudo-instruction branches as its sentence says. -/
theorem runs_expand_branch {p : Pseudo} {s : State} {taken : Bool} {offset : Imm} (hs : s.trap = none)
    (he : p.effect s = .branch taken) (ho : p.branchOffset = some offset) :
    Runs scratchReg p.expand s (BranchesTo s p.expand.length taken offset) := by
  cases p <;> simp only [Pseudo.effect, PseudoEffect.branch.injEq, reduceCtorEq] at he
  all_goals
    simp only [Pseudo.branchOffset, Option.some.injEq] at ho
    subst he ho
  case beqz => exact runs_branch hs rfl
  case bnez => exact runs_branch hs rfl
  case bgt => exact runs_compareBranch (· != 0#32) hs rfl (fun _ => rfl) (truthWord_bne_zero _)
  case blt => exact runs_compareBranch (· != 0#32) hs rfl (fun _ => rfl) (truthWord_bne_zero _)
  case bge => exact runs_compareBranch (· == 0#32) hs rfl (fun _ => rfl) ((truthWord_beq_zero _).trans (not_lessSigned _ _))
  case ble => exact runs_compareBranch (· == 0#32) hs rfl (fun _ => rfl) ((truthWord_beq_zero _).trans (not_lessSigned _ _))

theorem execAll_neg_overflow {rd rs : RegNum} {s : State} (h : s.readReg rs = 0x80000000#32) :
    execAll (Pseudo.neg rd rs).expand s = .next { s with trap := some { cause := .integerOverflow, epc := s.pc } } := by
  have htrap : exec (.sub rd 0#5 rs) s = s.raise .integerOverflow := by
    simp [exec, execSub, h, subOverflows_zero]
  simp [Pseudo.expand, execAll, htrap, State.raise]

/-- Settles O59: every expansion runs as its sentence says, but for the one `neg` whose `sub` overflows. -/
theorem pseudoExpansionsAchieveMeaning : Obligations.PseudoExpansionsAchieveMeaning := by
  refine ⟨fun p s rd v hs he hrd hp hneg => ?_, fun rd rs s h => execAll_neg_overflow h,
    fun p s taken offset hs he ho hp => ?_⟩
  · obtain ⟨t, hrun, ⟨hregs, hrest⟩, hpc, hv⟩ := runs_expand_value hs he hrd hp hneg
    exact ⟨t, hrun, hpc, hv, hregs, hrest⟩
  · obtain ⟨t, hrun, ⟨hregs, hrest⟩, hpc⟩ := runs_expand_branch hs he ho
    exact ⟨t, hrun, hpc, fun r hr => hregs r hr hr, hrest⟩

end Sys2Proof.Machine
end

section
/-! SUPPORT. Proofs of the arithmetic family (spec/40_arithmetic.md): the overflow tests (R120), sums and differences (R110 to
R113, R118, R119), products (R114, R115, R121) and divisions (R116, R117, R122). -/

namespace Sys2Proof.Machine

/-! ## The overflow tests (R120) -/

theorem signBit_eq_msb (v : Word) : signBit v = v.msb := (BitVec.msb_eq_getLsbD_last v).symm

/-- The model's test on sign bits is the library's test on the exact sum. -/
theorem addOverflows_eq_saddOverflow (a b : Word) : addOverflows a b = a.saddOverflow b := by
  rw [addOverflows, signBit_eq_msb, signBit_eq_msb, signBit_eq_msb, BitVec.saddOverflow_eq]
  rfl

/-- The model's test on sign bits is the library's test on the exact difference. -/
theorem subOverflows_eq_ssubOverflow (a b : Word) : subOverflows a b = a.ssubOverflow b := by
  rw [subOverflows, signBit_eq_msb, signBit_eq_msb, signBit_eq_msb, BitVec.ssubOverflow_eq]
  cases a.msb <;> cases b.msb <;> simp

theorem not_fitsSigned_iff (n : Int) : ¬ FitsSigned n ↔ 2 ^ 31 ≤ n ∨ n < -2 ^ 31 := by
  unfold FitsSigned
  omega

theorem addOverflows_iff (a b : Word) : addOverflows a b = true ↔ ¬ FitsSigned (a.toInt + b.toInt) := by
  rw [addOverflows_eq_saddOverflow, not_fitsSigned_iff]
  simp [BitVec.saddOverflow]

theorem subOverflows_iff (a b : Word) : subOverflows a b = true ↔ ¬ FitsSigned (a.toInt - b.toInt) := by
  rw [subOverflows_eq_ssubOverflow, not_fitsSigned_iff]
  simp [BitVec.ssubOverflow]

/-- Settles O2. -/
theorem overflowBitTestIsExactRange : Obligations.OverflowBitTestIsExactRange :=
  fun a b => ⟨addOverflows_iff a b, subOverflows_iff a b⟩

/-! ## Sums and differences (R110 to R113, R118, R119) -/

/-- The 32-bit sum is the exact one modulo `2^32`. -/
theorem ofInt_add_toInt (a b : Word) : BitVec.ofInt 32 (a.toInt + b.toInt) = a + b := by
  rw [BitVec.ofInt_add, BitVec.ofInt_toInt, BitVec.ofInt_toInt]

/-- The 32-bit difference is the exact one modulo `2^32`. -/
theorem ofInt_sub_toInt (a b : Word) : BitVec.ofInt 32 (a.toInt - b.toInt) = a - b := by
  rw [sub_eq_add_neg, BitVec.ofInt_add, BitVec.ofInt_neg, BitVec.ofInt_toInt, BitVec.ofInt_toInt, BitVec.sub_eq_add_neg]

theorem toInt_signExtendImm (imm : Imm) : (signExtendImm imm).toInt = imm.toInt :=
  BitVec.toInt_signExtend_of_le (by decide)

/-- An instruction that ends in `State.result` completes, with that one register written. -/
theorem completes_of_result {i : Instr} {s : State} {d : RegNum} {v : Word} (h : exec i s = s.result d v) :
    Completes i s (WritesReg d v (s.pc + 4#32)) :=
  ⟨_, h, s.result_writesReg d v⟩

section Sums

variable {s : State} {d : RegNum} {a b : Word}

theorem State.addTrapping_of_fits (h : FitsSigned (a.toInt + b.toInt)) :
    s.addTrapping d a b = s.result d (BitVec.ofInt 32 (a.toInt + b.toInt)) := by
  rw [State.addTrapping, if_neg fun hover => (addOverflows_iff a b).1 hover h, ofInt_add_toInt]

theorem State.addTrapping_of_not_fits (h : ¬ FitsSigned (a.toInt + b.toInt)) :
    s.addTrapping d a b = s.raise .integerOverflow :=
  if_pos ((addOverflows_iff a b).2 h)

end Sums

section Differences

variable {s : State} {rd rs rt : RegNum}

theorem exec_sub_of_fits (h : FitsSigned ((s.readReg rs).toInt - (s.readReg rt).toInt)) :
    exec (.sub rd rs rt) s = s.result rd (BitVec.ofInt 32 ((s.readReg rs).toInt - (s.readReg rt).toInt)) := by
  rw [ofInt_sub_toInt]
  exact if_neg fun hover => (subOverflows_iff _ _).1 hover h

theorem exec_sub_of_not_fits (h : ¬ FitsSigned ((s.readReg rs).toInt - (s.readReg rt).toInt)) :
    exec (.sub rd rs rt) s = s.raise .integerOverflow :=
  if_pos ((subOverflows_iff _ _).2 h)

end Differences

/-- Settles O1: each instruction branches on its overflow test, which is the exact range. -/
theorem trappingAddSubAreSigned : Obligations.TrappingAddSubAreSigned := by
  intro rd rs rt imm s
  rw [← toInt_signExtendImm imm]
  refine ⟨⟨decodeOfEncode (.add rd rs rt) rfl, decodeOfEncode (.sub rd rs rt) rfl, decodeOfEncode (.addi rt rs imm) rfl⟩,
    ?add, ?addTraps, ?sub, ?subTraps, ?addi, ?addiTraps⟩
  case add => exact fun h => completes_of_result (State.addTrapping_of_fits h)
  case addTraps => exact fun h => State.addTrapping_of_not_fits h
  case sub => exact fun h => completes_of_result (exec_sub_of_fits h)
  case subTraps => exact fun h => exec_sub_of_not_fits h
  case addi => exact fun h => completes_of_result (State.addTrapping_of_fits h)
  case addiTraps => exact fun h => State.addTrapping_of_not_fits h

/-- Settles O3. -/
theorem wrappingAddSubNeverTrap : Obligations.WrappingAddSubNeverTrap := by
  intro rd rs rt imm s
  rw [← toInt_signExtendImm imm, ofInt_add_toInt, ofInt_sub_toInt, ofInt_add_toInt]
  exact ⟨⟨decodeOfEncode (.addu rd rs rt) rfl, decodeOfEncode (.subu rd rs rt) rfl,
      decodeOfEncode (.addiu rt rs imm) rfl⟩,
    completes_of_result rfl, completes_of_result rfl, completes_of_result rfl⟩

/-! ## Products (R114, R115, R121) -/

/-- The halves that a product leaves in `hi` and `lo` make it up again. -/
theorem halves_append (p : BitVec 64) : p.extractLsb' 32 32 ++ p.extractLsb' 0 32 = p :=
  (BitVec.extractLsb'_append_extractLsb'_eq_extractLsb' rfl).trans BitVec.extractLsb'_eq_self

/-- A product of two signed words fits 64 bits. -/
theorem toInt_ofInt_mul_toInt (a b : Word) : (BitVec.ofInt 64 (a.toInt * b.toInt)).toInt = a.toInt * b.toInt := by
  have hlow : -2 ^ (32 * 2 - 2) ≤ a.toInt * b.toInt := BitVec.le_toInt_mul_toInt
  have hhigh : a.toInt * b.toInt ≤ 2 ^ (32 * 2 - 2) := BitVec.toInt_mul_toInt_le
  exact BitVec.toInt_ofInt_eq_self (by decide) (by omega) (by omega)

/-- A product of two unsigned words fits 64 bits. -/
theorem toNat_ofNat_mul_toNat (a b : Word) : (BitVec.ofNat 64 (a.toNat * b.toNat)).toNat = a.toNat * b.toNat :=
  Nat.mod_eq_of_lt BitVec.toNat_mul_toNat_lt

/-- Settles O4. -/
theorem productsAreExact : Obligations.ProductsAreExact := by
  intro rs rt s
  have hmult := (congrArg BitVec.toInt (halves_append _)).trans (toInt_ofInt_mul_toInt (s.readReg rs) (s.readReg rt))
  have hmultu := (congrArg BitVec.toNat (halves_append _)).trans (toNat_ofNat_mul_toNat (s.readReg rs) (s.readReg rt))
  exact ⟨decodeOfEncode (.mult rs rt) rfl, decodeOfEncode (.multu rs rt) rfl,
    ⟨_, rfl, s.writeHiLo_writesHiLo _ _, hmult⟩, ⟨_, rfl, s.writeHiLo_writesHiLo _ _, hmultu⟩⟩

/-! ## Divisions (R116, R117, R122) -/

/-- The operands of the one signed division whose quotient does not fit are these words. -/
theorem eq_of_divOverflow_operands {a b : Word} (hn : a.toInt = -2 ^ 31) (hd : b.toInt = -1) :
    a = 0x80000000#32 ∧ b = 0xFFFFFFFF#32 :=
  ⟨BitVec.eq_of_toInt_eq hn, BitVec.eq_of_toInt_eq hd⟩

/-- Outside `-2^31 / -1` the truncated quotient is the library's, read back exactly. -/
theorem toInt_sdiv_of_not_overflow {a b : Word} (h : ¬ (a.toInt = -2 ^ 31 ∧ b.toInt = -1)) :
    (a.sdiv b).toInt = a.toInt.tdiv b.toInt := by
  refine BitVec.toInt_sdiv_of_ne_or_ne a b ?_
  by_contra hboth
  obtain ⟨rfl, rfl⟩ : a = BitVec.intMin 32 ∧ b = -1#32 := by simpa using hboth
  exact h ⟨rfl, rfl⟩

theorem toInt_srem_eq_sub {a b : Word} (h : ¬ (a.toInt = -2 ^ 31 ∧ b.toInt = -1)) :
    (a.srem b).toInt = a.toInt - (a.sdiv b).toInt * b.toInt := by
  rw [BitVec.toInt_srem, toInt_sdiv_of_not_overflow h, Int.tmod_def, mul_comm]

theorem toNat_umod_eq_sub (a b : Word) : (a % b).toNat = a.toNat - (a / b).toNat * b.toNat := by
  rw [BitVec.toNat_umod, BitVec.toNat_udiv, Nat.mod_eq_sub_div_mul]

section Division

variable {s : State} {rs rt : RegNum}

theorem exec_div_of_zero (hd : (s.readReg rt).toInt = 0) : exec (.div rs rt) s = .next s.drawHiLo.advance :=
  if_pos hd

theorem exec_div_of_overflow (hn : (s.readReg rs).toInt = -2 ^ 31) (hd : (s.readReg rt).toInt = -1) :
    exec (.div rs rt) s = .next s.divOverflow.advance := by
  simp [exec, execDiv, hn, hd]

/-- Everywhere else `div` leaves the library's remainder and quotient. -/
theorem exec_div_of_regular (hd : (s.readReg rt).toInt ≠ 0)
    (hover : ¬ ((s.readReg rs).toInt = -2 ^ 31 ∧ (s.readReg rt).toInt = -1)) :
    exec (.div rs rt) s =
      .next (s.writeHiLo ((s.readReg rs).srem (s.readReg rt)) ((s.readReg rs).sdiv (s.readReg rt))).advance := by
  rw [exec, execDiv, if_neg hd, if_neg hover, ← toInt_sdiv_of_not_overflow hover, ← toInt_srem_eq_sub hover,
    BitVec.ofInt_toInt, BitVec.ofInt_toInt]

theorem exec_divu_of_zero (hd : (s.readReg rt).toNat = 0) : exec (.divu rs rt) s = .next s.drawHiLo.advance :=
  if_pos hd

/-- With a nonzero divisor `divu` leaves the library's remainder and quotient. -/
theorem exec_divu_of_ne_zero (hd : (s.readReg rt).toNat ≠ 0) :
    exec (.divu rs rt) s = .next (s.writeHiLo (s.readReg rs % s.readReg rt) (s.readReg rs / s.readReg rt)).advance := by
  rw [exec, execDivu, if_neg hd, ← Nat.mod_eq_sub_div_mul, ← BitVec.toNat_umod, ← BitVec.toNat_udiv,
    BitVec.ofNat_toNat, BitVec.ofNat_toNat, BitVec.setWidth_eq, BitVec.setWidth_eq]

theorem State.divOverflow_of_value {lo hi : Word} (h : s.params.divOvf = .value lo hi) :
    s.divOverflow = s.writeHiLo hi lo := by
  rw [State.divOverflow, h]

theorem State.divOverflow_of_draw (h : s.params.divOvf = .draw) : s.divOverflow = s.drawHiLo := by
  rw [State.divOverflow, h]

end Division

/-- Settles O5: the three cases of `div`. -/
theorem signedDivisionTruncates : Obligations.SignedDivisionTruncates := by
  intro rs rt s
  refine ⟨decodeOfEncode (.div rs rt) rfl, fun hd hover => ?regular, fun hn hd => ⟨fun lo hi hovf => ?value,
    fun hovf => ?draw⟩, fun hd => exec_div_of_zero hd⟩
  case regular =>
    exact ⟨_, exec_div_of_regular hd hover, s.writeHiLo_writesHiLo _ _, toInt_sdiv_of_not_overflow hover,
      toInt_srem_eq_sub hover⟩
  case value =>
    refine ⟨_, exec_div_of_overflow hn hd, ?_⟩
    rw [State.divOverflow_of_value hovf]
    exact s.writeHiLo_writesHiLo hi lo
  case draw =>
    rw [exec_div_of_overflow hn hd, State.divOverflow_of_draw hovf]
    rfl

/-- Settles O6. -/
theorem unsignedDivisionFloors : Obligations.UnsignedDivisionFloors := by
  intro rs rt s
  refine ⟨decodeOfEncode (.divu rs rt) rfl, fun hd => ⟨_, exec_divu_of_ne_zero hd, s.writeHiLo_writesHiLo _ _, ?quotient,
    ?remainder, ?bound⟩, fun hd => exec_divu_of_zero hd⟩
  case quotient => exact BitVec.toNat_udiv
  case remainder => exact toNat_umod_eq_sub _ _
  case bound => exact BitVec.toNat_umod.trans_lt (Nat.mod_lt _ (Nat.pos_of_ne_zero hd))

/-- The signed division identity holds modulo `2^32` (R122). -/
theorem sdiv_mul_add_srem {a b : Word} (h : ¬ (a.toInt = -2 ^ 31 ∧ b.toInt = -1)) : a.sdiv b * b + a.srem b = a := by
  calc a.sdiv b * b + a.srem b
    _ = BitVec.ofInt 32 ((a.sdiv b).toInt * b.toInt + (a.srem b).toInt) := by
      simp only [BitVec.ofInt_add, BitVec.ofInt_mul, BitVec.ofInt_toInt]
    _ = BitVec.ofInt 32 a.toInt := by rw [toInt_sdiv_of_not_overflow h, BitVec.toInt_srem, Int.tdiv_mul_add_tmod]
    _ = a := BitVec.ofInt_toInt

/-- The unsigned division identity holds exactly (R122). -/
theorem udiv_mul_add_umod (a b : Word) : a.toNat = (a / b).toNat * b.toNat + (a % b).toNat := by
  rw [BitVec.toNat_udiv, BitVec.toNat_umod, Nat.div_add_mod']

theorem natAbs_srem_lt (a : Word) {b : Word} (hb : b.toInt ≠ 0) : (a.srem b).toInt.natAbs < b.toInt.natAbs := by
  rw [BitVec.toInt_srem, Int.natAbs_tmod]
  exact Nat.mod_lt _ (Int.natAbs_pos.2 hb)

/-- A nonzero remainder has the sign of the dividend. -/
theorem srem_sign (a b : Word) : (a.srem b).toInt = 0 ∨ ((a.srem b).toInt < 0 ↔ a.toInt < 0) := by
  rw [BitVec.toInt_srem, ← Int.sign_eq_zero_iff_zero, ← Int.sign_eq_neg_one_iff_neg, ← Int.sign_eq_neg_one_iff_neg,
    Int.sign_tmod]
  split
  · exact .inl rfl
  · exact .inr Iff.rfl

/-- Settles O7: the identity outside `-2^31 / -1` is the library's division; in that case the default pair satisfies it. -/
theorem divisionIdentity : Obligations.DivisionIdentity := by
  intro rs rt s hne
  have hd : (s.readReg rt).toInt ≠ 0 := fun h => hne (BitVec.eq_of_toInt_eq h)
  have hdu : (s.readReg rt).toNat ≠ 0 := fun h => hne (BitVec.eq_of_toNat_eq h)
  refine ⟨fun hcase => ?div, _, exec_divu_of_ne_zero hdu, udiv_mul_add_umod _ _⟩
  case div =>
    by_cases hover : (s.readReg rs).toInt = -2 ^ 31 ∧ (s.readReg rt).toInt = -1
    · obtain ⟨hn, hm⟩ := hover
      obtain ⟨hrs, hrt⟩ := eq_of_divOverflow_operands hn hm
      have hdefault := hcase.resolve_right (not_not.2 ⟨hn, hm⟩)
      refine ⟨_, exec_div_of_overflow hn hm, ?_, fun hnot => absurd ⟨hn, hm⟩ hnot⟩
      simp [State.divOverflow_of_value hdefault, hrs, hrt]
    · exact ⟨_, exec_div_of_regular hd hover, (sdiv_mul_add_srem hover).symm,
        fun _ => ⟨natAbs_srem_lt _ hd, srem_sign _ _⟩⟩

end Sys2Proof.Machine
end

section
/-! SUPPORT. Proofs of the data transfer family (spec/41_data_transfer.md): aligned loads and stores (R131, R132, R134 to R136,
R138, R139, R141), the unaligned accesses and their pairs (R133, R137, R140, R142), and the moves between registers (R143 to
R149). -/

namespace Sys2Proof.Machine

/-! ## Aligned loads and stores (R131, R132, R134 to R136, R138, R139, R141) -/

/-- The lowest bit decides the alignment check of a halfword (R56). -/
theorem oddAddress_eq_getLsbD (a : Word) : oddAddress a = a.getLsbD 0 := by
  rw [oddAddress, Bool.eq_iff_iff, bne_iff_ne, ← BitVec.toNat_inj.ne, BitVec.extractLsb'_toNat]
  simp [BitVec.getLsbD, Nat.testBit_zero]

theorem not_oddAddress {a : Word} (h : a.getLsbD 0 = false) : ¬ oddAddress a = true := by
  rw [oddAddress_eq_getLsbD, h]
  exact Bool.false_ne_true

theorem not_notWordAddress {a : Word} (h : a.toNat % 4 = 0) : ¬ notWordAddress a = true :=
  fun hmis => (notWordAddress_eq_true_iff a).1 hmis h

section Completion

variable {i : Instr} {s : State}

/-- An instruction that ends in `State.load` with a value completes, with that one register written. -/
theorem completes_of_load {rt : RegNum} {e : Except Word Word} {v : Word} (h : exec i s = s.load rt e) (he : e = .ok v) :
    Completes i s (WritesReg rt v (s.pc + 4#32)) :=
  completes_of_result (by rw [h, he]; rfl)

/-- The order of the stores does not matter where the addresses differ. -/
theorem Stores.perm {l l' : List (Word × Byte)} {t : State} (h : Stores l s t) (hp : l.Perm l') : Stores l' s t := by
  simpa only [Stores, hp.mem_iff, (hp.map Prod.fst).mem_iff] using h

/-- An instruction that ends in `State.store` completes if its bytes are populated and lie at different addresses; their order
does not matter. -/
theorem completes_of_store {l l' : List (Word × Byte)} (h : exec i s = s.store l') (hl : l'.Perm l) (hm : s.mem.wf = true)
    (hp : ∀ a ∈ l.map Prod.fst, s.mem.isPopulated a = true) (hd : (l.map Prod.fst).Nodup) : Completes i s (Stores l) := by
  have hp' (p) (hmem : p ∈ l') : s.mem.isPopulated p.1 = true := hp _ (List.mem_map_of_mem (hl.mem_iff.1 hmem))
  have hd' : (l'.map Prod.fst).Nodup := (hl.map Prod.fst).nodup_iff.2 hd
  exact ⟨_, h.trans (s.store_populated l' hp'), (s.storeBytes_stores l' hm hp' hd').perm hl⟩

end Completion

section Aligned

variable {rt rs : RegNum} {imm : Imm} {s : State}

theorem exec_lh_of_even (h : (s.address imm rs).getLsbD 0 = false) :
    exec (.lh rt imm rs) s = s.load rt ((s.readHalf (s.address imm rs)).map signExtendHalf) :=
  if_neg (not_oddAddress h)

theorem exec_lhu_of_even (h : (s.address imm rs).getLsbD 0 = false) :
    exec (.lhu rt imm rs) s = s.load rt ((s.readHalf (s.address imm rs)).map zeroExtendHalf) :=
  if_neg (not_oddAddress h)

theorem exec_sh_of_even (h : (s.address imm rs).getLsbD 0 = false) :
    exec (.sh rt imm rs) s = s.store (halfStores (s.address imm rs) (s.readReg rt)) :=
  if_neg (not_oddAddress h)

theorem exec_lw_of_aligned (h : (s.address imm rs).toNat % 4 = 0) :
    exec (.lw rt imm rs) s = s.load rt (s.readWord (s.address imm rs)) :=
  if_neg (not_notWordAddress h)

theorem exec_sw_of_aligned (h : (s.address imm rs).toNat % 4 = 0) :
    exec (.sw rt imm rs) s = s.store (wordStores (s.address imm rs) (s.readReg rt)) :=
  if_neg (not_notWordAddress h)

end Aligned

/-- Settles O8. -/
theorem byteLoadsExtend : Obligations.ByteLoadsExtend := by
  intro rt rs imm s b
  refine ⟨⟨decodeOfEncode (.lb rt imm rs) rfl, decodeOfEncode (.lbu rt imm rs) rfl⟩, fun h => ?_⟩
  have hread : s.readByte (s.address imm rs) = .ok b := State.readByte_ok.2 h
  exact ⟨completes_of_load rfl (by rw [hread]; rfl), completes_of_load rfl (by rw [hread]; rfl)⟩

/-- Settles O9. -/
theorem halfwordLoadsExtendOrTrap : Obligations.HalfwordLoadsExtendOrTrap := by
  rintro rt rs imm s _ rfl
  refine ⟨⟨decodeOfEncode (.lh rt imm rs) rfl, decodeOfEncode (.lhu rt imm rs) rfl⟩, fun b0 b1 heven h0 h1 => ?even,
    fun hodd => ?odd⟩
  case even =>
    have hread : s.readHalf (s.address imm rs) = .ok (halfOfBytes b0 b1) := State.readHalf_ok h0 h1
    exact ⟨completes_of_load (exec_lh_of_even heven) (by rw [hread]; rfl),
      completes_of_load (exec_lhu_of_even heven) (by rw [hread]; rfl)⟩
  case odd => exact ⟨if_pos ((oddAddress_eq_getLsbD _).trans hodd), if_pos ((oddAddress_eq_getLsbD _).trans hodd)⟩

/-- Settles O10. -/
theorem wordLoadOrTrap : Obligations.WordLoadOrTrap := by
  rintro rt rs imm s _ rfl
  exact ⟨decodeOfEncode (.lw rt imm rs) rfl,
    fun b0 b1 b2 b3 hal h0 h1 h2 h3 => completes_of_load (exec_lw_of_aligned hal) (State.readWord_ok h0 h1 h2 h3),
    fun hal => if_pos ((notWordAddress_eq_true_iff _).2 hal)⟩

/-- Settles O14. -/
theorem alignedStores : Obligations.AlignedStores := by
  rintro rt rs imm s _ hs rfl
  obtain ⟨hm, -⟩ := s.wf_iff.1 hs
  refine ⟨⟨decodeOfEncode (.sb rt imm rs) rfl, decodeOfEncode (.sh rt imm rs) rfl, decodeOfEncode (.sw rt imm rs) rfl⟩,
    fun h0 => ?sb, fun heven h0 h1 => ?sh, fun hodd => ?shTraps, fun hal h0 h1 h2 h3 => ?sw, fun hal => ?swTraps⟩
  case sb => exact completes_of_store rfl (.refl _) hm (by simpa [byteStores] using h0) (List.nodup_singleton _)
  case sh =>
    exact completes_of_store (exec_sh_of_even heven) (.refl _) hm (by simpa [halfStores] using ⟨h0, h1⟩) (halfStores_nodup _ _)
  case shTraps => exact if_pos ((oddAddress_eq_getLsbD _).trans hodd)
  case sw =>
    exact completes_of_store (exec_sw_of_aligned hal) (.refl _) hm (by simpa [wordStores] using ⟨h0, h1, h2, h3⟩)
      (wordStores_nodup _ _)
  case swTraps => exact if_pos ((notWordAddress_eq_true_iff _).2 hal)

/-! ## The addresses of the unaligned accesses (R130, R133, R137, R140, R142) -/

theorem byteInWord_eq_mod (ea : Word) : byteInWord ea = ea.toNat % 4 := BitVec.extractLsb'_toNat 0 2 ea

theorem byteInWord_add_three (a : Word) : byteInWord (a + 3#32) = (byteInWord a + 3) % 4 := by
  rw [byteInWord_eq_mod, byteInWord_eq_mod, BitVec.toNat_add]
  simp

/-- In an aligned word the distance from its start is the byte's place (R130). -/
theorem byteInWord_add {base : Word} (hal : base.toNat % 4 = 0) {n : Nat} (hn : n < 4) :
    byteInWord (base + BitVec.ofNat 32 n) = n := by
  rw [byteInWord_eq_mod, BitVec.toNat_add, BitVec.toNat_ofNat]
  omega

/-- The addresses of four bytes in a row. -/
def wordAddresses (a : Word) : List Word := [a, a + 1#32, a + 2#32, a + 3#32]

theorem wordStores_addresses (a v : Word) : (wordStores a v).map Prod.fst = wordAddresses a := rfl

/-- `swr` stores a beginning of the word store at its address. -/
theorem rightStores_eq_take (ea v : Word) : rightStores ea v = (wordStores ea v).take (4 - byteInWord ea) := by
  have hn := byteInWord_lt ea
  unfold rightStores
  interval_cases byteInWord ea <;> simp [List.range_succ, wordStores]

/-- `swl` stores an end of the word store that ends at its address, the last byte first. -/
theorem leftStores_eq_reverse (a v : Word) :
    leftStores (a + 3#32) v = ((wordStores a v).drop (3 - byteInWord (a + 3#32))).reverse := by
  have hn := byteInWord_lt (a + 3#32)
  unfold leftStores
  interval_cases byteInWord (a + 3#32) <;> simp [List.range_succ, wordStores, BitVec.sub_eq_add_neg, BitVec.add_assoc]

theorem rightAddresses_eq_take (ea : Word) : rightAddresses ea = (wordAddresses ea).take (4 - byteInWord ea) := by
  rw [← rightStores_addresses ea 0#32, rightStores_eq_take, List.map_take, wordStores_addresses]

theorem leftAddresses_eq_reverse (a : Word) :
    leftAddresses (a + 3#32) = ((wordAddresses a).drop (3 - byteInWord (a + 3#32))).reverse := by
  rw [← leftStores_addresses _ 0#32, leftStores_eq_reverse, List.map_reverse, List.map_drop, wordStores_addresses]

section AlignedBase

variable {base : Word} {n : Nat}

/-- The bytes from place `n` of an aligned word to its end. -/
theorem take_wordAddresses_of_aligned (hal : base.toNat % 4 = 0) (hn : n < 4) :
    (wordAddresses (base + BitVec.ofNat 32 n)).take (4 - byteInWord (base + BitVec.ofNat 32 n)) =
      (wordAddresses base).drop n := by
  rw [byteInWord_add hal hn]
  interval_cases n <;> simp [wordAddresses, BitVec.add_assoc]

/-- The bytes from the start of an aligned word to place `n`. -/
theorem drop_wordAddresses_of_aligned (hal : base.toNat % 4 = 0) (hn : n < 4) :
    (wordAddresses (base + BitVec.ofNat 32 n - 3#32)).drop (3 - byteInWord (base + BitVec.ofNat 32 n)) =
      (wordAddresses base).take (n + 1) := by
  rw [byteInWord_add hal hn]
  interval_cases n <;> simp [wordAddresses, BitVec.sub_eq_add_neg, BitVec.add_assoc]

end AlignedBase

/-! ## Unaligned loads (R133, R137) -/

/-- The memory holds the bytes `bs` at the addresses `as`. -/
def Memory.HoldsAt (m : Memory) (as : List Word) (bs : List Byte) : Prop := List.Forall₂ (fun a b => m.read a = some b) as bs

theorem State.readBytes_ok {s : State} {as : List Word} {bs : List Byte} (h : s.mem.HoldsAt as bs) :
    s.readBytes as = .ok bs := by
  induction h with
  | nil => rfl
  | cons hb _ ih => simp [State.readBytes, State.readByte_ok.2 hb, ih, bind, Except.bind, pure, Except.pure]

theorem Memory.HoldsBytes.holdsAt {m : Memory} {a : Word} {b0 b1 b2 b3 : Byte} (h : m.HoldsBytes a b0 b1 b2 b3) :
    m.HoldsAt (wordAddresses a) [b0, b1, b2, b3] := by
  obtain ⟨h0, h1, h2, h3⟩ := h
  exact .cons h0 (.cons h1 (.cons h2 (.cons h3 .nil)))

section UnalignedLoads

variable {rt rs : RegNum} {imm : Imm} {s : State} {a : Word} {bs : List Byte}

/-- `lwr` loads the first bytes of the four from its address upward. -/
theorem lwr_completes (hea : s.address imm rs = a) (h : s.mem.HoldsAt ((wordAddresses a).take (4 - byteInWord a)) bs) :
    Completes (.lwr rt imm rs) s (WritesReg rt (mergeRight (s.readReg rt) bs) (s.pc + 4#32)) := by
  refine completes_of_load rfl ?_
  rw [hea, rightAddresses_eq_take, State.readBytes_ok h]
  rfl

/-- `lwl` loads the last bytes of the four that end at its address, the highest address first. -/
theorem lwl_completes (hea : s.address imm rs = a + 3#32)
    (h : s.mem.HoldsAt ((wordAddresses a).drop (3 - byteInWord (a + 3#32))) bs) :
    Completes (.lwl rt imm rs) s (WritesReg rt (mergeLeft (s.readReg rt) bs.reverse) (s.pc + 4#32)) := by
  refine completes_of_load rfl ?_
  rw [hea, leftAddresses_eq_reverse, State.readBytes_ok (List.rel_reverse h)]
  rfl

variable {base : Word} {n : Nat}

/-- `lwr` at place `n` of an aligned word. -/
theorem lwr_completes_of_aligned (hal : base.toNat % 4 = 0) (hn : n < 4)
    (hea : s.address imm rs = base + BitVec.ofNat 32 n) (h : s.mem.HoldsAt ((wordAddresses base).drop n) bs) :
    Completes (.lwr rt imm rs) s (WritesReg rt (mergeRight (s.readReg rt) bs) (s.pc + 4#32)) :=
  lwr_completes hea (by rwa [take_wordAddresses_of_aligned hal hn])

/-- `lwl` at place `n` of an aligned word. -/
theorem lwl_completes_of_aligned (hal : base.toNat % 4 = 0) (hn : n < 4)
    (hea : s.address imm rs = base + BitVec.ofNat 32 n) (h : s.mem.HoldsAt ((wordAddresses base).take (n + 1)) bs) :
    Completes (.lwl rt imm rs) s (WritesReg rt (mergeLeft (s.readReg rt) bs.reverse) (s.pc + 4#32)) := by
  refine lwl_completes (a := base + BitVec.ofNat 32 n - 3#32) ?_ ?_
  · rwa [BitVec.sub_add_cancel]
  · rwa [BitVec.sub_add_cancel, drop_wordAddresses_of_aligned hal hn]

end UnalignedLoads

/-- Settles O11: the four rows of the table. -/
theorem loadWordLeftMerges : Obligations.LoadWordLeftMerges := by
  intro rt rs imm s base b0 b1 b2 b3 hal
  refine ⟨decodeOfEncode (.lwl rt imm rs) rfl, fun hea h0 => ?_, fun hea h0 h1 => ?_, fun hea h0 h1 h2 => ?_,
    fun hea h0 h1 h2 h3 => ?_⟩
  · exact lwl_completes_of_aligned (n := 0) hal (by decide) (hea.trans base.add_zero.symm) (.cons h0 .nil)
  · exact lwl_completes_of_aligned (n := 1) hal (by decide) hea (.cons h0 (.cons h1 .nil))
  · exact lwl_completes_of_aligned (n := 2) hal (by decide) hea (.cons h0 (.cons h1 (.cons h2 .nil)))
  · exact lwl_completes_of_aligned (n := 3) hal (by decide) hea (.cons h0 (.cons h1 (.cons h2 (.cons h3 .nil))))

/-- Settles O12: the four rows of the table. -/
theorem loadWordRightMerges : Obligations.LoadWordRightMerges := by
  intro rt rs imm s base b0 b1 b2 b3 hal
  refine ⟨decodeOfEncode (.lwr rt imm rs) rfl, fun hea h0 h1 h2 h3 => ?_, fun hea h1 h2 h3 => ?_, fun hea h2 h3 => ?_,
    fun hea h3 => ?_⟩
  · exact lwr_completes_of_aligned (n := 0) hal (by decide) (hea.trans base.add_zero.symm)
      (.cons h0 (.cons h1 (.cons h2 (.cons h3 .nil))))
  · exact lwr_completes_of_aligned (n := 1) hal (by decide) hea (.cons h1 (.cons h2 (.cons h3 .nil)))
  · exact lwr_completes_of_aligned (n := 2) hal (by decide) hea (.cons h2 (.cons h3 .nil))
  · exact lwr_completes_of_aligned (n := 3) hal (by decide) hea (.cons h3 .nil)

/-! ## A pair of unaligned loads (R133, R137) -/

/-- What `lwr` at the first of the four bytes `bs` from `a` makes of the old value. -/
def lwrResult (a : Word) (bs : List Byte) (old : Word) : Word := mergeRight old (bs.take (4 - byteInWord a))

/-- What `lwl` at the last of the four bytes `bs` from `a` makes of the old value. -/
def lwlResult (a : Word) (bs : List Byte) (old : Word) : Word := mergeLeft old (bs.drop (3 - byteInWord (a + 3#32))).reverse

/-- Whatever the place of `a` in its word, `lwl` after `lwr` leaves nothing of the old value. -/
theorem lwlResult_lwrResult (a old : Word) (b0 b1 b2 b3 : Byte) :
    lwlResult a [b0, b1, b2, b3] (lwrResult a [b0, b1, b2, b3] old) = b3 ++ b2 ++ b1 ++ b0 := by
  have hn := byteInWord_lt a
  rw [lwlResult, lwrResult, byteInWord_add_three]
  ext i
  interval_cases byteInWord a <;> simp [mergeLeft, mergeRight] <;> grind

/-- Whatever the place of `a` in its word, `lwr` after `lwl` leaves nothing of the old value. -/
theorem lwrResult_lwlResult (a old : Word) (b0 b1 b2 b3 : Byte) :
    lwrResult a [b0, b1, b2, b3] (lwlResult a [b0, b1, b2, b3] old) = b3 ++ b2 ++ b1 ++ b0 := by
  have hn := byteInWord_lt a
  rw [lwlResult, lwrResult, byteInWord_add_three]
  ext i
  interval_cases byteInWord a <;> simp [mergeLeft, mergeRight] <;> grind

theorem WritesReg.trans {d : RegNum} {v w p q : Word} {s t u : State} (h : WritesReg d v p s t) (h' : WritesReg d w q t u) :
    WritesReg d w q s u := by
  obtain ⟨-, hreg, ⟨hhi, hlo⟩, hcp0, ⟨hmem, hmark⟩, htrap, henv, hdraws, hparams⟩ := h
  obtain ⟨hpc, hreg', ⟨hhi', hlo'⟩, hcp0', ⟨hmem', hmark'⟩, htrap', henv', hdraws', hparams'⟩ := h'
  refine ⟨hpc, fun r => ?_, ⟨hhi'.trans hhi, hlo'.trans hlo⟩, fun c => (hcp0' c).trans (hcp0 c),
    ⟨fun a => (hmem' a).trans (hmem a), fun a => (hmark' a).trans (hmark a)⟩, htrap'.trans htrap, henv'.trans henv,
    hdraws'.trans hdraws, hparams'.trans hparams⟩
  rw [hreg', hreg]
  split <;> rfl

/-- What would be written to register 0 does not matter (R21). -/
theorem WritesReg.congr {d : RegNum} {v w p : Word} {s t : State} (h : WritesReg d v p s t) (hv : d ≠ 0#5 → v = w) :
    WritesReg d w p s t := by
  obtain ⟨hpc, hreg, hrest⟩ := h
  refine ⟨hpc, fun r => (hreg r).trans ?_, hrest⟩
  split
  next hr => exact hv (hr.1 ▸ hr.2)
  next => rfl

/-- Two loads into `rt`, one after the other: the second merges into what the first has left, and reads its address and its bytes
as the first did, because neither is in `rt`. -/
theorem exec_load_pair {i j : Instr} {rt rs : RegNum} {s : State} {v : Word} {f g : Word → Word} (hrt : rt = 0#5 ∨ rt ≠ rs)
    (hi : Completes i s (WritesReg rt (f (s.readReg rt)) (s.pc + 4#32)))
    (hj : ∀ t : State, t.readReg rs = s.readReg rs → (∀ a, t.mem.read a = s.mem.read a) →
      Completes j t (WritesReg rt (g (t.readReg rt)) (t.pc + 4#32)))
    (hv : g (f (s.readReg rt)) = v) :
    ∃ t u, exec i s = .next t ∧ exec j t = .next u ∧ WritesReg rt v (s.pc + 8#32) s u := by
  obtain ⟨t, ht, hwrites⟩ := hi
  have ⟨hpc, hreg, _, _, ⟨hmem, _⟩, _⟩ := hwrites
  have hrs : t.readReg rs = s.readReg rs := by
    rw [hreg, if_neg]
    rintro ⟨rfl, h0⟩
    exact hrt.elim h0 (· rfl)
  obtain ⟨u, hu, hwrites'⟩ := hj t hrs hmem
  rw [hpc, BitVec.add_assoc] at hwrites'
  refine ⟨t, u, ht, hu, (hwrites.trans hwrites').congr fun h0 => ?_⟩
  rw [hreg, if_pos ⟨rfl, h0⟩, hv]

theorem State.address_zero (s : State) (rs : RegNum) : s.address 0#16 rs = s.readReg rs :=
  BitVec.add_zero _

theorem State.address_three (s : State) (rs : RegNum) : s.address 3#16 rs = s.readReg rs + 3#32 := rfl

section LoadPair

variable {rt rs : RegNum} {s : State} {a : Word} {b0 b1 b2 b3 : Byte}

theorem lwr_completes_of_holds (hrs : s.readReg rs = a) (h : s.mem.HoldsBytes a b0 b1 b2 b3) :
    Completes (.lwr rt 0#16 rs) s (WritesReg rt (lwrResult a [b0, b1, b2, b3] (s.readReg rt)) (s.pc + 4#32)) :=
  lwr_completes ((s.address_zero rs).trans hrs) (List.forall₂_take _ h.holdsAt)

theorem lwl_completes_of_holds (hrs : s.readReg rs = a) (h : s.mem.HoldsBytes a b0 b1 b2 b3) :
    Completes (.lwl rt 3#16 rs) s (WritesReg rt (lwlResult a [b0, b1, b2, b3] (s.readReg rt)) (s.pc + 4#32)) :=
  lwl_completes (by rw [State.address_three, hrs]) (List.forall₂_drop _ h.holdsAt)

end LoadPair

/-- Settles O13. -/
theorem unalignedLoadPair : Obligations.UnalignedLoadPair := by
  rintro rt rs s a b0 b1 b2 b3 hrt hrs h0 h1 h2 h3
  have hholds : s.mem.HoldsBytes a b0 b1 b2 b3 := ⟨h0, h1, h2, h3⟩
  have hholds' {t : State} (hmem : ∀ a, t.mem.read a = s.mem.read a) : t.mem.HoldsBytes a b0 b1 b2 b3 := by
    simpa only [Memory.HoldsBytes, hmem] using hholds
  exact ⟨exec_load_pair hrt (lwr_completes_of_holds hrs hholds)
      (fun t ht hmem => lwl_completes_of_holds (ht.trans hrs) (hholds' hmem)) (lwlResult_lwrResult a _ b0 b1 b2 b3),
    exec_load_pair hrt (lwl_completes_of_holds hrs hholds)
      (fun t ht hmem => lwr_completes_of_holds (ht.trans hrs) (hholds' hmem)) (lwrResult_lwlResult a _ b0 b1 b2 b3)⟩

/-! ## Unaligned stores (R140, R142) -/

/-- The bytes of a word, least significant first (R53). -/
def wordBytes (v : Word) : List Byte := [byteOfWord v 0, byteOfWord v 1, byteOfWord v 2, byteOfWord v 3]

theorem wordStores_eq_zip (a v : Word) : wordStores a v = (wordAddresses a).zip (wordBytes v) := rfl

section UnalignedStores

variable {rt rs : RegNum} {imm : Imm} {s : State} {a : Word}

/-- `swr` stores the first bytes of the four from its address upward. -/
theorem swr_completes (hm : s.mem.wf = true) (hea : s.address imm rs = a)
    (hp : ∀ b ∈ (wordAddresses a).take (4 - byteInWord a), s.mem.isPopulated b = true) :
    Completes (.swr rt imm rs) s (Stores ((wordStores a (s.readReg rt)).take (4 - byteInWord a))) := by
  have horder : rightStores (s.address imm rs) (s.readReg rt) = (wordStores a (s.readReg rt)).take (4 - byteInWord a) := by
    rw [hea, rightStores_eq_take]
  refine completes_of_store rfl (.of_eq horder) hm ?_ ?_
  · rwa [List.map_take]
  · exact (wordStores_nodup a _).sublist ((List.take_sublist _ _).map _)

/-- `swl` stores the last bytes of the four that end at its address. -/
theorem swl_completes (hm : s.mem.wf = true) (hea : s.address imm rs = a + 3#32)
    (hp : ∀ b ∈ (wordAddresses a).drop (3 - byteInWord (a + 3#32)), s.mem.isPopulated b = true) :
    Completes (.swl rt imm rs) s (Stores ((wordStores a (s.readReg rt)).drop (3 - byteInWord (a + 3#32)))) := by
  have horder : (leftStores (s.address imm rs) (s.readReg rt)).Perm
      ((wordStores a (s.readReg rt)).drop (3 - byteInWord (a + 3#32))) := by
    rw [hea, leftStores_eq_reverse]
    exact List.reverse_perm _
  refine completes_of_store rfl horder hm ?_ ?_
  · rwa [List.map_drop]
  · exact (wordStores_nodup a _).sublist ((List.drop_sublist _ _).map _)

variable {base v : Word} {n : Nat}

/-- `swr` at place `n` of an aligned word. -/
theorem swr_completes_of_aligned (hm : s.mem.wf = true) (hv : v = s.readReg rt) (hal : base.toNat % 4 = 0) (hn : n < 4)
    (hea : s.address imm rs = base + BitVec.ofNat 32 n)
    (hp : ∀ b ∈ (wordAddresses base).drop n, s.mem.isPopulated b = true) :
    Completes (.swr rt imm rs) s (Stores (((wordAddresses base).drop n).zip ((wordBytes v).take (4 - n)))) := by
  have h := swr_completes (rt := rt) hm hea (by rwa [take_wordAddresses_of_aligned hal hn])
  rw [wordStores_eq_zip, List.zip, List.take_zipWith, take_wordAddresses_of_aligned hal hn, byteInWord_add hal hn, ← hv] at h
  exact h

/-- `swl` at place `n` of an aligned word. -/
theorem swl_completes_of_aligned (hm : s.mem.wf = true) (hv : v = s.readReg rt) (hal : base.toNat % 4 = 0) (hn : n < 4)
    (hea : s.address imm rs = base + BitVec.ofNat 32 n)
    (hp : ∀ b ∈ (wordAddresses base).take (n + 1), s.mem.isPopulated b = true) :
    Completes (.swl rt imm rs) s (Stores (((wordAddresses base).take (n + 1)).zip ((wordBytes v).drop (3 - n)))) := by
  have hend : base + BitVec.ofNat 32 n = base + BitVec.ofNat 32 n - 3#32 + 3#32 := (BitVec.sub_add_cancel _ _).symm
  have h := swl_completes (rt := rt) hm (hea.trans hend) (by rwa [← hend, drop_wordAddresses_of_aligned hal hn])
  rw [← hend, wordStores_eq_zip, List.zip, List.drop_zipWith, drop_wordAddresses_of_aligned hal hn, byteInWord_add hal hn,
    ← hv] at h
  exact h

end UnalignedStores

/-- Settles O15: the four rows of the table. -/
theorem storeWordLeftBytes : Obligations.StoreWordLeftBytes := by
  intro rt rs imm s base v hs hal hv
  obtain ⟨hm, -⟩ := s.wf_iff.1 hs
  refine ⟨decodeOfEncode (.swl rt imm rs) rfl, fun hea h0 => ?_, fun hea h0 h1 => ?_, fun hea h0 h1 h2 => ?_,
    fun hea h0 h1 h2 h3 => ?_⟩
  · exact swl_completes_of_aligned (n := 0) hm hv hal (by decide) (hea.trans base.add_zero.symm)
      (by simpa [wordAddresses] using h0)
  · exact swl_completes_of_aligned (n := 1) hm hv hal (by decide) hea (by simpa [wordAddresses] using ⟨h0, h1⟩)
  · exact swl_completes_of_aligned (n := 2) hm hv hal (by decide) hea (by simpa [wordAddresses] using ⟨h0, h1, h2⟩)
  · exact swl_completes_of_aligned (n := 3) hm hv hal (by decide) hea (by simpa [wordAddresses] using ⟨h0, h1, h2, h3⟩)

/-- Settles O16: the four rows of the table. -/
theorem storeWordRightBytes : Obligations.StoreWordRightBytes := by
  intro rt rs imm s base v hs hal hv
  obtain ⟨hm, -⟩ := s.wf_iff.1 hs
  refine ⟨decodeOfEncode (.swr rt imm rs) rfl, fun hea h0 h1 h2 h3 => ?_, fun hea h1 h2 h3 => ?_, fun hea h2 h3 => ?_,
    fun hea h3 => ?_⟩
  · exact swr_completes_of_aligned (n := 0) hm hv hal (by decide) (hea.trans base.add_zero.symm)
      (by simpa [wordAddresses] using ⟨h0, h1, h2, h3⟩)
  · exact swr_completes_of_aligned (n := 1) hm hv hal (by decide) hea (by simpa [wordAddresses] using ⟨h1, h2, h3⟩)
  · exact swr_completes_of_aligned (n := 2) hm hv hal (by decide) hea (by simpa [wordAddresses] using ⟨h2, h3⟩)
  · exact swr_completes_of_aligned (n := 3) hm hv hal (by decide) hea (by simpa [wordAddresses] using h3)

/-! ## A pair of unaligned stores (R140, R142) -/

/-- Two stores one after the other that are both parts of `w` and together all of it leave the bytes of `w`. -/
theorem Stores.pair {l l' w : List (Word × Byte)} {s t u : State} (h : Stores l s t) (h' : Stores l' t u)
    (hd : (w.map Prod.fst).Nodup) (hw : ∀ p, p ∈ w ↔ p ∈ l ∨ p ∈ l') :
    (∀ p ∈ w, u.mem.read p.1 = some p.2) ∧ (∀ b, b ∉ w.map Prod.fst → u.mem.read b = s.mem.read b) ∧ SameRegs s u := by
  obtain ⟨-, hread, hother, -, hregs, -⟩ := h
  obtain ⟨-, hread', hother', -, hregs', -⟩ := h'
  refine ⟨fun p hp => ?_, fun b hb => ?_, fun r => (hregs' r).trans (hregs r)⟩
  · by_cases hp' : p ∈ l'
    · exact hread' p hp'
    · have hnot : p.1 ∉ l'.map Prod.fst := by
        intro hmem
        obtain ⟨q, hq, heq⟩ := List.mem_map.1 hmem
        exact hp' (List.inj_on_of_nodup_map hd ((hw q).2 (.inr hq)) hp heq ▸ hq)
      exact (hother' _ hnot).trans (hread p (((hw p).1 hp).resolve_right hp'))
  · have hsub {m : List (Word × Byte)} (hm : m ⊆ w) : b ∉ m.map Prod.fst := fun hb' => hb (List.map_subset _ hm hb')
    exact (hother' b (hsub fun p hp => (hw p).2 (.inr hp))).trans (hother b (hsub fun p hp => (hw p).2 (.inl hp)))

/-- A beginning and an end of a list that meet are all of it. -/
theorem mem_iff_mem_take_or_mem_drop {α : Type} (l : List α) {j k : Nat} (h : j ≤ k) (p : α) :
    p ∈ l ↔ p ∈ l.take k ∨ p ∈ l.drop j := by
  constructor
  · intro hp
    rw [← List.take_append_drop k l, List.mem_append] at hp
    exact hp.imp_right (List.drop_subset_drop_left l h ·)
  · exact fun hp => hp.elim List.mem_of_mem_take List.mem_of_mem_drop

/-- A store keeps the canonical form of the memory and its map. -/
theorem State.store_keeps_memory {s t : State} {l : List (Word × Byte)} (hm : s.mem.wf = true) (h : s.store l = .next t) :
    t.mem.wf = true ∧ ∀ b, t.mem.isPopulated b = s.mem.isPopulated b := by
  obtain ⟨-, rfl⟩ := State.store_next h
  exact ⟨s.storeBytes_wf_mem l hm, s.storeBytes_isPopulated l⟩

/-- Settles O17: the two stores are a beginning and an end of one word store, and they meet. -/
theorem unalignedStorePair : Obligations.UnalignedStorePair := by
  rintro rt rs s a _ hs hrs rfl h0 h1 h2 h3
  obtain ⟨hm, -⟩ := s.wf_iff.1 hs
  have hp : ∀ b ∈ wordAddresses a, s.mem.isPopulated b = true := by simpa [wordAddresses] using ⟨h0, h1, h2, h3⟩
  obtain ⟨t, ht, hst⟩ := swr_completes (rt := rt) hm ((s.address_zero rs).trans hrs)
    fun b hb => hp b (List.mem_of_mem_take hb)
  obtain ⟨hm', hpop⟩ := State.store_keeps_memory hm ht
  have ⟨_, _, _, _, hregs, _⟩ := hst
  obtain ⟨u, hu, hst'⟩ := swl_completes (rt := rt) (a := a) hm' (by rw [State.address_three, hregs, hrs])
    fun b hb => (hpop b).trans (hp b (List.mem_of_mem_drop hb))
  rw [hregs] at hst'
  have hmeet : 3 - byteInWord (a + 3#32) ≤ 4 - byteInWord a := by
    have := byteInWord_lt a
    rw [byteInWord_add_three]
    omega
  obtain ⟨hread, hother, hsame⟩ := hst.pair hst' (wordStores_nodup a _) (mem_iff_mem_take_or_mem_drop _ hmeet)
  obtain ⟨hread0, hread1, hread2, hread3⟩ : u.mem.HoldsBytes a _ _ _ _ := by
    simpa [wordStores, Memory.HoldsBytes] using hread
  exact ⟨t, u, ht, hu, hread0, hread1, hread2, hread3,
    fun b n0 n1 n2 n3 => hother b (by simp [wordStores, n0, n1, n2, n3]), hsame⟩

/-! ## Moves between registers (R143 to R149) -/

theorem upperImm_eq_shiftLeft (imm : Imm) : upperImm imm = imm.setWidth 32 <<< 16 := by
  have h := BitVec.setWidth_append_eq_shiftLeft_setWidth_or (w'' := 32) (b := imm) (b' := 0#16)
  simpa [upperImm] using h

/-- Settles O20. -/
theorem luiAndSpecialRegisterMoves : Obligations.LuiAndSpecialRegisterMoves := by
  intro rd rs imm s
  rw [← upperImm_eq_shiftLeft]
  exact ⟨⟨decodeOfEncode (.lui rd imm) rfl, decodeOfEncode (.mfhi rd) rfl, decodeOfEncode (.mthi rs) rfl,
      decodeOfEncode (.mflo rd) rfl, decodeOfEncode (.mtlo rs) rfl⟩,
    completes_of_result rfl, completes_of_result rfl, completes_of_result rfl,
    ⟨_, rfl, s.writeHiLo_writesHiLo _ _⟩, ⟨_, rfl, s.writeHiLo_writesHiLo _ _⟩⟩

theorem State.cp0Access_of_storage {s : State} (h : s.params.cp0Model = .storage) (done : Result) :
    s.cp0Access done = done := by
  rw [State.cp0Access, h]

theorem State.cp0Access_of_refuse {s : State} (h : s.params.cp0Model = .refuse) (done : Result) :
    s.cp0Access done = .refused .cp0Refused := by
  rw [State.cp0Access, h]

/-- Settles O21. -/
theorem controlRegisterMoves : Obligations.ControlRegisterMoves := by
  intro rt cd s
  refine ⟨⟨decodeOfEncode (.mfc0 rt cd) rfl, decodeOfEncode (.mtc0 rt cd) rfl⟩, fun hstorage => ⟨?mfc0, ?mtc0⟩,
    fun hrefuse => ⟨State.cp0Access_of_refuse hrefuse _, State.cp0Access_of_refuse hrefuse _⟩⟩
  case mfc0 => exact completes_of_result (State.cp0Access_of_storage hstorage _)
  case mtc0 =>
    exact ⟨_, State.cp0Access_of_storage hstorage _, rfl, fun c => s.readCp0_writeCp0 cd c _, fun _ => rfl, ⟨rfl, rfl⟩,
      ⟨fun _ => rfl, fun _ => Iff.rfl⟩, rfl, rfl, rfl, rfl⟩

end Sys2Proof.Machine
end

section
/-! SUPPORT. Proofs of the logical family (spec/42_logical.md): the bitwise operations on registers (R170 to R173) and on the
zero-extended immediate (R178 to R180), and the comparisons (R174 to R177). -/

namespace Sys2Proof.Machine

/-! ## Bitwise operations (R170 to R173, R178 to R180) -/

/-- The complement of a disjunction, bit by bit (R173). -/
theorem getLsbD_nor (a b : Word) {k : Nat} (hk : k < 32) :
    (~~~(a ||| b)).getLsbD k = !(a.getLsbD k || b.getLsbD k) := by
  rw [BitVec.getLsbD_not, decide_eq_true hk, Bool.true_and, BitVec.getLsbD_or]

/-- Settles O22: each result is the library's operation, which acts bit by bit. -/
theorem bitwiseRegisterResults : Obligations.BitwiseRegisterResults := by
  intro rd rs rt s
  refine ⟨⟨decodeOfEncode (.and rd rs rt) rfl, decodeOfEncode (.or rd rs rt) rfl, decodeOfEncode (.xor rd rs rt) rfl,
    decodeOfEncode (.nor rd rs rt) rfl⟩, ?and, ?or, ?xor, ?nor⟩
  case and => exact ⟨_, completes_of_result rfl, fun _ _ => BitVec.getLsbD_and⟩
  case or => exact ⟨_, completes_of_result rfl, fun _ _ => BitVec.getLsbD_or⟩
  case xor => exact ⟨_, completes_of_result rfl, fun _ _ => BitVec.getLsbD_xor⟩
  case nor => exact ⟨_, completes_of_result rfl, fun _ hk => getLsbD_nor _ _ hk⟩

/-- A zero-extended immediate has nothing in its upper half (R6). -/
theorem zeroExtendImm_eq_append (imm : Imm) : zeroExtendImm imm = 0#16 ++ imm :=
  BitVec.setWidth_eq_append (by decide)

section Halves

variable (hi lo : BitVec 16) (imm : Imm)

theorem append_and_zeroExtendImm : (hi ++ lo : Word) &&& zeroExtendImm imm = 0#16 ++ (lo &&& imm) := by
  rw [zeroExtendImm_eq_append, BitVec.and_append, BitVec.and_zero]

theorem append_or_zeroExtendImm : (hi ++ lo : Word) ||| zeroExtendImm imm = hi ++ (lo ||| imm) := by
  rw [zeroExtendImm_eq_append, BitVec.or_append, BitVec.or_zero]

theorem append_xor_zeroExtendImm : (hi ++ lo : Word) ^^^ zeroExtendImm imm = hi ++ (lo ^^^ imm) := by
  rw [zeroExtendImm_eq_append, BitVec.xor_append, BitVec.xor_zero]

end Halves

/-- Settles O23: against a zero upper half the operations clear the upper half of the register or leave it. -/
theorem bitwiseImmediateResults : Obligations.BitwiseImmediateResults := by
  intro rt rs imm s hi lo hrs
  rw [← append_and_zeroExtendImm hi, ← append_or_zeroExtendImm, ← append_xor_zeroExtendImm, ← hrs]
  exact ⟨⟨decodeOfEncode (.andi rt rs imm) rfl, decodeOfEncode (.ori rt rs imm) rfl,
      decodeOfEncode (.xori rt rs imm) rfl⟩,
    completes_of_result rfl, completes_of_result rfl, completes_of_result rfl⟩

/-! ## Comparisons (R174 to R177) -/

theorem truthWord_decide (p : Prop) [Decidable p] : truthWord (decide p) = if p then 1#32 else 0#32 :=
  ite_cond_congr (decide_eq_true_eq (p := p))

theorem truthWord_lessSigned (a b : Word) : truthWord (lessSigned a b) = if a.toInt < b.toInt then 1#32 else 0#32 :=
  truthWord_decide _

theorem truthWord_lessUnsigned (a b : Word) :
    truthWord (lessUnsigned a b) = if a.toNat < b.toNat then 1#32 else 0#32 :=
  truthWord_decide _

/-- Settles O24: sign extension keeps the value of the immediate of `slti`. -/
theorem comparisonsWriteTruth : Obligations.ComparisonsWriteTruth := by
  intro rd rs rt imm s
  rw [← toInt_signExtendImm imm, ← truthWord_lessSigned, ← truthWord_lessUnsigned, ← truthWord_lessSigned]
  exact ⟨⟨decodeOfEncode (.slt rd rs rt) rfl, decodeOfEncode (.sltu rd rs rt) rfl,
      decodeOfEncode (.slti rt rs imm) rfl⟩,
    completes_of_result rfl, completes_of_result rfl, completes_of_result rfl⟩

/-! ## The immediate of `sltiu` under both settings (R177) -/

theorem toNat_zeroExtendImm (imm : Imm) : (zeroExtendImm imm).toNat = imm.toNat :=
  BitVec.toNat_setWidth_of_le (by decide)

/-- The two extensions agree on an immediate whose bit 15 is 0. -/
theorem signExtendImm_of_bit15_clear {imm : Imm} (h : imm.getLsbD 15 = false) : signExtendImm imm = zeroExtendImm imm :=
  BitVec.signExtend_eq_setWidth_of_msb_false (imm.msb_eq_getLsbD_last.trans h)

/-- Sign extension sets the upper half of an immediate whose bit 15 is 1. -/
theorem toNat_signExtendImm_of_bit15_set {imm : Imm} (h : imm.getLsbD 15 = true) :
    (signExtendImm imm).toNat = 0xFFFF0000 + imm.toNat := by
  have hmsb : imm.msb = true := imm.msb_eq_getLsbD_last.trans h
  calc (signExtendImm imm).toNat
    _ = (zeroExtendImm imm).toNat + (2 ^ 32 - 2 ^ 16) := by
      rw [signExtendImm, BitVec.toNat_signExtend, if_pos hmsb, zeroExtendImm]
    _ = 0xFFFF0000 + imm.toNat := by rw [toNat_zeroExtendImm]; omega

theorem State.sltiuOperand_of_zero {s : State} (h : s.params.sltiuImmExt = .zero) (imm : Imm) :
    s.sltiuOperand imm = zeroExtendImm imm := by
  rw [State.sltiuOperand, h]

theorem State.sltiuOperand_of_sign {s : State} (h : s.params.sltiuImmExt = .sign) (imm : Imm) :
    s.sltiuOperand imm = signExtendImm imm := by
  rw [State.sltiuOperand, h]

/-- Under either setting the operand of an immediate whose bit 15 is 0 is its zero extension. -/
theorem State.sltiuOperand_of_bit15_clear (s : State) {imm : Imm} (h : imm.getLsbD 15 = false) :
    s.sltiuOperand imm = zeroExtendImm imm := by
  cases hext : s.params.sltiuImmExt with
  | zero => exact State.sltiuOperand_of_zero hext imm
  | sign => exact (State.sltiuOperand_of_sign hext imm).trans (signExtendImm_of_bit15_clear h)

/-- `sltiu` compares with the value of its operand. -/
theorem sltiu_completes {rt rs : RegNum} {imm : Imm} {s : State} {n : Nat} (hn : (s.sltiuOperand imm).toNat = n) :
    Completes (.sltiu rt rs imm) s
      (WritesReg rt (if (s.readReg rs).toNat < n then 1#32 else 0#32) (s.pc + 4#32)) := by
  rw [← hn, ← truthWord_lessUnsigned]
  exact completes_of_result rfl

/-- Settles O25: the value of the operand, case by case. -/
theorem sltiuBothSettings : Obligations.SltiuBothSettings := by
  intro rt rs imm s
  refine ⟨decodeOfEncode (.sltiu rt rs imm) rfl, fun hcase => sltiu_completes ?zeroExtended,
    fun hsign hset => sltiu_completes ?signExtended⟩
  case zeroExtended =>
    have hoperand : s.sltiuOperand imm = zeroExtendImm imm :=
      hcase.elim (State.sltiuOperand_of_zero · imm) s.sltiuOperand_of_bit15_clear
    rw [hoperand, toNat_zeroExtendImm]
  case signExtended => rw [State.sltiuOperand_of_sign hsign, toNat_signExtendImm_of_bit15_set hset]

end Sys2Proof.Machine
end

section
/-! SUPPORT. Proofs of the shift family (spec/43_shift.md): the value of each shift as a product or a quotient by a power of
two, for a constant amount (R200 to R202) and for an amount in a register (R203 to R205). -/

namespace Sys2Proof.Machine

/-! ## The shifts as arithmetic (R200 to R202) -/

/-- A left shift multiplies; what passes bit 31 is lost (R200). -/
theorem shiftLeft_eq_ofNat_mul (v : Word) (n : Nat) : shiftLeft v n = BitVec.ofNat 32 (v.toNat * 2 ^ n) := by
  apply BitVec.eq_of_toNat_eq
  rw [shiftLeft, BitVec.toNat_shiftLeft, Nat.shiftLeft_eq, BitVec.toNat_ofNat]

/-- A right shift with zero fill divides the natural number (R201). -/
theorem shiftRightZero_eq_ofNat_div (v : Word) (n : Nat) : shiftRightZero v n = BitVec.ofNat 32 (v.toNat / 2 ^ n) := by
  rw [shiftRightZero, ← Nat.shiftRight_eq_div_pow, ← BitVec.toNat_ushiftRight, BitVec.ofNat_toNat, BitVec.setWidth_eq]

/-- A right shift with sign fill divides the signed integer, rounding toward minus infinity (R202). -/
theorem shiftRightSign_eq_ofInt_div (v : Word) (n : Nat) : shiftRightSign v n = BitVec.ofInt 32 (v.toInt / 2 ^ n) := by
  have hfloor : (shiftRightSign v n).toInt = v.toInt / 2 ^ n := by
    rw [shiftRightSign, BitVec.toInt_sshiftRight, Int.shiftRight_eq_div_pow, Nat.cast_pow, Nat.cast_ofNat]
  rw [← hfloor, BitVec.ofInt_toInt]

/-- Settles O26. -/
theorem constantShifts : Obligations.ConstantShifts := by
  intro rd rt i s hi
  have hfits : decide (i < 32) = true := decide_eq_true hi
  rw [← shiftLeft_eq_ofNat_mul, ← shiftRightZero_eq_ofNat_div, ← shiftRightSign_eq_ofInt_div]
  exact ⟨⟨decodeOfEncode (.sll rd rt i) hfits, decodeOfEncode (.srl rd rt i) hfits, decodeOfEncode (.sra rd rt i) hfits⟩,
    completes_of_result rfl, completes_of_result rfl, completes_of_result rfl⟩

/-! ## The amount in a register (R203 to R205) -/

/-- The low five bits of a word are its remainder by 32. -/
theorem shiftAmount_eq_mod (v : Word) : shiftAmount v = v.toNat % 32 := BitVec.extractLsb'_toNat 0 5 v

/-- Settles O27. -/
theorem variableShifts : Obligations.VariableShifts := by
  rintro rd rt rs s n rfl
  rw [← shiftAmount_eq_mod, ← shiftLeft_eq_ofNat_mul, ← shiftRightZero_eq_ofNat_div, ← shiftRightSign_eq_ofInt_div]
  exact ⟨⟨decodeOfEncode (.sllv rd rt rs) rfl, decodeOfEncode (.srlv rd rt rs) rfl, decodeOfEncode (.srav rd rt rs) rfl⟩,
    completes_of_result rfl, completes_of_result rfl, completes_of_result rfl⟩

end Sys2Proof.Machine
end

section
/-! SUPPORT. Proofs of the branch family (spec/44_branch.md): the comparisons with zero (R220 (f)), the branches that only move
`pc` (R221 to R226), and those that link (R227, R228). -/

namespace Sys2Proof.Machine

/-! ## Comparisons with zero (R220 (f)) -/

theorem negative_iff (v : Word) : negative v = true ↔ v.toInt < 0 := decide_eq_true_iff

theorem positive_iff (v : Word) : positive v = true ↔ v.toInt > 0 := decide_eq_true_iff

theorem not_negative_iff (v : Word) : (!negative v) = true ↔ v.toInt ≥ 0 := by
  rw [Bool.not_eq_true', ← Bool.not_eq_true, negative_iff, Int.not_lt]

theorem not_positive_iff (v : Word) : (!positive v) = true ↔ v.toInt ≤ 0 := by
  rw [Bool.not_eq_true', ← Bool.not_eq_true, positive_iff, Int.not_lt]

/-! ## How a branch completes (R220) -/

section Completion

variable {i : Instr} {s : State} {taken : Bool} {cond : Prop} [Decidable cond] {offset : Imm}

/-- An instruction that ends in `State.branch` completes, with `pc` chosen by the condition its test decides. -/
theorem completes_of_branch (h : exec i s = .next (s.branch taken offset)) (hcond : taken = true ↔ cond) :
    Completes i s (WritesPc (if cond then branchTarget s.pc offset else incremented s.pc)) := by
  refine ⟨_, h, ?_⟩
  rw [State.branch_eq_jumpTo, ite_cond_congr (propext hcond)]
  exact s.jumpTo_writesPc _

/-- The link moves no `pc`, so an instruction that links and then branches has the targets of a branch. -/
theorem completes_of_linkBranch (h : exec i s = .next ((s.link linkReg).branch taken offset))
    (hcond : taken = true ↔ cond) :
    Completes i s (WritesReg linkReg (incremented s.pc) (if cond then branchTarget s.pc offset else incremented s.pc)) := by
  refine ⟨_, h, ?_⟩
  rw [State.branch_eq_jumpTo, State.link_pc, ite_cond_congr (propext hcond)]
  exact s.linkJump_writesReg linkReg _

end Completion

/-! ## The branches (R221 to R228) -/

/-- Settles O28. -/
theorem conditionalBranches : Obligations.ConditionalBranches := by
  rintro rs rt imm s npc btarget rfl rfl
  refine ⟨⟨decodeOfEncode (.beq rs rt imm) rfl, decodeOfEncode (.bne rs rt imm) rfl, decodeOfEncode (.blez rs imm) rfl,
    decodeOfEncode (.bgtz rs imm) rfl, decodeOfEncode (.bltz rs imm) rfl, decodeOfEncode (.bgez rs imm) rfl⟩,
    ?beq, ?bne, ?blez, ?bgtz, ?bltz, ?bgez⟩
  case beq => exact completes_of_branch rfl beq_iff_eq
  case bne => exact completes_of_branch rfl bne_iff_ne
  case blez => exact completes_of_branch rfl (not_positive_iff _)
  case bgtz => exact completes_of_branch rfl (positive_iff _)
  case bltz => exact completes_of_branch rfl (negative_iff _)
  case bgez => exact completes_of_branch rfl (not_negative_iff _)

/-- Settles O29: the test reads `x[rs]` of the state before the link, `rs = 31` included. -/
theorem linkingBranches : Obligations.LinkingBranches := by
  rintro rs imm s npc btarget rfl rfl
  refine ⟨⟨decodeOfEncode (.bltzal rs imm) rfl, decodeOfEncode (.bgezal rs imm) rfl⟩, ?bltzal, ?bgezal⟩
  case bltzal => exact completes_of_linkBranch rfl (negative_iff _)
  case bgezal => exact completes_of_linkBranch rfl (not_negative_iff _)

end Sys2Proof.Machine
end

section
/-! SUPPORT. Proofs of the jump family (spec/45_jump.md): the target of a jump within a region (R253), the jumps, which move
only `pc` or link as well (R250, R251, R254, R255), and the system call (R252). -/

namespace Sys2Proof.Machine

/-! ## How a jump completes (R26) -/

section Completion

variable {i : Instr} {s : State} {p : Word}

/-- An instruction that ends in `State.jumpTo` completes, with only `pc` written. -/
theorem completes_of_jump (h : exec i s = .next (s.jumpTo p)) : Completes i s (WritesPc p) :=
  ⟨_, h, s.jumpTo_writesPc p⟩

/-- An instruction that links before it jumps writes the link register as well. -/
theorem completes_of_linkJump {d : RegNum} (h : exec i s = .next ((s.link d).jumpTo p)) :
    Completes i s (WritesReg d (incremented s.pc) p) :=
  ⟨_, h, s.linkJump_writesReg d p⟩

end Completion

/-! ## The target within a region (R253) -/

/-- The mask of a region keeps the upper four bits of an address. -/
theorem and_regionMask (a : Word) : a &&& 0xF0000000#32 = a.extractLsb' 28 4 ++ 0#28 := by
  have hsplit : a.extractLsb' 28 4 ++ a.extractLsb' 0 28 = a :=
    (BitVec.extractLsb'_append_extractLsb'_eq_extractLsb' rfl).trans BitVec.extractLsb'_eq_self
  calc a &&& 0xF0000000#32
    _ = (a.extractLsb' 28 4 ++ a.extractLsb' 0 28) &&& (BitVec.allOnes 4 ++ 0#28) := by rw [hsplit]; rfl
    _ = a.extractLsb' 28 4 ++ 0#28 := by rw [BitVec.and_append, BitVec.and_allOnes, BitVec.and_zero]

/-- A shifted target leaves the upper four bits of a word clear. -/
theorem target_shiftLeft_eq_append (target : Target) : target.setWidth 32 <<< 2 = 0#4 ++ (target ++ 0#2) := by
  have happend := BitVec.setWidth_append_eq_shiftLeft_setWidth_or (w'' := 32) (b := target) (b' := 0#2)
  calc target.setWidth 32 <<< 2
    _ = (target ++ 0#2).setWidth 32 := by simpa using happend.symm
    _ = 0#4 ++ (target ++ 0#2) := BitVec.setWidth_eq_append (by decide)

/-- The target of a jump, by masking and shifting. -/
theorem jumpTarget_eq_or (pc : Word) (target : Target) :
    jumpTarget pc target = (incremented pc &&& 0xF0000000#32) ||| (target.setWidth 32 <<< 2) := by
  rw [and_regionMask, target_shiftLeft_eq_append, BitVec.or_append, BitVec.or_zero, BitVec.zero_or]
  exact BitVec.append_assoc

/-! ## The jumps (R250, R251, R254, R255) -/

/-- Settles O30. -/
theorem regionJumps : Obligations.RegionJumps := by
  rintro target s npc jtarget rfl rfl
  rw [← incremented, ← jumpTarget_eq_or]
  refine ⟨decodeOfEncode (.j target) rfl, decodeOfEncode (.jal target) rfl, ?j, ?jal⟩
  case j => exact completes_of_jump rfl
  case jal => exact completes_of_linkJump rfl

/-- Settles O31: `jalr` reads its target in the state before the link, `rd = rs` included. -/
theorem registerJumps : Obligations.RegisterJumps := by
  intro rd rs s
  refine ⟨decodeOfEncode (.jr rs) rfl, decodeOfEncode (.jalr rd rs) rfl, ?jr, ?jalr⟩
  case jr => exact completes_of_jump rfl
  case jalr => exact completes_of_linkJump rfl

/-! ## The system call (R252, R274, R276) -/

/-- Where no answer is left, a system call ends the run well. -/
theorem step_exit_of_scripted_nil {s : State} {epc : Word} (htrap : s.trap = some { cause := .systemCall, epc })
    (henv : s.env = .scripted []) : step s = .fault (.exit epc) :=
  stepUnder_exit htrap rfl (State.answer_scripted _ henv)

/-- Settles O32. -/
theorem syscallTakesSystemCall : Obligations.SyscallTakesSystemCall := by
  refine ⟨decodeOfEncode .syscall rfl, fun s => ⟨?taken, fun henv => ?ends⟩⟩
  case taken => rfl
  case ends => exact step_exit_of_scripted_nil rfl henv

end Sys2Proof.Machine
end

section
/-! SUPPORT. Proofs of the exceptions family (spec/60_exceptions.md): what executing an instruction can answer (R270 to R276,
R279, R281), what a step that takes an exception leaves (R275, R277), and how the environment ends or resumes a run (R276,
R282). -/

namespace Sys2Proof.Machine

/-! ## Which instruction raises which exception (R270, R271, R273, R274) -/

/-- The rows of R270 that an instruction, not the fetch, can raise: `i` raises the exception in `s`, on its row's condition. -/
inductive Raises (s : State) : Instr → Exception → Prop where
  | add {rd rs rt} (h : ¬ FitsSigned ((s.readReg rs).toInt + (s.readReg rt).toInt)) :
      Raises s (.add rd rs rt) .integerOverflow
  | sub {rd rs rt} (h : ¬ FitsSigned ((s.readReg rs).toInt - (s.readReg rt).toInt)) :
      Raises s (.sub rd rs rt) .integerOverflow
  | addi {rt rs imm} (h : ¬ FitsSigned ((s.readReg rs).toInt + imm.toInt)) : Raises s (.addi rt rs imm) .integerOverflow
  | load {i rt imm rs} (hi : i = .lh rt imm rs ∨ i = .lhu rt imm rs ∨ i = .lw rt imm rs) (hal : i.aligned s = false) :
      Raises s i (.addressErrorLoad (s.address imm rs))
  | store {i rt imm rs} (hi : i = .sh rt imm rs ∨ i = .sw rt imm rs) (hal : i.aligned s = false) :
      Raises s i (.addressErrorStore (s.address imm rs))
  | syscall : Raises s .syscall .systemCall

/-! ## A read stops only at an absent byte (R62) -/

/-- If the read `e` of the addresses `as` stops, then at one of them that is not populated. -/
def StopsAtAbsent {α : Type} (m : Memory) (as : List Word) (e : Except Word α) : Prop :=
  ∀ a, e = .error a → a ∈ as ∧ m.isPopulated a = false

theorem StopsAtAbsent.ok {α : Type} {m : Memory} {as : List Word} {v : α} : StopsAtAbsent m as (.ok v) :=
  nofun

theorem StopsAtAbsent.map {α β : Type} {m : Memory} {as : List Word} {e : Except Word α} (f : α → β)
    (h : StopsAtAbsent m as e) : StopsAtAbsent m as (e.map f) := by
  intro a ha
  cases e with
  | error c => exact h a (by simpa [Except.map] using ha)
  | ok v => cases ha

/-- A read of one byte more, before the others. -/
theorem StopsAtAbsent.readByte_bind {α : Type} {s : State} {a : Word} {as : List Word} {rest : Byte → Except Word α}
    (h : ∀ b, StopsAtAbsent s.mem as (rest b)) : StopsAtAbsent s.mem (a :: as) (s.readByte a >>= rest) := by
  intro c hc
  cases hread : s.readByte a with
  | error e =>
    obtain ⟨habsent, rfl⟩ := State.readByte_error.1 hread
    obtain rfl : e = c := by simpa [hread, bind, Except.bind] using hc
    exact ⟨List.mem_cons_self, habsent⟩
  | ok b =>
    obtain ⟨hin, habsent⟩ := h b c (by simpa [hread, bind, Except.bind] using hc)
    exact ⟨List.mem_cons_of_mem a hin, habsent⟩

theorem State.readByte_stopsAtAbsent (s : State) (a : Word) : StopsAtAbsent s.mem [a] (s.readByte a) := by
  rw [← bind_pure (s.readByte a)]
  exact .readByte_bind fun _ => .ok

theorem State.readHalf_stopsAtAbsent (s : State) (a : Word) : StopsAtAbsent s.mem [a, a + 1#32] (s.readHalf a) :=
  .readByte_bind fun _ => .readByte_bind fun _ => .ok

theorem State.readWord_stopsAtAbsent (s : State) (a : Word) :
    StopsAtAbsent s.mem [a, a + 1#32, a + 2#32, a + 3#32] (s.readWord a) :=
  .readByte_bind fun _ => .readByte_bind fun _ => .readByte_bind fun _ => .readByte_bind fun _ => .ok

theorem State.readBytes_stopsAtAbsent (s : State) (as : List Word) : StopsAtAbsent s.mem as (s.readBytes as) := by
  induction as with
  | nil => exact .ok
  | cons a rest ih => exact .readByte_bind fun b => ih.map (b :: ·)

/-! ## What executing an instruction can answer (R275, R276, R279) -/

/-- The answers of `exec`: a trap with nothing written; a next state with no new trap; the fault of an unpopulated byte that the
instruction touches; the refusal of an access to a control register. -/
inductive ExecAnswer (i : Instr) (s : State) : Result → Prop where
  | raises (e : Exception) (h : Raises s i e) : ExecAnswer i s (.next { s with trap := some { cause := e, epc := s.pc } })
  | completes (t : State) (h : t.trap = s.trap) : ExecAnswer i s (.next t)
  | absent (a : Word) (ha : a ∈ i.touchedAddresses s) (hp : s.mem.isPopulated a = false) :
      ExecAnswer i s (.fault (.memoryFault a))
  | refused (hi : ∃ rt cd, i = .mfc0 rt cd ∨ i = .mtc0 rt cd) (hp : s.params.cp0Model = .refuse) :
      ExecAnswer i s (.refused .cp0Refused)

section Answers

variable {i : Instr} {s : State}

theorem ExecAnswer.of_result {d : RegNum} {v : Word} : ExecAnswer i s (s.result d v) :=
  .completes _ (by simp)

theorem ExecAnswer.of_load {d : RegNum} {e : Except Word Word} (h : StopsAtAbsent s.mem (i.touchedAddresses s) e) :
    ExecAnswer i s (s.load d e) := by
  cases e with
  | ok v => exact .of_result
  | error a =>
    obtain ⟨ha, hp⟩ := h a rfl
    exact .absent a ha hp

theorem ExecAnswer.of_store {l : List (Word × Byte)} (h : l.map Prod.fst = i.touchedAddresses s) :
    ExecAnswer i s (s.store l) := by
  unfold State.store
  split
  · rename_i a hfind
    exact .absent a (h ▸ List.mem_of_find?_eq_some hfind) (by simpa using List.find?_some hfind)
  · exact .completes _ (by simp)

theorem ExecAnswer.of_cp0Access {done : Result} (hi : ∃ rt cd, i = .mfc0 rt cd ∨ i = .mtc0 rt cd)
    (h : ExecAnswer i s done) : ExecAnswer i s (s.cp0Access done) := by
  unfold State.cp0Access
  split
  · exact h
  · rename_i hp
    exact .refused hi hp

/-- An instruction that checks something first raises the exception or goes on. -/
theorem ExecAnswer.of_check {c : Bool} {e : Exception} {o : Result} (hr : c = true → Raises s i e)
    (h : ExecAnswer i s o) : ExecAnswer i s (if c then s.raise e else o) := by
  split
  · rename_i hc
    exact .raises e (hr hc)
  · exact h

end Answers

/-- Every instruction answers in one of these ways: each checks what its row of R270 says, and then ends in a shared operation. -/
theorem exec_answer (i : Instr) (s : State) : ExecAnswer i s (exec i s) := by
  cases i with
  | add => exact .of_check (fun hc => .add ((addOverflows_iff _ _).1 hc)) .of_result
  | addi rt rs imm =>
    refine .of_check (fun hc => .addi ?_) .of_result
    rw [← toInt_signExtendImm imm]
    exact (addOverflows_iff _ _).1 hc
  | sub => exact .of_check (fun hc => .sub ((subOverflows_iff _ _).1 hc)) .of_result
  | addu | subu | addiu | lui | mfhi | mflo | and | or | xor | nor | slt | sltu | slti | sltiu | andi | ori | xori | sll
  | srl | sra | sllv | srlv | srav => exact .of_result
  | mult | multu | mthi | mtlo => exact .completes _ rfl
  | div | divu =>
    simp only [exec, execDiv, execDivu]
    split_ifs <;> exact .completes _ (by simp)
  | lb rt imm rs | lbu rt imm rs => exact .of_load ((s.readByte_stopsAtAbsent _).map _)
  | lh rt imm rs | lhu rt imm rs =>
    exact .of_check (fun hc => .load (rt := rt) (by simp) (by simp [Instr.aligned, hc]))
      (.of_load ((s.readHalf_stopsAtAbsent _).map _))
  | lw rt imm rs =>
    exact .of_check (fun hc => .load (rt := rt) (by simp) (by simp [Instr.aligned, hc])) (.of_load (s.readWord_stopsAtAbsent _))
  | lwl rt imm rs | lwr rt imm rs =>
    refine .of_load ?_
    simp only [Instr.touchedAddresses, Instr.loadedAddresses, Instr.storedAddresses, List.append_nil]
    exact (s.readBytes_stopsAtAbsent _).map _
  | sb | swl | swr => exact .of_store rfl
  | sh rt | sw rt => exact .of_check (fun hc => .store (rt := rt) (by simp) (by simp [Instr.aligned, hc])) (.of_store rfl)
  | mfc0 rt cd => exact .of_cp0Access ⟨rt, cd, .inl rfl⟩ .of_result
  | mtc0 rt cd => exact .of_cp0Access ⟨rt, cd, .inr rfl⟩ (.completes _ rfl)
  | beq | bne | blez | bgtz | bltz | bgez | bltzal | bgezal => exact .completes _ (by simp)
  | jr | j | jalr | jal => exact .completes _ (by simp)
  | syscall => exact .raises _ .syscall

/-- Settles O37: the last two answers of `exec` are its only stops. -/
theorem execStopsOnlyAsSpecSays : Obligations.ExecStopsOnlyAsSpecSays := by
  intro i s
  have hanswer := exec_answer i s
  refine ⟨fun f hf => ?faults, fun r hr => ?refuses⟩
  case faults =>
    rw [hf] at hanswer
    cases hanswer with
    | absent a ha hp => exact ⟨a, ha, hp, rfl⟩
  case refuses =>
    rw [hr] at hanswer
    cases hanswer with
    | refused hi hp => exact ⟨rfl, hp, hi⟩

/-- A next state of `exec` holds a new trap only by the instruction raising it, and then nothing else is new (R275). -/
theorem exec_next {i : Instr} {s t : State} (h : exec i s = .next t) :
    (∃ e, Raises s i e ∧ t = { s with trap := some { cause := e, epc := s.pc } }) ∨ t.trap = s.trap := by
  have hanswer := exec_answer i s
  rw [h] at hanswer
  cases hanswer with
  | raises e hr => exact .inl ⟨e, hr, rfl⟩
  | completes _ ht => exact .inr ht

theorem exec_takes {i : Instr} {s t : State} {tr : Trap} (hs : s.trap = none) (h : exec i s = .next t)
    (ht : t.trap = some tr) : Raises s i tr.cause := by
  obtain ⟨e, hr, rfl⟩ | hsame := exec_next h
  · cases ht
    exact hr
  · simp [hsame, hs] at ht

/-- Settles O36: the trap is one that `Raises` lists. -/
theorem whoRaisesWhat : Obligations.WhoRaisesWhat := by
  intro i s t e epc hs h ht
  have hr : Raises s i e := exec_takes hs h ht
  cases hr with
  | add hfit => exact .inl ⟨_, _, _, rfl, hfit⟩
  | sub hfit => exact .inr (.inl ⟨_, _, _, rfl, hfit⟩)
  | addi hfit => exact .inr (.inr ⟨_, _, _, rfl, hfit⟩)
  | load hi hal => exact ⟨_, _, _, hi, hal, rfl⟩
  | store hi hal => exact ⟨_, _, _, hi, hal, rfl⟩
  | syscall => rfl

/-! ## A step that takes an exception (R275, R277) -/

/-- Settles O35: the fetch and the instruction each take an exception in the one way. -/
theorem trapsArePrecise : Obligations.TrapsArePrecise := by
  intro s t hs h ht
  obtain ⟨tr, r, hsome, -⟩ | ⟨e, -, rfl⟩ | ⟨i, -, -, hexec⟩ := step_next h
  · simp [hs] at hsome
  · exact ⟨e, rfl⟩
  · obtain ⟨e, -, rfl⟩ | hsame := exec_next hexec
    · exact ⟨e, rfl⟩
    · exact absurd (hsame.trans hs) ht

/-- Only `mtc0` writes a control register, the one it names (R33). -/
theorem exec_cp0 {i : Instr} {s t : State} (h : exec i s = .next t) :
    SameCp0 s t ∨ ∃ rt c, i = .mtc0 rt c ∧ t = (s.writeCp0 c (s.readReg rt)).advance := by
  cases exec_shape h with
  | trap e => exact .inl fun _ => rfl
  | reg d v => exact .inl fun _ => by simp
  | hiLo hiNew loNew draws => exact .inl fun _ => rfl
  | cp0 rt c hi => exact .inr ⟨rt, c, hi, rfl⟩
  | store l => exact .inl fun _ => by simp
  | jump p => exact .inl fun _ => rfl
  | linkJump d p => exact .inl fun _ => by simp

/-- A step that does not execute an `mtc0` to its end leaves the control registers (R277). -/
theorem step_cp0 {s t : State} (hs : s.trap = none) (h : step s = .next t) :
    SameCp0 s t ∨ ∃ rt c, s.fetchInstr = .ok (.mtc0 rt c) ∧ t = (s.writeCp0 c (s.readReg rt)).advance := by
  obtain ⟨tr, r, hsome, -⟩ | ⟨e, -, rfl⟩ | ⟨i, -, hfetch, hexec⟩ := step_next h
  · simp [hs] at hsome
  · exact .inl fun _ => rfl
  · obtain hsame | ⟨rt, c, rfl, ht⟩ := exec_cp0 hexec
    · exact .inl hsame
    · exact .inr ⟨rt, c, hfetch, ht⟩

/-- Settles O47. -/
theorem controlRegistersOnlyByMtc0 : Obligations.ControlRegistersOnlyByMtc0 := by
  intro s t hs h
  obtain hsame | ⟨rt, c, hfetch, rfl⟩ := step_cp0 hs h
  · exact ⟨fun _ => hsame, fun _ _ _ => hsame, fun _ _ _ d _ => hsame d⟩
  · refine ⟨fun ht => absurd hs ht, fun i hi hne => ?other, fun rt' c' hi d hd => ?mtc0⟩
    case other =>
      obtain rfl : Instr.mtc0 rt c = i := by simpa [hfetch] using hi
      exact absurd rfl (hne rt c)
    case mtc0 =>
      obtain ⟨rfl, rfl⟩ : rt = rt' ∧ c = c' := by simpa [hfetch] using hi
      simp [State.readCp0_writeCp0, hd]

/-! ## A trap is handed to the environment (R276) -/

/-- Settles O38. -/
theorem trapIsHandedToEnvironment : Obligations.TrapIsHandedToEnvironment := by
  intro f s t ht
  exact ⟨stepUnder_exit ht, stepUnder_badTrap f ht,
    fun hc henv => stepUnder_exit ht hc (State.answer_scripted t henv), stepUnder_badTrap _ ht⟩

/-! ## What the writes of a reply leave (R276, R282) -/

/-- Where each write leaves in a place of the state the value it gives it, if it gives it one, all of them leave the last. -/
theorem State.envWrites_lastOf {α : Type} {place : State → α} {onPlace : EnvWrite → Option α}
    (h : ∀ s w, place (s.envWrite w) = (onPlace w).getD (place s)) (s : State) (ws : List EnvWrite) :
    place (s.envWrites ws) = lastOf onPlace ws (place s) := by
  induction ws generalizing s with
  | nil => rfl
  | cons w rest ih => rw [lastOf_cons, ← h]; exact ih (s.envWrite w)

theorem State.readReg_envWrites (s : State) (ws : List EnvWrite) (q : RegNum) :
    (s.envWrites ws).readReg q = if q = 0#5 then 0#32 else lastOf (EnvWrite.onReg q) ws (s.readReg q) := by
  by_cases hq : q = 0#5
  · simp [hq]
  · rw [if_neg hq]
    exact State.envWrites_lastOf (place := fun s => s.readReg q) (fun s w => by simp [State.readReg_envWrite, hq]) s ws

theorem State.read_envWrites (s : State) (ws : List EnvWrite) (a : Word) (h : s.mem.wf = true) :
    (s.envWrites ws).mem.read a = (s.mem.read a).map (lastOf (EnvWrite.onByte a) ws) := by
  induction ws generalizing s with
  | nil => exact Option.map_id'.symm
  | cons w rest ih =>
    have hlast : lastOf (EnvWrite.onByte a) rest ∘ (w.onByte a).getD = lastOf (EnvWrite.onByte a) (w :: rest) :=
      funext fun old => (lastOf_cons _ w rest old).symm
    rw [State.envWrites, ih _ (s.wf_envWrite w h), s.read_envWrite w a h, Option.map_map, hlast]

/-- Settles O39. -/
theorem environmentResumesSystemCall : Obligations.EnvironmentResumesSystemCall := by
  refine ⟨fun _ => rfl, fun t s l h => State.answer_scripted t h, fun t s h => State.answer_supplied t h,
    fun f s t r ht hc hr => ⟨s.resume r, stepUnder_resume ht hc hr, rfl, rfl, ?reg, ?hi, ?lo, ?cp0, ?byte, ?populated,
      s.resume_stored r, s.resume_draws r, s.resume_params r, ?scripted, ?supplied, ?silent⟩⟩
  case reg => exact s.readReg_envWrites r.writes
  case hi => exact State.envWrites_lastOf State.hi_envWrite s r.writes
  case lo => exact State.envWrites_lastOf State.lo_envWrite s r.writes
  case cp0 =>
    exact fun c => State.envWrites_lastOf (place := fun s => s.readCp0 c) (fun s w => s.readCp0_envWrite w c) s r.writes
  case byte => exact fun hm a => s.read_envWrites r.writes a hm
  case populated => exact fun a => by simp [Memory.isPopulated]
  case scripted =>
    intro l henv
    simp [henv, Environment.afterReply]
  case supplied =>
    intro henv
    simp [henv, Environment.afterReply]
  case silent =>
    intro hw
    simp [State.resume, hw, State.envWrites]

/-! ## How a run ends (R276) -/

/-- A step faults where the environment ends the run at a system call, where another trap is pending, and, with no trap
pending, only for a byte of memory. -/
theorem stepUnder_fault {f : EnvTrap} {s : State} {r : Fault} (h : stepUnder f s = .fault r) :
    (∃ t, s.trap = some t ∧ t.cause = .systemCall ∧ f t s = none ∧ r = .exit t.epc) ∨
    (∃ t, s.trap = some t ∧ t.cause ≠ .systemCall ∧ r = .badTrap t) ∨
    (∃ a, s.trap = none ∧ r = .memoryFault a) := by
  cases hs : s.trap with
  | some t =>
    by_cases hc : t.cause = .systemCall
    · cases hr : f t s with
      | some reply => simp [stepUnder_resume hs hc hr] at h
      | none => exact .inl ⟨t, rfl, hc, hr, by simpa [stepUnder_exit hs hc hr] using h.symm⟩
    · exact .inr (.inl ⟨t, rfl, hc, by simpa [stepUnder_badTrap f hs hc] using h.symm⟩)
  | none =>
    refine .inr (.inr ?_)
    rw [stepUnder_of_no_trap f hs] at h
    obtain ⟨w, i, -, -, -, -, hfetch⟩ | ⟨e, hfetch⟩ | ⟨a, -, hfetch⟩ | ⟨a, -, hfetch⟩ := s.fetchInstr_cases
    · obtain ⟨hfaults, -⟩ := execStopsOnlyAsSpecSays i s
      obtain ⟨a, -, -, rfl⟩ := hfaults r ((step_of_fetch_ok hs hfetch).symm.trans h)
      exact ⟨a, rfl, rfl⟩
    · simp [step_of_fetch_error hs hfetch, State.raise] at h
    · exact ⟨a, rfl, by simpa [step_of_fetch_error hs hfetch] using h.symm⟩
    · simp [step_of_fetch_error hs hfetch] at h

/-- A step ends the run well exactly where the environment ends it at a system call. -/
theorem stepUnder_exit_iff {f : EnvTrap} {s : State} {epc : Word} :
    stepUnder f s = .fault (.exit epc) ↔
      s.trap = some { cause := .systemCall, epc } ∧ f { cause := .systemCall, epc } s = none := by
  refine ⟨fun h => ?_, fun ⟨hs, hr⟩ => stepUnder_exit hs rfl hr⟩
  obtain ⟨⟨c, p⟩, hs, rfl, hr, he⟩ | ⟨t, -, -, he⟩ | ⟨a, -, he⟩ := stepUnder_fault h
  · cases he
    exact ⟨hs, hr⟩
  · cases he
  · cases he

/-- A step ends the run badly with a trap exactly where that trap is pending and is no system call. -/
theorem stepUnder_badTrap_iff {f : EnvTrap} {s : State} {t : Trap} :
    stepUnder f s = .fault (.badTrap t) ↔ s.trap = some t ∧ t.cause ≠ .systemCall := by
  refine ⟨fun h => ?_, fun ⟨hs, hc⟩ => stepUnder_badTrap f hs hc⟩
  obtain ⟨t', -, -, -, he⟩ | ⟨t', hs, hc, he⟩ | ⟨a, -, he⟩ := stepUnder_fault h
  · cases he
  · cases he
    exact ⟨hs, hc⟩
  · cases he

theorem runUnder_succ_of_next {f : EnvTrap} {s t : State} (h : stepUnder f s = .next t) (n : Nat) :
    runUnder f (n + 1) s = runUnder f n t := by
  simp [runUnder, h]

/-- A run whose first step has no next state ends there, however many steps it may take. -/
theorem runUnder_succ_of_stops {f : EnvTrap} {s : State} (h : ∀ t, stepUnder f s ≠ .next t) (n : Nat) :
    runUnder f (n + 1) s = runUnder f 1 s := by
  simp only [runUnder]
  split
  · rename_i t ht
    exact absurd ht (h t)
  all_goals rfl

/-- A run goes on past the first step only through a next state. -/
theorem runUnder_succ_running {f : EnvTrap} {n : Nat} {s u : State} (h : runUnder f (n + 1) s = .running u) :
    ∃ t, stepUnder f s = .next t ∧ runUnder f n t = .running u := by
  unfold runUnder at h
  split at h
  · rename_i t ht
    exact ⟨t, ht, h⟩
  all_goals cases h

/-- A run that has ended did so in one step from a state it passed through. -/
theorem runUnder_last_step {f : EnvTrap} {n : Nat} {s : State} {o : RunOutcome} (h : runUnder f n s = o)
    (ho : ∀ u, o ≠ .running u) : ∃ m u, m < n ∧ runUnder f m s = .running u ∧ runUnder f 1 u = o := by
  induction n generalizing s with
  | zero => exact absurd h.symm (ho s)
  | succ n ih =>
    cases hstep : stepUnder f s with
    | next t =>
      rw [runUnder_succ_of_next hstep] at h
      obtain ⟨m, u, hm, hrun, hend⟩ := ih h
      exact ⟨m + 1, u, by omega, (runUnder_succ_of_next hstep m).trans hrun, hend⟩
    | fault r | refused r =>
      exact ⟨0, s, by omega, rfl, (runUnder_succ_of_stops (by simp [hstep]) n).symm.trans h⟩

theorem runUnder_one_eq_exit {f : EnvTrap} {s u : State} (h : runUnder f 1 s = .exit u) :
    s = u ∧ ∃ epc, stepUnder f s = .fault (.exit epc) := by
  unfold runUnder at h
  split at h
  · cases h
  · rename_i epc hstep
    exact ⟨by simpa using h, epc, hstep⟩
  all_goals cases h

theorem runUnder_one_eq_fault {f : EnvTrap} {s u : State} {t : Trap} (h : runUnder f 1 s = .fault t u) :
    s = u ∧ stepUnder f s = .fault (.badTrap t) := by
  unfold runUnder at h
  split at h
  · cases h
  · cases h
  · rename_i t' hstep
    obtain ⟨rfl, rfl⟩ : t' = t ∧ s = u := by simpa using h
    exact ⟨rfl, hstep⟩
  all_goals cases h

/-- A run that ends well does so in a state it passed through, at a system call that its environment does not resume. -/
theorem runUnder_exit_reaches {f : EnvTrap} {n : Nat} {s u : State} (h : runUnder f n s = .exit u) :
    ∃ m epc, m < n ∧ runUnder f m s = .running u ∧ u.trap = some { cause := .systemCall, epc } ∧
      f { cause := .systemCall, epc } u = none := by
  obtain ⟨m, u', hm, hrun, hend⟩ := runUnder_last_step h nofun
  obtain ⟨rfl, epc, hstep⟩ := runUnder_one_eq_exit hend
  exact ⟨m, epc, hm, hrun, stepUnder_exit_iff.1 hstep⟩

/-- A run that ends with a trap as a fault does so in a state it passed through, in which that trap is pending. -/
theorem runUnder_fault_reaches {f : EnvTrap} {n : Nat} {s u : State} {t : Trap} (h : runUnder f n s = .fault t u) :
    ∃ m, m < n ∧ runUnder f m s = .running u ∧ u.trap = some t ∧ t.cause ≠ .systemCall := by
  obtain ⟨m, u', hm, hrun, hend⟩ := runUnder_last_step h nofun
  obtain ⟨rfl, hstep⟩ := runUnder_one_eq_fault hend
  exact ⟨m, hm, hrun, stepUnder_badTrap_iff.1 hstep⟩

/-- What holds of the start and is kept by every step holds of every state a run passes through. -/
theorem runUnder_invariant {f : EnvTrap} {P : State → Prop} (hstep : ∀ s t, P s → stepUnder f s = .next t → P t)
    {n : Nat} {s u : State} (hs : P s) (h : runUnder f n s = .running u) : P u := by
  induction n generalizing s with
  | zero =>
    cases h
    exact hs
  | succ n ih =>
    obtain ⟨t, ht, hrun⟩ := runUnder_succ_running h
    exact ih (hstep s t hs ht) hrun

/-- Every step keeps the state well-formed, whatever the environment answers. -/
theorem stepUnder_keeps_wf {f : EnvTrap} {s t : State} (hs : s.wf = true) (h : stepUnder f s = .next t) :
    t.wf = true := by
  obtain ⟨tr, r, -, -, -, rfl⟩ | ⟨e, -, rfl⟩ | ⟨i, htrap, -, hexec⟩ := stepUnder_next h
  · exact State.wf_resume r hs
  · exact State.wf_trapped e hs
  · exact exec_keeps_wf hs htrap hexec

/-- A trap pending in a state that a run reaches from a well-formed one names the `pc` that state holds (R275). -/
theorem epc_eq_pc_of_reached {f : EnvTrap} {n : Nat} {s u : State} {t : Trap} (hs : s.wf = true)
    (h : runUnder f n s = .running u) (ht : u.trap = some t) : t.epc = u.pc := by
  have hu : u.wf = true := runUnder_invariant (P := fun s => s.wf = true) (fun _ _ => stepUnder_keeps_wf) hs h
  obtain ⟨-, -, -, hepc⟩ := u.wf_iff.1 hu
  exact hepc t ht

/-- A run that passes through another state than its start came there by a step from a state it passed through before. -/
theorem runUnder_previous {f : EnvTrap} {n : Nat} {s u : State} (h : runUnder f n s = .running u) (hne : u ≠ s) :
    ∃ m v, m < n ∧ runUnder f m s = .running v ∧ stepUnder f v = .next u := by
  induction n generalizing s with
  | zero =>
    cases h
    exact absurd rfl hne
  | succ n ih =>
    obtain ⟨t, ht, hrun⟩ := runUnder_succ_running h
    by_cases hut : u = t
    · exact ⟨0, s, by omega, rfl, hut ▸ ht⟩
    · obtain ⟨m, v, hm, hv, hstep⟩ := ih hrun hut
      exact ⟨m + 1, v, by omega, (runUnder_succ_of_next ht m).trans hv, hstep⟩

/-- The fetch takes no `SystemCall`: its exceptions are a misaligned `pc` and a reserved word (R272, R273, R281). -/
theorem State.fetchInstr_error_next {s t : State} (h : s.fetchInstr = .error (.next t)) :
    ∃ e, e ≠ .systemCall ∧ t = { s with trap := some { cause := e, epc := s.pc } } := by
  unfold State.fetchInstr at h
  split at h
  · cases h
    exact ⟨.addressErrorFetch s.pc, nofun, rfl⟩
  · split at h
    · cases h
    · rename_i w _
      split at h
      · cases h
      · split at h
        · cases h
          exact ⟨.reservedInstruction w, nofun, rfl⟩
        · cases h

/-- A step takes `SystemCall` only by executing a `syscall` it has fetched (R274). -/
theorem fetchInstr_of_takes_systemCall {s t : State} {epc : Word} (hs : s.trap = none) (h : step s = .next t)
    (ht : t.trap = some { cause := .systemCall, epc }) : s.fetchInstr = .ok .syscall := by
  cases hfetch : s.fetchInstr with
  | error o =>
    obtain rfl : o = .next t := (step_of_fetch_error hs hfetch).symm.trans h
    obtain ⟨e, he, rfl⟩ := State.fetchInstr_error_next hfetch
    cases ht
    exact absurd rfl he
  | ok i =>
    have hr : Raises s i .systemCall := exec_takes hs ((step_of_fetch_ok hs hfetch).symm.trans h) ht
    cases hr
    rfl

/-- A step after which a `SystemCall` is pending executed `syscall`, and changed nothing but the trap (R274, R275). -/
theorem stepUnder_to_systemCall {f : EnvTrap} {v u : State} {epc : Word} (h : stepUnder f v = .next u)
    (hu : u.trap = some { cause := .systemCall, epc }) :
    v.trap = none ∧ v.fetchInstr = .ok .syscall ∧
      u = { v with trap := some { cause := .systemCall, epc := v.pc } } := by
  have hv : v.trap = none := by
    obtain ⟨tr, r, -, -, -, rfl⟩ | ⟨e, hv, -⟩ | ⟨i, hv, -⟩ := stepUnder_next h
    · simp at hu
    · exact hv
    · exact hv
  rw [stepUnder_of_no_trap f hv] at h
  obtain ⟨e, rfl⟩ := trapsArePrecise v u hv h (by simp [hu])
  obtain rfl : e = .systemCall := by
    cases hu
    rfl
  exact ⟨hv, fetchInstr_of_takes_systemCall hv h hu, rfl⟩

/-- Settles O40: a run's last step ends it, the invariant gives `epc`, and the step before took the trap. -/
theorem goodEndIsSystemCall : Obligations.GoodEndIsSystemCall := by
  refine ⟨fun _ _ => rfl, fun f n s u => ⟨fun hs => ⟨fun h => ?exit, fun t h => ?fault⟩, fun hs h => ?passed⟩⟩
  case exit =>
    obtain ⟨m, epc, -, hrun, htrap, hend⟩ := runUnder_exit_reaches h
    obtain rfl : epc = u.pc := epc_eq_pc_of_reached hs hrun htrap
    exact ⟨htrap, hend⟩
  case fault =>
    obtain ⟨m, -, hrun, htrap, hc⟩ := runUnder_fault_reaches h
    exact ⟨htrap, epc_eq_pc_of_reached hs hrun htrap, hc⟩
  case passed =>
    obtain ⟨m, epc, hm, hrun, htrap, -⟩ := runUnder_exit_reaches h
    have hne : u ≠ s := by
      rintro rfl
      simp [hs] at htrap
    obtain ⟨k, v, hk, hv, hstep⟩ := runUnder_previous hrun hne
    exact ⟨k, v, hk.trans hm, hv, stepUnder_to_systemCall hstep htrap⟩

end Sys2Proof.Machine
end

section
/-! SUPPORT. Proofs of the reset family (spec/70_reset_and_hazards.md): what the reset state holds in the fields R300 gives
a value, and that it meets the invariant every step keeps. -/

namespace Sys2Proof.Machine

section Reset
variable (entry : Word) (m : Memory) (p : Config.Params) (env : Environment)

/-! ## The fields of the reset state (R300) -/

@[simp] theorem State.resetWith_pc : (State.resetWith entry m p env).pc = entry := rfl

@[simp] theorem State.resetWith_mem : (State.resetWith entry m p env).mem = m := rfl

@[simp] theorem State.resetWith_stored : (State.resetWith entry m p env).stored = [] := rfl

@[simp] theorem State.resetWith_trap : (State.resetWith entry m p env).trap = none := rfl

/-- The slot of register 0 is the one R36 does not leave unspecified. -/
@[simp] theorem State.resetWith_x_zero : (State.resetWith entry m p env).x[0] = 0#32 :=
  Vector.getElem_set_self (by decide)

/-! ## The invariant holds at reset (R36) -/

/-- Of the invariant, only the form of the memory depends on what reset is given. -/
theorem State.wf_resetWith_iff : (State.resetWith entry m p env).wf = true ↔ m.wf = true := by
  have hmarks : marksFrom m.populated 0 [] = true := rfl
  simp [State.wf_iff, hmarks]

end Reset

/-- The memory of `State.reset`, one region and no listed cell, is in canonical form (R60). -/
theorem State.reset_mem_wf : State.reset.mem.wf = true := by decide

/-- Settles O42: the invariant at reset comes down to the form of the memory. -/
theorem resetIsWellFormed : Obligations.ResetIsWellFormed :=
  ⟨(State.wf_resetWith_iff ..).2 State.reset_mem_wf, fun entry m p env => (State.wf_resetWith_iff entry m p env).2⟩

/-! ## The first step from a misaligned entry (R28, R300) -/

/-- With no trap pending, a step from a misaligned `pc` takes `AddressErrorFetch` and changes nothing else (R273). -/
theorem step_of_misaligned_pc {s : State} (htrap : s.trap = none) (hpc : s.pc.toNat % 4 ≠ 0) :
    step s = .next { s with trap := some { cause := .addressErrorFetch s.pc, epc := s.pc } } :=
  step_of_fetch_error htrap (State.fetchInstr_misaligned hpc)

/-- Settles O43, field by field; no trap is pending, so the first step fetches at the entry. -/
theorem resetState : Obligations.ResetState := by
  intro entry m p env
  refine ⟨State.resetWith_pc .., State.readReg_zero _, State.resetWith_mem .., State.resetWith_stored ..,
    State.resetWith_trap .., fun hentry => ?misaligned⟩
  case misaligned => exact step_of_misaligned_pc (State.resetWith_trap ..) hentry

end Sys2Proof.Machine
end
